-- ==== Sys2Proof/Config.lean ====
section
/-!
DEFINITION. The parameters of this hardware, with the values `00_scope.md` R6 to R8 give it. The
orders of R9 (DIGEST_ORDER, TABLE_WORD_ORDER, FOLD_HALF_ORDER, NIBBLE_ORDER, FRAME_WORD_ORDER) have
no constant here: each is built, at the value R9 fixes for this hardware, into the one definition
that uses it (assumption log 4). The spec leaves no value open (R170, R201), so there is no free
value.
-/

namespace Sys2Proof.Config

/-- `K`, the table size exponent (R6). -/
def tableExponent : Nat := 12

/-- `TABLE_BYTES = 2^(K-3)` (R6). -/
def tableBytes : Nat := 512

/-- `TABLE_WORDS = 2^(K-4)` (R6). -/
def tableWords : Nat := 256

/-- `NACC`, the number of accumulators (R7). -/
def nacc : Nat := 4

/-- `CW`, the largest code width in bits (R8). -/
def cw : Nat := 16

/-- `PBUF_BYTES`, the size of the pack buffer (R8). -/
def pbufBytes : Nat := 1024

/-- The word-index multiplier, a constant of the document and not 16 (R10, R103). -/
def indexMultiplier : Nat := 15

@[simp] theorem tableBytes_eq : tableBytes = 512 := by decide
@[simp] theorem tableWords_eq : tableWords = 256 := by decide
@[simp] theorem nacc_eq : nacc = 4 := by decide
@[simp] theorem cw_eq : cw = 16 := by decide
@[simp] theorem pbufBytes_eq : pbufBytes = 1024 := by decide
@[simp] theorem indexMultiplier_eq : indexMultiplier = 15 := by decide

/-- The derived constants of R6 follow from `K`. -/
theorem derived_from_tableExponent :
    tableBytes = 2 ^ (tableExponent - 3) ∧ tableWords = 2 ^ (tableExponent - 4) := by decide

end Sys2Proof.Config
end

