-- ==== Sys2Proof/Word.lean ====
section
/-!
DEFINITION. The bit-vector types of the HFBE. Every value of the hardware is an unsigned integer of
a stated width (`00_scope.md` R11); bit 0 is the least significant bit, so `v[hi:lo]` of the spec is
`v.extractLsb hi lo` and `v[i]` is `v.getLsbD i`.
-/

namespace Sys2Proof

/-- A byte: memory cells and payload bytes (R50, R70). -/
abbrev Byte := BitVec 8

/-- A 16-bit value: command operands (R70), table words (R30), codes (R122). -/
abbrev Half := BitVec 16

/-- A 32-bit value: accumulators (R21), frame words (R70, R73). -/
abbrev Word := BitVec 32

end Sys2Proof
end

