-- ==== Sys2Proof/Syntax.lean ====
section
/-!
DEFINITION. The commands of the HFBE, one constructor per row of `spec/opcode_table.json`
(`30_encoding.md` R75). A command with an operand carries its 16-bit `imm` as R76 takes it, an
unsigned 16-bit integer; the four commands with a payload carry the payload, whose length IS their
`imm` (R72). Ranges narrower than 16 bits are checked when the command executes (E_OPERAND, R173),
not here.
-/

namespace Sys2Proof

/-- One command (R75). -/
inductive Instr where
  /-- 0x01 RDREG: read register number `imm` (R140). -/
  | rdreg (imm : Half)
  /-- 0x02 CLRERR: read and clear the sticky error mask (R141). -/
  | clrerr
  /-- 0x03 SRST: soft reset (R142). -/
  | srst
  /-- 0x10 HINIT: start a hash with bucket count `imm` (R92). -/
  | hinit (imm : Half)
  /-- 0x11 HABS: absorb the byte `imm` (R93). -/
  | habs (imm : Half)
  /-- 0x12 HFIN: finalise (R95). -/
  | hfin
  /-- 0x13 HRDD: read digest byte `imm` (R96). -/
  | hrdd (imm : Half)
  /-- 0x14 HABSN: absorb the payload bytes (R94). -/
  | habsn (payload : List Byte)
  /-- 0x20 FOLD: derive the coordinate (R104). -/
  | fold
  /-- 0x21 TADD: set the coordinate's bit (R105). -/
  | tadd
  /-- 0x22 TCHK: test the coordinate's bit (R106). -/
  | tchk
  /-- 0x23 TCLR: clear the table (R107). -/
  | tclr
  /-- 0x24 TGET: read `imm` bytes of the raw image (R108). -/
  | tget (imm : Half)
  /-- 0x25 TSET: load the raw image (R109). -/
  | tset (payload : List Byte)
  /-- 0x26 TMRG: OR a raw image into the table (R110). -/
  | tmrg (payload : List Byte)
  /-- 0x30 WRST: clear the running maximum (R121). -/
  | wrst
  /-- 0x31 WOBS: observe the code `imm` (R122). -/
  | wobs (imm : Half)
  /-- 0x32 PBEGIN: start a packed buffer of width `imm`, 0 for automatic (R123). -/
  | pbegin (imm : Half)
  /-- 0x33 PPUT: append the code `imm` (R124). -/
  | pput (imm : Half)
  /-- 0x34 PGET: read the packed buffer (R125). -/
  | pget
  /-- 0x35 UBEGIN: load a packed buffer (R126). -/
  | ubegin (payload : List Byte)
  /-- 0x36 UGET: take the next code (R127). -/
  | uget
  deriving DecidableEq, Repr

end Sys2Proof
end

