-- ==== Sys2Proof/WellFormed.lean ====
section
/-!
DEFINITION. Which commands have a frame. A 16-bit operand is well formed by its type; the one thing
a command's syntax can get wrong is a payload too long for the 16-bit `imm` that must hold its
length (`30_encoding.md` R72: "the payload has exactly `imm` bytes (0 to 65535)").
-/

namespace Sys2Proof

/-- The payload's length fits the 16-bit operand (R72). -/
def payloadFits (payload : List Byte) : Bool := decide (payload.length < 65536)

/-- A command that has a frame (R70, R72). -/
def Instr.wellFormed : Instr → Bool
  | .habsn p => payloadFits p
  | .tset p => payloadFits p
  | .tmrg p => payloadFits p
  | .ubegin p => payloadFits p
  | .rdreg _ | .clrerr | .srst | .hinit _ | .habs _ | .hfin | .hrdd _ | .fold | .tadd | .tchk
  | .tclr | .tget _ | .wrst | .wobs _ | .pbegin _ | .pput _ | .pget | .uget => true

end Sys2Proof
end

