-- ==== Sys2Proof/Decode.lean ====
section
/-!
DEFINITION. Command frames, the decoder and the encoder (`30_encoding.md` R70 to R78). A frame is a
32-bit command word and a payload; `decodeFrame` makes the checks of R77 in R77's order and names the
one that fails. `decodeBytes` reads a frame from a byte transport (R78), total on any bytes. The
encoder is written from the same table (R75).
-/

namespace Sys2Proof

/-- A command frame: the pair (`cw`, `payload`) of R70. -/
structure Frame where
  /-- The command word. -/
  cw : Word
  /-- The payload, `payload[0]` first (R72). -/
  payload : List Byte
  deriving DecidableEq, Repr

/-- The 22 opcodes' names (R75). -/
inductive Op where
  | rdreg | clrerr | srst
  | hinit | habs | hfin | hrdd | habsn
  | fold | tadd | tchk | tclr | tget | tset | tmrg
  | wrst | wobs | pbegin | pput | pget | ubegin | uget
  deriving DecidableEq, Repr

/-- Why a frame is illegal: the four checks of R77, and a byte transport that ends inside a frame
(assumption log 11). Each is safe: every one of R77's four is answered with E_ILLEGAL. -/
inductive DecodeError where
  /-- R77 (a): `op` is none of the 22 opcodes. -/
  | unknownOpcode (op : Byte)
  /-- R77 (b): `rsv` is not 0. -/
  | reservedField (rsv : Byte)
  /-- R77 (c): `imm` must be 0 and is not. -/
  | operandNotZero (imm : Half)
  /-- R77 (d): the payload's length is not the one R72 gives. -/
  | payloadLength (expected actual : Nat)
  /-- A byte transport ends before the frame does; no frame reaches the HFBE. -/
  | truncated
  deriving DecidableEq, Repr

/-! ## Fields of the command word (R70) -/

/-- `op = cw[31:24]`. -/
def Frame.op (f : Frame) : Byte := f.cw.extractLsb 31 24

/-- `rsv = cw[23:16]`. -/
def Frame.rsv (f : Frame) : Byte := f.cw.extractLsb 23 16

/-- `imm = cw[15:0]`. -/
def Frame.imm (f : Frame) : Half := f.cw.extractLsb 15 0

/-- `{op, rsv, imm}` with `rsv = 0` (R70). -/
def commandWord (op : Byte) (imm : Half) : Word := op ++ (0#8 ++ imm)

/-! ## The opcode map (R75) -/

/-- The rows of R75, in its order. -/
def allOps : List Op :=
  [.rdreg, .clrerr, .srst,
   .hinit, .habs, .hfin, .hrdd, .habsn,
   .fold, .tadd, .tchk, .tclr, .tget, .tset, .tmrg,
   .wrst, .wobs, .pbegin, .pput, .pget, .ubegin, .uget]

/-- The opcode of each command (R75). -/
def Op.code : Op → Byte
  | .rdreg => 0x01#8
  | .clrerr => 0x02#8
  | .srst => 0x03#8
  | .hinit => 0x10#8
  | .habs => 0x11#8
  | .hfin => 0x12#8
  | .hrdd => 0x13#8
  | .habsn => 0x14#8
  | .fold => 0x20#8
  | .tadd => 0x21#8
  | .tchk => 0x22#8
  | .tclr => 0x23#8
  | .tget => 0x24#8
  | .tset => 0x25#8
  | .tmrg => 0x26#8
  | .wrst => 0x30#8
  | .wobs => 0x31#8
  | .pbegin => 0x32#8
  | .pput => 0x33#8
  | .pget => 0x34#8
  | .ubegin => 0x35#8
  | .uget => 0x36#8

/-- The command whose opcode is `b`, none for an opcode R75 does not list. -/
def opOfCode (b : Byte) : Option Op := allOps.find? (fun o => o.code == b)

/-- Whether `imm` is free: an operand or a byte count (R75). Otherwise it must be 0. -/
def Op.immFree : Op → Bool
  | .rdreg | .hinit | .habs | .hrdd | .habsn | .tget | .tset | .tmrg | .wobs | .pbegin | .pput
  | .ubegin => true
  | .clrerr | .srst | .hfin | .fold | .tadd | .tchk | .tclr | .wrst | .pget | .uget => false

/-- Whether the command has a payload of `imm` bytes (R72). -/
def Op.hasPayload : Op → Bool
  | .habsn | .tset | .tmrg | .ubegin => true
  | .rdreg | .clrerr | .srst | .hinit | .habs | .hfin | .hrdd | .fold | .tadd | .tchk | .tclr
  | .tget | .wrst | .wobs | .pbegin | .pput | .pget | .uget => false

/-- `match = op << 24` of R75. -/
def Op.matchWord (o : Op) : Word := commandWord o.code 0#16

/-- The `mask` of R75: bits 31:16 fixed if `imm` is free, all bits fixed if it must be 0. -/
def Op.maskWord (o : Op) : Word := if o.immFree then 0xFFFF0000#32 else 0xFFFFFFFF#32

/-- The payload length that `op` and `imm` imply (R72). -/
def Op.payloadLength (o : Op) (imm : Half) : Nat := if o.hasPayload then imm.toNat else 0

/-- The command of a legal frame with this operand and payload. -/
def Op.toInstr : Op → Half → List Byte → Instr
  | .rdreg, imm, _ => .rdreg imm
  | .clrerr, _, _ => .clrerr
  | .srst, _, _ => .srst
  | .hinit, imm, _ => .hinit imm
  | .habs, imm, _ => .habs imm
  | .hfin, _, _ => .hfin
  | .hrdd, imm, _ => .hrdd imm
  | .habsn, _, p => .habsn p
  | .fold, _, _ => .fold
  | .tadd, _, _ => .tadd
  | .tchk, _, _ => .tchk
  | .tclr, _, _ => .tclr
  | .tget, imm, _ => .tget imm
  | .tset, _, p => .tset p
  | .tmrg, _, p => .tmrg p
  | .wrst, _, _ => .wrst
  | .wobs, imm, _ => .wobs imm
  | .pbegin, imm, _ => .pbegin imm
  | .pput, imm, _ => .pput imm
  | .pget, _, _ => .pget
  | .ubegin, _, p => .ubegin p
  | .uget, _, _ => .uget

/-! ## The decoder -/

/-- The checks of R77, in its order: opcode, reserved field, zero operand, payload length. -/
def decodeFrame (f : Frame) : Except DecodeError Instr :=
  match opOfCode f.op with
  | none => .error (.unknownOpcode f.op)
  | some o =>
    if f.rsv ≠ 0#8 then .error (.reservedField f.rsv)
    else if o.immFree = false ∧ f.imm ≠ 0#16 then .error (.operandNotZero f.imm)
    else if f.payload.length ≠ o.payloadLength f.imm then
      .error (.payloadLength (o.payloadLength f.imm) f.payload.length)
    else .ok (o.toInstr f.imm f.payload)

/-- A 32-bit word from four transport bytes, least significant first (R78). -/
def wordOfBytes (b0 b1 b2 b3 : Byte) : Word := b3 ++ (b2 ++ (b1 ++ b0))

/-- How many payload bytes follow the command word `cw` on a byte transport: "the payload length is
known from `op` and `imm` alone, which is how a decoder finds the end of a frame" (R70, R72). -/
def transportPayloadLength (cw : Word) : Nat :=
  match opOfCode (cw.extractLsb 31 24) with
  | none => 0
  | some o => o.payloadLength (cw.extractLsb 15 0)

/-- The next frame of a byte transport and the bytes after it (R78). -/
def frameOfBytes : List Byte → Except DecodeError (Frame × List Byte)
  | b0 :: b1 :: b2 :: b3 :: rest =>
    let cw := wordOfBytes b0 b1 b2 b3
    let n := transportPayloadLength cw
    if rest.length < n then .error .truncated else .ok (⟨cw, rest.take n⟩, rest.drop n)
  | _ => .error .truncated

/-- The next command of a byte transport and the bytes after it. -/
def decodeBytes (bs : List Byte) : Except DecodeError (Instr × List Byte) :=
  match frameOfBytes bs with
  | .error e => .error e
  | .ok (f, rest) =>
    match decodeFrame f with
    | .error e => .error e
    | .ok i => .ok (i, rest)

/-! ## The encoder -/

/-- The opcode name of a command. -/
def Instr.op : Instr → Op
  | .rdreg _ => .rdreg
  | .clrerr => .clrerr
  | .srst => .srst
  | .hinit _ => .hinit
  | .habs _ => .habs
  | .hfin => .hfin
  | .hrdd _ => .hrdd
  | .habsn _ => .habsn
  | .fold => .fold
  | .tadd => .tadd
  | .tchk => .tchk
  | .tclr => .tclr
  | .tget _ => .tget
  | .tset _ => .tset
  | .tmrg _ => .tmrg
  | .wrst => .wrst
  | .wobs _ => .wobs
  | .pbegin _ => .pbegin
  | .pput _ => .pput
  | .pget => .pget
  | .ubegin _ => .ubegin
  | .uget => .uget

/-- The payload of a command (R72). -/
def Instr.payload : Instr → List Byte
  | .habsn p | .tset p | .tmrg p | .ubegin p => p
  | .rdreg _ | .clrerr | .srst | .hinit _ | .habs _ | .hfin | .hrdd _ | .fold | .tadd | .tchk
  | .tclr | .tget _ | .wrst | .wobs _ | .pbegin _ | .pput _ | .pget | .uget => []

/-- The `imm` of a command: its operand, its payload's length, or 0 (R75, R72). -/
def Instr.imm : Instr → Half
  | .rdreg imm | .hinit imm | .habs imm | .hrdd imm | .tget imm | .wobs imm | .pbegin imm
  | .pput imm => imm
  | .habsn p | .tset p | .tmrg p | .ubegin p => BitVec.ofNat 16 p.length
  | .clrerr | .srst | .hfin | .fold | .tadd | .tchk | .tclr | .wrst | .pget | .uget => 0#16

/-- The frame of a command: `cw = (op << 24) | imm`, the payload as written (R82). -/
def encode (i : Instr) : Frame := ⟨commandWord i.op.code i.imm, i.payload⟩

/-- A 32-bit word as four bytes, least significant first (R78). -/
def bytesOfWord (w : Word) : List Byte :=
  [w.extractLsb 7 0, w.extractLsb 15 8, w.extractLsb 23 16, w.extractLsb 31 24]

/-- A frame on a byte transport: the command word, then the payload (R78). -/
def Frame.toBytes (f : Frame) : List Byte := bytesOfWord f.cw ++ f.payload

/-! ## The opcode table's numbering -/

/-- The `n` lowest bytes of `w`, lowest first: bits 7:0, then 15:8, and so on. -/
def bytesOfNat : Nat → Nat → List Byte
  | 0, _ => []
  | n + 1, w => BitVec.ofNat 8 w :: bytesOfNat n (w / 256)

/-- The transport bytes of an instruction whose bits are `w`, of which the opcode table gives
`nbits`: every bit above `nbits` is 0, the payload is as long as the command word says, and the
command word goes least significant byte first (R78). -/
def tableWordBytes (nbits w : Nat) : List Byte :=
  let bits := w % 2 ^ nbits
  bytesOfNat (4 + transportPayloadLength (BitVec.ofNat 32 bits)) bits

/-- The instruction the decoder reads from the bits `w` of an opcode-table row. -/
def decodeTableWord (nbits w : Nat) : Option Instr :=
  match decodeBytes (tableWordBytes nbits w) with
  | .ok (i, _) => some i
  | .error _ => none

end Sys2Proof
end

