-- ==== Sys2Proof/Machine/State.lean ====
section
/-!
DEFINITION. The state of the HFBE: the tuple of `10_state.md` R20, with the widths and ranges of R21
to R37, and the two sides of the transaction interface of `00_scope.md` R3 and R14 (assumption log
1). Everything is plain data. `State.reset` is the reset state of R47.
-/

namespace Sys2Proof.Machine

/-- `HSTATE` (R24). The value 3 never occurs. -/
inductive HState where
  /-- `H_IDLE = 0`: no hash started since reset. -/
  | idle
  /-- `H_ABSORB = 1`: bytes may be absorbed. -/
  | absorb
  /-- `H_FINAL = 2`: finalisation applied; the digest is readable. -/
  | final
  deriving DecidableEq, Repr

/-- `PMODE` (R33). The value 3 never occurs. -/
inductive PMode where
  /-- `P_IDLE = 0`. -/
  | idle
  /-- `P_PACK = 1`: PBUF is being filled by PPUT. -/
  | pack
  /-- `P_UNPACK = 2`: PBUF holds a packed buffer being read by UGET. -/
  | unpack
  deriving DecidableEq, Repr

/-- The accumulator file `ACC[0..NACC-1]` (R21), `NACC = 4`. -/
structure AccFile where
  a0 : Word
  a1 : Word
  a2 : Word
  a3 : Word
  deriving DecidableEq, Repr

/-- The error codes of R171; code 0 is success. -/
inductive ErrorCode where
  /-- 1 E_ILLEGAL: the frame is not a command (R172). -/
  | illegal
  /-- 2 E_OPERAND: the operand is outside the command's legal range (R173). -/
  | operand
  /-- 3 E_SEQ: the command is not valid in the unit's present state (R174). -/
  | seq
  /-- 4 E_RANGE: a code wider than the pack width (R175). -/
  | range
  /-- 5 E_OVERFLOW: the packed buffer would exceed PBUF_BYTES (R176). -/
  | overflow
  /-- 6 E_DECODE_HDR: header missing or its width not legal (R177). -/
  | decodeHdr
  /-- 7 E_EOS: no whole code remains (R178). -/
  | eos
  deriving DecidableEq, Repr

/-- A response frame (R73). `rplen` is the length of `rpayload`, and `rw0`, `rw1` are the words these
fields pack into (Machine/Operands.lean). -/
structure Response where
  /-- `rw0[31:24]`: the error code, 0 = success. -/
  err : Byte
  /-- `rw0[23:16]`: the condition flags of this command (R74). -/
  flags : Byte
  /-- `rw1`: the 32-bit result. -/
  data : Word
  /-- The response payload; only TGET and PGET return one. -/
  rpayload : List Byte
  deriving DecidableEq, Repr

/-- A memory: its bytes that are not 0, by address, addresses strictly rising. An address that is not
listed holds 0, the reset content of both memories (R47; assumption log 8). `memWf` says the form
holds. -/
abbrev Mem := List Host.Cell

/-- The state. The fields from `acc` to `err` are the tuple of R20, "and nothing else"; `pending` and
`outbox` are the model's own (assumption log 1). -/
structure State where
  /-- `ACC[0..3]` (R21). -/
  acc : AccFile
  /-- `BC`, 3-bit unsigned, `0..NACC` (R22). -/
  bc : Fin 5
  /-- `LANE`, 2-bit unsigned (R23). -/
  lane : Fin 4
  /-- `HSTATE` (R24). -/
  hstate : HState
  /-- `H0`: bucket 0 XOR bucket 3 (R25). -/
  h0 : Word
  /-- `H1`: bucket 1 XOR bucket 2 (R25). -/
  h1 : Word
  /-- `N0` (R26). -/
  n0 : BitVec 4
  /-- `N1` (R26). -/
  n1 : BitVec 4
  /-- `N2` (R26). -/
  n2 : BitVec 4
  /-- `WIDX` (R27). -/
  widx : Byte
  /-- `BMASK` (R27). -/
  bmask : Half
  /-- `IVALID` (R28). -/
  ivalid : Bool
  /-- `HIT` (R29). -/
  hit : Bool
  /-- `TABLE` (R30), held as its byte view `RAW[0..511]` (R51). -/
  table : Mem
  /-- `MAXC` (R31). -/
  maxc : Half
  /-- `PW`, 5-bit unsigned (R32). -/
  pw : BitVec 5
  /-- `PMODE` (R33). -/
  pmode : PMode
  /-- `PBUF[0..1023]` (R34). -/
  pbuf : Mem
  /-- `PLEN`, 11-bit unsigned, `0..PBUF_BYTES` (R35). -/
  plen : Fin 1025
  /-- `PCUR`, 14-bit unsigned (R36). -/
  pcur : BitVec 14
  /-- `ERR`, the sticky error mask (R37). -/
  err : Byte
  /-- The command frames the host has presented and the HFBE has not executed, oldest first (R3,
  R14). -/
  pending : List Frame
  /-- The response frames returned, oldest first: "the observable outcome of a run" (R14). -/
  outbox : List Response
  deriving DecidableEq, Repr

/-- Why the machine stops with a fault: never. "There is no stuck state, no hang and no undefined
result for any frame in any state" (R170), and no command can name a byte of a memory that does not
exist (R59, R103, R176; assumption log 5), so no one raises a fault and the type has no
constructor (safe). -/
inductive Fault where
  deriving DecidableEq, Repr

/-- Why the model has no meaning for a command. -/
inductive Refusal where
  /-- Raised only by an arm of `exec` whose command has no meaning yet, with the command's name; no
  arm is left that raises it (safe). -/
  | notModelled (mnemonic : String)
  deriving DecidableEq, Repr

/-- What a command answers. -/
abbrev Result := Host.Outcome State Fault Refusal

/-- The state after reset (R47, R201): all zero, both units idle, both memories zero, no frame
presented and no response given (assumption log 1). -/
def State.reset : State where
  acc := ⟨0#32, 0#32, 0#32, 0#32⟩
  bc := 0
  lane := 0
  hstate := .idle
  h0 := 0#32
  h1 := 0#32
  n0 := 0#4
  n1 := 0#4
  n2 := 0#4
  widx := 0#8
  bmask := 0#16
  ivalid := false
  hit := false
  table := []
  maxc := 0#16
  pw := 0#5
  pmode := .idle
  pbuf := []
  plen := 0
  pcur := 0#14
  err := 0#8
  pending := []
  outbox := []

end Sys2Proof.Machine
end

