-- ==== Sys2Proof/Machine/Flags.lean ====
section
/-!
DEFINITION. The condition flags of a response (`30_encoding.md` R74) and the sticky error mask
(`10_state.md` R37, `60_exceptions.md` R171).
-/

namespace Sys2Proof.Machine

/-- The `flags` field: bit 0 `HIT`, bit 1 `LENMIS`, bits 7:2 zero (R74). -/
def responseFlags (hit lenmis : Bool) : Byte :=
  0#6 ++ (BitVec.ofBool lenmis ++ BitVec.ofBool hit)

/-- `LENMIS`: the length operand is not `TABLE_BYTES` (R74, R179). -/
def lenMismatch (len : Nat) : Bool := decide (len ≠ Config.tableBytes)

/-- `HIT`: the tested bit is set (R29, R106). -/
def hitFlag (tableWord mask : Half) : Bool := decide (tableWord &&& mask ≠ 0#16)

/-- The code of an error (R171). -/
def errorCodeNumber : ErrorCode → Nat
  | .illegal => 1
  | .operand => 2
  | .seq => 3
  | .range => 4
  | .overflow => 5
  | .decodeHdr => 6
  | .eos => 7

/-- `ERR[c] <- 1`, every other bit as it was (R183). -/
def stickyError (err : Byte) (e : ErrorCode) : Byte := err ||| 1#8 <<< errorCodeNumber e

end Sys2Proof.Machine
end

