-- ==== Sys2Proof/Machine/Ops.lean ====
section
/-!
DEFINITION. The named operations: memory (`20_memory.md`), the accumulator file (`10_state.md` R21),
taking a frame from the host, completing a command and taking an error (`00_scope.md` R13,
`60_exceptions.md` R183). The error is the one exception of this hardware: it transfers no control
and saves nothing but a bit of `ERR` (R170, R183), so there is no return from it (R184).
-/

namespace Sys2Proof.Machine

/-! ## Memory bytes -/

/-- The byte at address `a`; an unlisted address holds 0 (R47). -/
def memRead : Mem → Nat → Byte
  | [], _ => 0#8
  | (b, v) :: m, a => if b = a then v else memRead m a

/-- The memory with nothing listed at address `a`. -/
def memErase (m : Mem) (a : Nat) : Mem := m.filter (fun c => c.1 != a)

/-- The memory with byte `v` listed at address `a`, addresses kept rising. -/
def memInsert : Mem → Nat → Byte → Mem
  | [], a, v => [(a, v)]
  | (b, u) :: m, a, v =>
    if a < b then (a, v) :: (b, u) :: m
    else if a = b then (a, v) :: m
    else (b, u) :: memInsert m a v

/-- Writes byte `v` at address `a`, keeping the canonical form: a 0 is not listed. -/
def memWrite (m : Mem) (a : Nat) (v : Byte) : Mem :=
  if v = 0#8 then memErase m a else memInsert m a v

/-- The canonical form above address `lo`: addresses strictly rising from `lo` on and below `size`,
no listed byte 0. -/
def memWfFrom (size : Nat) : Nat → Mem → Bool
  | _, [] => true
  | lo, (a, v) :: m =>
    decide (lo ≤ a) && decide (a < size) && decide (v ≠ 0#8) && memWfFrom size (a + 1) m

/-- The canonical form of a memory of `size` bytes. -/
def memWf (size : Nat) (m : Mem) : Bool := memWfFrom size 0 m

/-- The `n` bytes from address `a` on. -/
def memReadBytes (m : Mem) : Nat → Nat → List Byte
  | _, 0 => []
  | a, n + 1 => memRead m a :: memReadBytes m (a + 1) n

/-- Writes the bytes to addresses `a`, `a+1`, ... in order. -/
def memWriteBytes : Mem → Nat → List Byte → Mem
  | m, _, [] => m
  | m, a, b :: bs => memWriteBytes (memWrite m a b) (a + 1) bs

/-- ORs the bytes into addresses `a`, `a+1`, ... in order (R110). -/
def memOrBytes : Mem → Nat → List Byte → Mem
  | m, _, [] => m
  | m, a, b :: bs => memOrBytes (memWrite m a (memRead m a ||| b)) (a + 1) bs

/-! ## Table words: `TABLE[w] = {RAW[2w+1], RAW[2w]}` (R51) -/

/-- `TABLE[w]`. -/
def tableWord (t : Mem) (w : Nat) : Half := memRead t (2 * w + 1) ++ memRead t (2 * w)

/-- `TABLE[w] <- v`. -/
def tableSetWord (t : Mem) (w : Nat) (v : Half) : Mem :=
  memWrite (memWrite t (2 * w) (v.extractLsb 7 0)) (2 * w + 1) (v.extractLsb 15 8)

/-! ## Payload bits: bit `p` is bit `p mod 8` of `PBUF[1 + p div 8]` (R60) -/

/-- Payload bit `p`. -/
def payloadBit (m : Mem) (p : Nat) : Bool := (memRead m (1 + p / 8)).getLsbD (p % 8)

/-- The byte `b` with bit `i` set to `v`, every other bit as it was. -/
def byteSetBit (b : Byte) (i : Nat) (v : Bool) : Byte :=
  if v then b ||| 1#8 <<< i else b &&& ~~~(1#8 <<< i)

/-- Payload bit `p <- v`. -/
def setPayloadBit (m : Mem) (p : Nat) (v : Bool) : Mem :=
  memWrite m (1 + p / 8) (byteSetBit (memRead m (1 + p / 8)) (p % 8) v)

/-- The loop of R124: for `b` in `0..n-1`, payload bit `cur + b <- c[b]`. -/
def putCodeBits (m : Mem) (cur : Nat) (c : Half) : Nat → Mem
  | 0 => m
  | n + 1 => setPayloadBit (putCodeBits m cur c n) (cur + n) (c.getLsbD n)

/-- The loop of R127: the number whose bit `b`, for `b` in `0..n-1`, is payload bit `cur + b`. -/
def getCodeBits (m : Mem) (cur : Nat) : Nat → Word
  | 0 => 0#32
  | n + 1 =>
    getCodeBits m cur n ||| (if payloadBit m (cur + n) then 1#32 <<< n else 0#32)

/-! ## The accumulator file (R21) -/

/-- All accumulators 0. -/
def accZero : AccFile := ⟨0#32, 0#32, 0#32, 0#32⟩

/-- `ACC[i]`. -/
def accGet (f : AccFile) : Fin 4 → Word
  | 0 => f.a0
  | 1 => f.a1
  | 2 => f.a2
  | 3 => f.a3

/-- `ACC[i] <- v`. -/
def accSet (f : AccFile) (i : Fin 4) (v : Word) : AccFile :=
  match i with
  | 0 => { f with a0 := v }
  | 1 => { f with a1 := v }
  | 2 => { f with a2 := v }
  | 3 => { f with a3 := v }

/-- `ACC[i] <- g(ACC[i])` for `i` in `0..n-1`, the others as they were. -/
def accMapBelow (n : Nat) (g : Word → Word) (f : AccFile) : AccFile where
  a0 := if 0 < n then g f.a0 else f.a0
  a1 := if 1 < n then g f.a1 else f.a1
  a2 := if 2 < n then g f.a2 else f.a2
  a3 := if 3 < n then g f.a3 else f.a3

/-! ## Completing a command -/

/-- Returns a response frame to the host (R3). -/
def State.emit (s : State) (r : Response) : State := { s with outbox := s.outbox ++ [r] }

/-- The response of a command that succeeds: `err = 0` (R13, R73). -/
def okResponse (data : Word) (flags : Byte) (rpayload : List Byte) : Response :=
  ⟨0#8, flags, data, rpayload⟩

/-- The response of a command that fails: the code, every other field 0 or empty (R73, R183). -/
def errorResponse (e : ErrorCode) : Response := ⟨BitVec.ofNat 8 (errorCodeNumber e), 0#8, 0#32, []⟩

/-- `respond(data [, flags] [, payload])` (R13): the command completes in state `s`. -/
def respondWith (s : State) (data : Word) (flags : Byte) (rpayload : List Byte) : Result :=
  .next (s.emit (okResponse data flags rpayload))

/-- `respond(data)` with no flag and no payload (R13). -/
def respond (s : State) (data : Word) : Result := respondWith s data 0#8 []

/-- The state after an error: `ERR[c] <- 1`, the error response, "no other state changes" (R183). -/
def State.withError (s : State) (e : ErrorCode) : State :=
  { s with err := stickyError s.err e, outbox := s.outbox ++ [errorResponse e] }

/-- `raise E_x` (R13, R170, R183): taking an error. -/
def raise (e : ErrorCode) (s : State) : Result := .next (s.withError e)

/-! ## Taking a frame from the host (R3, R14) -/

/-- The oldest frame presented, and the state without it; none when the host has presented none. -/
def fetchFrame (s : State) : Option (Frame × State) :=
  match s.pending with
  | [] => none
  | f :: rest => some (f, { s with pending := rest })

/-- An illegal frame, whichever check it fails: E_ILLEGAL (R77, R172). -/
def rejectFrame (_why : DecodeError) (s : State) : Result := raise .illegal s

/-- No frame is presented: the HFBE is ready for one (R190) and no state is written, because each
element's writers are commands and reset alone (R20 to R37; assumption log 2). -/
def idleStep (s : State) : Result := .next s

/-- The frame of the opcode table's bits `w`, as its transport bytes give it. -/
def frameOfTableWord (nbits w : Nat) : Option Frame :=
  match frameOfBytes (tableWordBytes nbits w) with
  | .ok (f, _) => some f
  | .error _ => none

/-- The host presents the frame first of all (assumption log 3). -/
def presentFirst (s : State) (f : Option Frame) : State :=
  match f with
  | some f => { s with pending := f :: s.pending }
  | none => s

end Sys2Proof.Machine
end

