-- ==== Sys2Proof/Machine/Operands.lean ====
section
/-!
DEFINITION. The values commands compute from operands and state: the pure functions of the hash
(`41_bucket_hash.md` R90, R91), the fold and the coordinate (`42_fold_index_table.md` R100 to R103),
the width (`43_pack_unpack.md` R120), the register map (`10_state.md` R38, R39) and the words of a
response (`30_encoding.md` R73, R78).
-/

namespace Sys2Proof.Machine

/-! ## Arithmetic (R12) -/

/-- `ceil_div(a, n) = (a + n - 1) div n` (R12). -/
def ceilDiv (a n : Nat) : Nat := (a + n - 1) / n

/-- `bitlen(x)`: the bits needed to write `x` in binary, `bitlen(0) = 0` (R12). -/
def bitlen (x : Nat) : Nat := if x = 0 then 0 else Nat.log2 x + 1

/-! ## The hash (R90, R91) -/

/-- `ABSORB(a, b)`, the per-byte step (R90). The byte is zero-extended. -/
def absorb (a : Word) (b : Byte) : Word :=
  let a1 := a + b.setWidth 32
  let a2 := a1 + a1 <<< 10
  a2 ^^^ a2 >>> 6

/-- `FINAL(a)`, the finalisation (R91). -/
def finalize (a : Word) : Word :=
  let f1 := a + a <<< 3
  let f2 := f1 ^^^ f1 >>> 11
  f2 + f2 <<< 15

/-- `(LANE + 1) mod BC` (R93). `BC >= 1` while a hash is open (R22; assumption log 7). -/
def nextLane (bc : Fin 5) (lane : Fin 4) : Fin 4 := Fin.ofNat 4 ((lane.val + 1) % bc.val)

/-- The accumulators and the lane after one byte (R93). -/
def absorbByte (bc : Fin 5) (h : AccFile × Fin 4) (b : Byte) : AccFile × Fin 4 :=
  (accSet h.1 h.2 (absorb (accGet h.1 h.2) b), nextLane bc h.2)

/-- The accumulators and the lane after the bytes, in increasing index (R94). -/
def absorbBytes (bc : Fin 5) (h : AccFile × Fin 4) (bs : List Byte) : AccFile × Fin 4 :=
  bs.foldl (absorbByte bc) h

/-- Byte `b` of a 32-bit value, byte 0 the least significant: `v[8b+7 : 8b]` (R79). -/
def wordByte (v : Word) (b : Nat) : Byte := (v >>> (8 * b)).setWidth 8

/-- `DIGEST[j] = ACC[j div 4][8*(j mod 4)+7 : 8*(j mod 4)]` (R38 c, R79). -/
def digestByte (f : AccFile) (j : Nat) : Byte := wordByte (accGet f (Fin.ofNat 4 (j / 4))) (j % 4)

/-! ## The fold and the coordinate (R100 to R103) -/

/-- `h0 = b0 ^ b3` (R100). -/
def foldLow (f : AccFile) : Word := f.a0 ^^^ f.a3

/-- `h1 = b1 ^ b2` (R100). -/
def foldHigh (f : AccFile) : Word := f.a1 ^^^ f.a2

/-- `F = {h1, h0}` (R100). -/
def foldedValue (h0 h1 : Word) : BitVec 64 := h1 ++ h0

/-- `nibble[i] = F[4i+3 : 4i]` (R101). -/
def nibble (v : BitVec 64) (i : Nat) : BitVec 4 := (v >>> (4 * i)).setWidth 4

/-- Nibble accumulator `k` of the fold `acc[i mod 3] ^= nibble[i]` for `i` in `[0, n)`, from 0
(R102). -/
def nibbleFold (v : BitVec 64) (k : Nat) : Nat → BitVec 4
  | 0 => 0#4
  | n + 1 => if n % 3 = k then nibbleFold v k n ^^^ nibble v n else nibbleFold v k n

/-- `n0`, `n1` or `n2` of all 16 nibbles (R102). -/
def nibbleSum (v : BitVec 64) (k : Nat) : BitVec 4 := nibbleFold v k 16

/-- `word_index = n0 * 15 + n1` (R103). -/
def wordIndex (n0 n1 : BitVec 4) : Byte :=
  BitVec.ofNat 8 (n0.toNat * Config.indexMultiplier + n1.toNat)

/-- `bit_mask = 1 << n2` (R103). -/
def bitMask (n2 : BitVec 4) : Half := 1#16 <<< n2.toNat

/-- The COORD view `{BMASK, 0x00, WIDX}` (R39, R104). -/
def coordView (bmask : Half) (widx : Byte) : Word := bmask ++ (0#8 ++ widx)

/-! ## Width selection (R120) and the pack buffer's length (R35) -/

/-- `WIDTH(m) = max(1, bitlen(m))` (R120). -/
def codeWidth (m : Nat) : Nat := max 1 (bitlen m)

/-- The length in bytes of a packed buffer whose payload has `bits` bits (R35, R80). -/
def packedLength (bits : Nat) : Nat := 1 + ceilDiv bits 8

/-- `min(imm, TABLE_BYTES)`, the bytes a raw command moves (R59). -/
def clampLength (len : Nat) : Nat := min len Config.tableBytes

/-! ## The register map (R38, R39) -/

/-- The registers of R39. -/
inductive Reg where
  | id | param | status | err | hcfg
  | acc (i : Fin 4)
  | h0 | h1 | nib | coord
  | pw | pcur | plen | maxc | wauto | urem
  deriving DecidableEq, Repr

/-- The register whose number is `n`, none for a number not in R39's table. -/
def regOfNumber (n : Nat) : Option Reg :=
  if n = 0x00 then some .id
  else if n = 0x01 then some .param
  else if n = 0x02 then some .status
  else if n = 0x03 then some .err
  else if n = 0x04 then some .hcfg
  else if n = 0x08 then some (.acc 0)
  else if n = 0x09 then some (.acc 1)
  else if n = 0x0A then some (.acc 2)
  else if n = 0x0B then some (.acc 3)
  else if n = 0x10 then some .h0
  else if n = 0x11 then some .h1
  else if n = 0x12 then some .nib
  else if n = 0x13 then some .coord
  else if n = 0x18 then some .pw
  else if n = 0x19 then some .pcur
  else if n = 0x1A then some .plen
  else if n = 0x1B then some .maxc
  else if n = 0x1C then some .wauto
  else if n = 0x1D then some .urem
  else none

/-- `HSTATE` as its 2-bit value (R24). -/
def hstateBits : HState → BitVec 2
  | .idle => 0#2
  | .absorb => 1#2
  | .final => 2#2

/-- `PMODE` as its 2-bit value (R33). -/
def pmodeBits : PMode → BitVec 2
  | .idle => 0#2
  | .pack => 1#2
  | .unpack => 2#2

/-- STATUS: 1:0 `HSTATE`, 2 `IVALID`, 3 `HIT`, 5:4 `PMODE` (R39). -/
def statusView (s : State) : Word :=
  0#26 ++ (pmodeBits s.pmode ++ (BitVec.ofBool s.hit ++ (BitVec.ofBool s.ivalid ++ hstateBits s.hstate)))

/-- HCFG: 2:0 `BC`, 5:4 `LANE` (R39). -/
def hcfgView (s : State) : Word :=
  0#26 ++ (BitVec.ofNat 2 s.lane.val ++ (0#1 ++ BitVec.ofNat 3 s.bc.val))

/-- NIB: 3:0 `N0`, 7:4 `N1`, 11:8 `N2` (R39). -/
def nibView (s : State) : Word := 0#20 ++ (s.n2 ++ (s.n1 ++ s.n0))

/-- `UREM`: the whole codes UGET can still deliver in `P_UNPACK`, else 0 (R38 b). `PW >= 1` and
`PLEN >= 1` in `P_UNPACK` (R46; assumption log 7). -/
def unpackRemaining (s : State) : Nat :=
  match s.pmode with
  | .unpack => (8 * (s.plen.val - 1) - s.pcur.toNat) / s.pw.toNat
  | .idle => 0
  | .pack => 0

/-- PARAM: 7:0 `K`, 15:8 `NACC`, 23:16 `CW`, 31:24 `PBUF_BYTES div 256` (R39). -/
def paramView : Word :=
  BitVec.ofNat 8 (Config.pbufBytes / 256) ++ (BitVec.ofNat 8 Config.cw ++
    (BitVec.ofNat 8 Config.nacc ++ BitVec.ofNat 8 Config.tableExponent))

/-- The 32-bit value of a register (R39). Reading has no side effect. -/
def readReg (s : State) : Reg → Word
  | .id => 0x48464201#32
  | .param => paramView
  | .status => statusView s
  | .err => s.err.setWidth 32
  | .hcfg => hcfgView s
  | .acc i => accGet s.acc i
  | .h0 => s.h0
  | .h1 => s.h1
  | .nib => nibView s
  | .coord => coordView s.bmask s.widx
  | .pw => s.pw.setWidth 32
  | .pcur => s.pcur.setWidth 32
  | .plen => BitVec.ofNat 32 s.plen.val
  | .maxc => s.maxc.setWidth 32
  | .wauto => BitVec.ofNat 32 (codeWidth s.maxc.toNat)
  | .urem => BitVec.ofNat 32 (unpackRemaining s)

/-! ## The words of a response (R73, R78) -/

/-- `rplen`, the number of bytes in `rpayload` (R73). -/
def Response.rplen (r : Response) : Half := BitVec.ofNat 16 r.rpayload.length

/-- `rw0 = {err, flags, rplen}` (R73). -/
def Response.rw0 (r : Response) : Word := r.err ++ (r.flags ++ r.rplen)

/-- `rw1 = data` (R73). -/
def Response.rw1 (r : Response) : Word := r.data

/-- A response on a byte transport: `rw0`, then `rw1`, then the payload, words least significant byte
first (R78). -/
def Response.toBytes (r : Response) : List Byte :=
  bytesOfWord r.rw0 ++ bytesOfWord r.rw1 ++ r.rpayload

end Sys2Proof.Machine
end

