-- ==== Sys2Proof/Machine/HashUnit.lean ====
section
/-!
DEFINITION. The hash unit commands HINIT, HABS, HABSN, HFIN, HRDD (`41_bucket_hash.md`). Each makes
its checks in the order of its pseudocode (`60_exceptions.md` R182).
-/

namespace Sys2Proof.Machine

/-- HINIT (R92): bucket count `imm`, all accumulators 0, lane 0, absorbing, no valid coordinate. -/
def execHinit (imm : Half) (s : State) : Result :=
  if imm.toNat < 1 ∨ Config.nacc < imm.toNat then raise .operand s
  else
    respond
      { s with
        bc := Fin.ofNat 5 imm.toNat
        acc := accZero
        lane := 0
        hstate := .absorb
        ivalid := false }
      (imm.setWidth 32)

/-- The hash unit after the bytes have been absorbed (R93, R94). -/
def absorbInto (s : State) (bs : List Byte) : State :=
  { s with
    acc := (absorbBytes s.bc (s.acc, s.lane) bs).1
    lane := (absorbBytes s.bc (s.acc, s.lane) bs).2 }

/-- HABS (R93): absorbs the byte `imm[7:0]`. -/
def execHabs (imm : Half) (s : State) : Result :=
  if 255 < imm.toNat then raise .operand s
  else if s.hstate ≠ .absorb then raise .seq s
  else respond (absorbInto s [imm.extractLsb 7 0]) 0#32

/-- HABSN (R94): absorbs the payload bytes in increasing index, as one atomic command. -/
def execHabsn (payload : List Byte) (s : State) : Result :=
  if s.hstate ≠ .absorb then raise .seq s
  else respond (absorbInto s payload) 0#32

/-- HFIN (R95): finalises `ACC[0..BC-1]`. -/
def execHfin (s : State) : Result :=
  if s.hstate ≠ .absorb then raise .seq s
  else respond { s with acc := accMapBelow s.bc.val finalize s.acc, hstate := .final } 0#32

/-- HRDD (R96): reads digest byte `imm`; the sequence check comes before the operand check. -/
def execHrdd (imm : Half) (s : State) : Result :=
  if s.hstate ≠ .final then raise .seq s
  else if 4 * s.bc.val ≤ imm.toNat then raise .operand s
  else respond s ((digestByte s.acc imm.toNat).setWidth 32)

end Sys2Proof.Machine
end

