-- ==== Sys2Proof/Machine/IndexUnit.lean ====
section
/-!
DEFINITION. The index unit commands FOLD, TADD, TCHK, TCLR, TGET, TSET, TMRG
(`42_fold_index_table.md`).
-/

namespace Sys2Proof.Machine

/-- The index registers after a fold of the accumulators (R100 to R104). -/
def foldInto (s : State) : State :=
  let h0 := foldLow s.acc
  let h1 := foldHigh s.acc
  let n0 := nibbleSum (foldedValue h0 h1) 0
  let n1 := nibbleSum (foldedValue h0 h1) 1
  let n2 := nibbleSum (foldedValue h0 h1) 2
  { s with
    h0 := h0, h1 := h1, n0 := n0, n1 := n1, n2 := n2
    widx := wordIndex n0 n1, bmask := bitMask n2, ivalid := true }

/-- FOLD (R104): derives the coordinate from the finalised 4-bucket digest. -/
def execFold (s : State) : Result :=
  if s.hstate ≠ .final ∨ s.bc.val ≠ 4 then raise .seq s
  else respond (foldInto s) (coordView (foldInto s).bmask (foldInto s).widx)

/-- TADD (R105): sets the coordinate's bit, `TABLE[WIDX] <- TABLE[WIDX] | BMASK`. -/
def execTadd (s : State) : Result :=
  if s.ivalid = false then raise .seq s
  else
    respond
      { s with
        table := tableSetWord s.table s.widx.toNat (tableWord s.table s.widx.toNat ||| s.bmask) }
      0#32

/-- TCHK (R106): tests the coordinate's bit; `HIT` in the state, the flags and the data. -/
def execTchk (s : State) : Result :=
  if s.ivalid = false then raise .seq s
  else
    let hit := hitFlag (tableWord s.table s.widx.toNat) s.bmask
    respondWith { s with hit := hit } ((BitVec.ofBool hit).setWidth 32) (responseFlags hit false) []

/-- TCLR (R107): every table word 0. -/
def execTclr (s : State) : Result := respond { s with table := [] } 0#32

/-- TGET (R108): the first `min(imm, TABLE_BYTES)` bytes of the raw image. Changes no state. -/
def execTget (imm : Half) (s : State) : Result :=
  respondWith s (BitVec.ofNat 32 (clampLength imm.toNat))
    (responseFlags false (lenMismatch imm.toNat))
    (memReadBytes s.table 0 (clampLength imm.toNat))

/-- TSET (R109): overwrites table bytes `0..n-1` with the payload's, `n = min(imm, TABLE_BYTES)`. -/
def execTset (payload : List Byte) (s : State) : Result :=
  respondWith
    { s with table := memWriteBytes s.table 0 (payload.take (clampLength payload.length)) }
    (BitVec.ofNat 32 (clampLength payload.length))
    (responseFlags false (lenMismatch payload.length)) []

/-- TMRG (R110): ORs the payload's bytes into table bytes `0..n-1`, `n = min(imm, TABLE_BYTES)`. -/
def execTmrg (payload : List Byte) (s : State) : Result :=
  respondWith
    { s with table := memOrBytes s.table 0 (payload.take (clampLength payload.length)) }
    (BitVec.ofNat 32 (clampLength payload.length))
    (responseFlags false (lenMismatch payload.length)) []

end Sys2Proof.Machine
end

