-- ==== Sys2Proof/Machine/PackUnit.lean ====
section
/-!
DEFINITION. The pack unit commands WRST, WOBS, PBEGIN, PPUT, PGET, UBEGIN, UGET
(`43_pack_unpack.md`).
-/

namespace Sys2Proof.Machine

/-- WRST (R121): the running maximum to 0. -/
def execWrst (s : State) : Result := respond { s with maxc := 0#16 } 0#32

/-- `max(MAXC, c)` (R122). -/
def maxCode (maxc c : Half) : Half := if maxc.toNat ≤ c.toNat then c else maxc

/-- WOBS (R122): observes one code; answers the new maximum. -/
def execWobs (imm : Half) (s : State) : Result :=
  respond { s with maxc := maxCode s.maxc imm } ((maxCode s.maxc imm).setWidth 32)

/-- The width PBEGIN selects: its operand, or the automatic width for 0 (R123). -/
def beginWidth (imm maxc : Half) : Nat :=
  if imm = 0#16 then codeWidth maxc.toNat else imm.toNat

/-- PBEGIN (R123): an empty packed buffer whose header byte is the width. -/
def execPbegin (imm : Half) (s : State) : Result :=
  if Config.cw < imm.toNat then raise .operand s
  else
    let w := beginWidth imm s.maxc
    respond
      { s with
        pw := BitVec.ofNat 5 w
        pbuf := memWrite [] 0 (BitVec.ofNat 8 w)
        plen := 1
        pcur := 0#14
        pmode := .pack }
      (BitVec.ofNat 32 w)

/-- PPUT (R124): appends one code of `PW` bits at payload bit `PCUR`. -/
def execPput (imm : Half) (s : State) : Result :=
  if s.pmode ≠ .pack then raise .seq s
  else if 2 ^ s.pw.toNat ≤ imm.toNat then raise .range s
  else if Config.pbufBytes < packedLength (s.pcur.toNat + s.pw.toNat) then raise .overflow s
  else
    let cursor := s.pcur.toNat + s.pw.toNat
    respond
      { s with
        pbuf := putCodeBits s.pbuf s.pcur.toNat imm s.pw.toNat
        pcur := BitVec.ofNat 14 cursor
        plen := Fin.ofNat 1025 (packedLength cursor) }
      (BitVec.ofNat 32 (packedLength cursor))

/-- PGET (R125): the packed buffer `PBUF[0..PLEN-1]`. Changes no state. -/
def execPget (s : State) : Result :=
  if s.pmode = .idle then raise .seq s
  else respondWith s (BitVec.ofNat 32 s.plen.val) 0#8 (memReadBytes s.pbuf 0 s.plen.val)

/-- UBEGIN (R126): loads a packed buffer; a buffer too long, without a header byte, or with a header
width of 0 or above `CW` is refused, in that order. -/
def execUbegin (payload : List Byte) (s : State) : Result :=
  if Config.pbufBytes < payload.length then raise .overflow s
  else
    match payload with
    | [] => raise .decodeHdr s
    | header :: codes =>
      if header.toNat = 0 ∨ Config.cw < header.toNat then raise .decodeHdr s
      else
        respond
          { s with
            pbuf := memWriteBytes [] 0 (header :: codes)
            plen := Fin.ofNat 1025 (codes.length + 1)
            pw := header.setWidth 5
            pcur := 0#14
            pmode := .unpack }
          (BitVec.ofNat 32 (8 * codes.length / header.toNat))

/-- UGET (R127): the next code of `PW` bits from payload bit `PCUR`; E_EOS when fewer bits remain. -/
def execUget (s : State) : Result :=
  if s.pmode ≠ .unpack then raise .seq s
  else if 8 * (s.plen.val - 1) < s.pcur.toNat + s.pw.toNat then raise .eos s
  else
    respond { s with pcur := BitVec.ofNat 14 (s.pcur.toNat + s.pw.toNat) }
      (getCodeBits s.pbuf s.pcur.toNat s.pw.toNat)

end Sys2Proof.Machine
end

