-- ==== Sys2Proof/Machine/System.lean ====
section
/-!
DEFINITION. The system commands RDREG, CLRERR, SRST (`44_system_commands.md`).
-/

namespace Sys2Proof.Machine

/-- RDREG (R140): reads register `imm` of R39; E_OPERAND for an undefined number. Changes no state. -/
def execRdreg (imm : Half) (s : State) : Result :=
  match regOfNumber imm.toNat with
  | none => raise .operand s
  | some r => respond s (readReg s r)

/-- CLRERR (R141): answers the old `ERR` and clears it. -/
def execClrerr (s : State) : Result :=
  respond { s with err := 0#8 } (s.err.setWidth 32)

/-- SRST (R142): every state element of R20 to its reset value of R47. The frames the host has
presented and the responses it has been given are not among them (assumption log 6). -/
def execSrst (s : State) : Result :=
  respond { State.reset with pending := s.pending, outbox := s.outbox } 0#32

end Sys2Proof.Machine
end

