-- ==== Sys2Proof/Machine/Dispatch.lean ====
section
/-!
DEFINITION. The dispatch of a command to its meaning, one arm per row of the opcode table
(`30_encoding.md` R75).
-/

namespace Sys2Proof.Machine

def exec (i : Instr) (s : State) : Host.Outcome State Fault Refusal :=
  match i with
  | .rdreg imm => Sys2Proof.Machine.execRdreg imm s
  | .clrerr => Sys2Proof.Machine.execClrerr s
  | .srst => Sys2Proof.Machine.execSrst s
  | .hinit imm => Sys2Proof.Machine.execHinit imm s
  | .habs imm => Sys2Proof.Machine.execHabs imm s
  | .hfin => Sys2Proof.Machine.execHfin s
  | .hrdd imm => Sys2Proof.Machine.execHrdd imm s
  | .habsn payload => Sys2Proof.Machine.execHabsn payload s
  | .fold => Sys2Proof.Machine.execFold s
  | .tadd => Sys2Proof.Machine.execTadd s
  | .tchk => Sys2Proof.Machine.execTchk s
  | .tclr => Sys2Proof.Machine.execTclr s
  | .tget imm => Sys2Proof.Machine.execTget imm s
  | .tset payload => Sys2Proof.Machine.execTset payload s
  | .tmrg payload => Sys2Proof.Machine.execTmrg payload s
  | .wrst => Sys2Proof.Machine.execWrst s
  | .wobs imm => Sys2Proof.Machine.execWobs imm s
  | .pbegin imm => Sys2Proof.Machine.execPbegin imm s
  | .pput imm => Sys2Proof.Machine.execPput imm s
  | .pget => Sys2Proof.Machine.execPget s
  | .ubegin payload => Sys2Proof.Machine.execUbegin payload s
  | .uget => Sys2Proof.Machine.execUget s

end Sys2Proof.Machine
end

