-- ==== Sys2Proof/Machine/Step.lean ====
section
/-!
DEFINITION. One step: the HFBE takes the oldest frame the host has presented, executes it to
completion and returns one response (`00_scope.md` R3, `20_memory.md` R56). A frame that decodes to
no command is answered with E_ILLEGAL (`30_encoding.md` R77).
-/

namespace Sys2Proof.Machine

/-- One step (R3, R14). -/
def step (s : State) : Host.Outcome State Fault Refusal :=
  match fetchFrame s with
  | none => idleStep s
  | some (f, s') =>
    match decodeFrame f with
    | .ok i => exec i s'
    | .error why => rejectFrame why s'

/-- The state `s` in which the next step takes the frame of the opcode table's bits `w` (assumption
log 3): that frame stands first among the frames presented. -/
def State.withFetchWord (s : State) (nbits w : Nat) : State :=
  presentFirst s (frameOfTableWord nbits w)

end Sys2Proof.Machine
end

