-- ==== Sys2Proof/Machine/Programs.lean ====
section
/-!
DEFINITION. The host's side of the interface: one frame in, one response out (`00_scope.md` R3), runs
of frames (R14), and the pseudo-instructions, "each the exact command sequence it stands for"
(`30_encoding.md` R83, `42_fold_index_table.md` R111). What R83 leaves open for bytes that do not fit one
frame is assumption log 14.
-/

namespace Sys2Proof.Machine

/-- The host presents a frame after those it has presented already (R3, R14). -/
def presentFrame (s : State) (f : Frame) : State := { s with pending := s.pending ++ [f] }

/-- One interaction of a host that has no other frame outstanding: it presents the frame, the HFBE
executes it, the host takes the response (R3: `State x CommandFrame -> State x ResponseFrame`). -/
def transact (s : State) (f : Frame) : Option (State × Response) :=
  match step (presentFrame s f) with
  | .next t => t.outbox.getLast?.map (fun r => (t, r))
  | .fault _ => none
  | .refused _ => none

/-- The commands one after another, each after the response to the one before (R14), with the
responses in order. -/
def transactAll : List Instr → State → Option (State × List Response)
  | [], s => some (s, [])
  | i :: is, s =>
    match transact s (encode i) with
    | none => none
    | some (t, r) =>
      match transactAll is t with
      | none => none
      | some (u, rs) => some (u, r :: rs)

/-- Every response has `err = 0`. -/
def allOk (rs : List Response) : Bool := rs.all (fun r => r.err == 0#8)

/-! ## The pseudo-instructions (R83) -/

/-- HABSN commands that absorb `bytes`: one, or for more than 65535 bytes "several HABSN in a row" (R83,
which R111 uses). Where the bytes are cut R83 leaves open. The model's choice (DESIGN CHOICE, assumption
log 14): full pieces of 65535 bytes and then one piece of the rest, an empty one only for no bytes. Any
other cut leaves the same hash (R94) but may have another number of commands and responses. The first
argument bounds the number of commands. -/
def absorbCommands : Nat → List Byte → List Instr
  | 0, _ => []
  | n + 1, bytes =>
    if bytes.length < 65536 then [.habsn bytes]
    else .habsn (bytes.take 65535) :: absorbCommands n (bytes.drop 65535)

/-- `HASH bc, bytes`: the document's `hash(buffer, bucket_count)`. R83 speaks of several HABSN for a long
name; a long buffer is cut in the same way (DESIGN CHOICE, assumption log 14). -/
def hashProgram (bc : Half) (bytes : List Byte) : List Instr :=
  .hinit bc :: (absorbCommands (bytes.length + 1) bytes ++ [.hfin])

/-- `COORD name`: steps 1 to 4 of `add`. -/
def coordProgram (name : List Byte) : List Instr := hashProgram 4#16 name ++ [.fold]

/-- `ADD name`: the document's `add(name)` (R111). -/
def addProgram (name : List Byte) : List Instr := coordProgram name ++ [.tadd]

/-- `CHECK name`: the document's `check(name)` (R111). -/
def checkProgram (name : List Byte) : List Instr := coordProgram name ++ [.tchk]

/-- The multi-name variant of `add`: one `ADD name` per name, in order (R115). -/
def addAllProgram (names : List (List Byte)) : List Instr := names.flatMap addProgram

/-- `RESET`: the document's `reset()`. -/
def resetProgram : List Instr := [.tclr]

/-- `GETRAW len`: the document's `getRaw(dst, len)`. -/
def getRawProgram (len : Half) : List Instr := [.tget len]

/-- `SETRAW bytes`: the document's `setRaw(src, len)`. -/
def setRawProgram (bytes : List Byte) : List Instr := [.tset bytes]

/-- `MERGE bytes`: the document's `merge(other_bytes)`. -/
def mergeProgram (bytes : List Byte) : List Instr := [.tmrg bytes]

/-- `PACK [c0 c1 ..]`: width selection and packing, steps 2 and 3 of `compress`. -/
def packProgram (codes : List Half) : List Instr :=
  .wrst :: (codes.map .wobs ++ (.pbegin 0#16 :: (codes.map .pput ++ [.pget])))

/-- `UNPACK bytes, n`: steps 1 and 2 of `decompress`. -/
def unpackProgram (bytes : List Byte) (n : Nat) : List Instr :=
  .ubegin bytes :: List.replicate n .uget

/-- The digest a host reads: `HRDD 0 .. HRDD 4*bc-1` after `HASH bc, bytes` (R97). -/
def digestProgram (bc : Half) (bytes : List Byte) : List Instr :=
  hashProgram bc bytes ++ (List.range (4 * bc.toNat)).map (fun j => .hrdd (BitVec.ofNat 16 j))

end Sys2Proof.Machine
end

