-- ==== Sys2Proof/Machine/Coder.lean ====
section
/-!
DEFINITION. The host's dictionary coder over the pack unit (`45_host_dictionary_coder.md`). It is
"not part of the hardware block" and is built, as that file asks, "as a *host function* over the
command interface": every use of the hardware here is `transact`, one frame and one response
(assumption log 12).
-/

namespace Sys2Proof.Machine

/-! ## The dictionary (R150)

Codes 0 to 255 are the one-byte strings. The entries added since are a list, entry `j` having code
`256 + j`, so that the next available code is `256` plus the list's length. -/

/-- The code of the string `w`, none if it is not in the dictionary. -/
def dictCode (added : List (List Byte)) (w : List Byte) : Option Nat :=
  match w with
  | [b] => some b.toNat
  | w => (added.findIdx? (fun e => e == w)).map (fun j => 256 + j)

/-- The string of the code `k`, none if it is not assigned. -/
def dictEntry (added : List (List Byte)) (k : Nat) : Option (List Byte) :=
  if k < 256 then some [BitVec.ofNat 8 k] else added[k - 256]?

/-! ## compress -/

/-- The code emitted for the matched string `w`, nothing for the empty string (R152). -/
def emitCode (added : List (List Byte)) (w : List Byte) : List Nat :=
  if w = [] then [] else (dictCode added w).toList

/-- The scan of R152, from the dictionary's entries and the matched prefix `w`. -/
def encodeFrom (added : List (List Byte)) (w : List Byte) : List Byte → List Nat
  | [] => emitCode added w
  | c :: rest =>
    if (dictCode added (w ++ [c])).isSome then encodeFrom added (w ++ [c]) rest
    else emitCode added w ++ encodeFrom (added ++ [w ++ [c]]) [c] rest

/-- Dictionary coding (R152). -/
def dictionaryCodes (x : List Byte) : List Nat := encodeFrom [] [] x

/-- `compress` on the HFBE (R153): WRST, the WOBS pass, PBEGIN 0, the PPUT pass, PGET. None when a
code does not fit the PU's 16 bits (R208) or a response reports an error (E_OVERFLOW, R208). -/
def compress (s : State) (x : List Byte) : Option (State × List Byte) :=
  let codes := dictionaryCodes x
  if codes.any (fun c => decide (65535 < c)) then none
  else
    match transactAll (packProgram (codes.map (BitVec.ofNat 16))) s with
    | none => none
    | some (t, rs) => if allOk rs then rs.getLast?.map (fun r => (t, r.rpayload)) else none

/-! ## decompress -/

/-- The DecodeError cases of R157. -/
inductive DecodeFailure where
  /-- (a), (b): no header byte, or a header width of 0 or above `CW`; UBEGIN answers E_DECODE_HDR. -/
  | header
  /-- (c): longer than `PBUF_BYTES`; UBEGIN answers E_OVERFLOW. -/
  | tooLong
  /-- (d): the stream ends where a code is needed; UGET answers E_EOS. -/
  | tooShort
  /-- (e): the first code is 256 or more. -/
  | firstCode
  /-- (f): a code greater than the next code to be assigned. -/
  | unresolvable
  /-- (g): an entry overshoots the expected length. -/
  | overshoot
  deriving DecidableEq, Repr

/-- The entry a code `k` stands for when `w` is the previous entry: an existing one, or
`w + first_byte(w)` for the next code to be assigned (R156). -/
def decodeEntry (added : List (List Byte)) (w : List Byte) (k : Nat) : Option (List Byte) :=
  if k = 256 + added.length then some (w ++ w.take 1) else dictEntry added k

/-- The loop of R156 over a source of codes, which may report the end of the stream. The first number
bounds the passes: each pass adds at least one byte to the output, so `expected` passes suffice. -/
def decodeLoop {σ : Type} (nextCode : σ → Option Nat × σ) (expected : Nat) :
    Nat → List (List Byte) → List Byte → List Byte → σ → Except DecodeFailure (List Byte) × σ
  | 0, _, _, _, src => (.error .tooShort, src)
  | passes + 1, added, w, out, src =>
    if expected ≤ out.length then
      (if out.length = expected then .ok out else .error .overshoot, src)
    else
      match nextCode src with
      | (none, src') => (.error .tooShort, src')
      | (some k, src') =>
        match decodeEntry added w k with
        | none => (.error .unresolvable, src')
        | some entry =>
          decodeLoop nextCode expected passes (added ++ [w ++ entry.take 1]) entry (out ++ entry) src'

/-- Dictionary decoding with the stop rule (R156). -/
def decodeFrom {σ : Type} (nextCode : σ → Option Nat × σ) (expected : Nat) (src : σ) :
    Except DecodeFailure (List Byte) × σ :=
  if expected = 0 then (.ok [], src)
  else
    match nextCode src with
    | (none, src') => (.error .tooShort, src')
    | (some k, src') =>
      if 256 ≤ k then (.error .firstCode, src')
      else decodeLoop nextCode expected expected [] [BitVec.ofNat 8 k] [BitVec.ofNat 8 k] src'

/-- The next code of a list of codes. -/
def nextListed : List Nat → Option Nat × List Nat
  | [] => (none, [])
  | k :: ks => (some k, ks)

/-- Dictionary decoding of a list of codes (R156). -/
def decodeCodes (codes : List Nat) (expected : Nat) : Except DecodeFailure (List Byte) :=
  (decodeFrom nextListed expected codes).1

/-- The next code by one UGET; an error response (E_EOS) is the end of the stream (R155). -/
def nextByUget (s : State) : Option Nat × State :=
  match transact s (encode .uget) with
  | none => (none, s)
  | some (t, r) => if r.err = 0#8 then (some r.data.toNat, t) else (none, t)

/-- `decompress(packed, expected_len)` on the HFBE (R154, R155): UBEGIN, then R156 with one UGET per
code it needs. A packed buffer of more than 65535 bytes has no frame and is too long as well. -/
def decompress (s : State) (packed : List Byte) (expected : Nat) :
    Except DecodeFailure (List Byte) × State :=
  if 65535 < packed.length then (.error .tooLong, s)
  else
    match transact s (encode (.ubegin packed)) with
    | none => (.error .header, s)
    | some (t, r) =>
      if r.err = 0#8 then decodeFrom nextByUget expected t
      else if r.err = BitVec.ofNat 8 (errorCodeNumber .overflow) then (.error .tooLong, t)
      else (.error .header, t)

/-! ## Export, import and merge of a table (R160)

The text encoding around the packed bytes is external (R5 b). -/

/-- Export: `TGET 512`, then `compress` of the image. -/
def exportTable (s : State) : Option (State × List Byte) :=
  match transact s (encode (.tget 512#16)) with
  | none => none
  | some (t, r) => compress t r.rpayload

/-- Import: `decompress(packed, 512)`, then `TSET 512, image`. A DecodeError stops before any TSET. -/
def importTable (s : State) (packed : List Byte) : Except DecodeFailure Unit × State :=
  match decompress s packed Config.tableBytes with
  | (.error e, t) => (.error e, t)
  | (.ok image, t) =>
    match transact t (encode (.tset image)) with
    | none => (.ok (), t)
    | some (u, _) => (.ok (), u)

/-- Merge: `decompress(packed, 512)`, then `TMRG 512, image`. -/
def mergeTable (s : State) (packed : List Byte) : Except DecodeFailure Unit × State :=
  match decompress s packed Config.tableBytes with
  | (.error e, t) => (.error e, t)
  | (.ok image, t) =>
    match transact t (encode (.tmrg image)) with
    | none => (.ok (), t)
    | some (u, _) => (.ok (), u)

end Sys2Proof.Machine
end

