-- ==== Sys2Proof/Safety.lean ====
section
/-!
DEFINITION. What counts as a legal state and a safe run, in the terms the statements use: the
invariants of `10_state.md` R46, runs of commands (`00_scope.md` R14), and what a response and a
sticky mask say about errors (`60_exceptions.md` R170, R183).
-/

namespace Sys2Proof.Machine

/-- The invariants "that hold after reset and after every command" (R46), with the parts of R22, R24,
R26, R28, R34 and R36 that go with them. `BC <= NACC`, `HSTATE != 3`, `PMODE != 3` and
`PLEN <= PBUF_BYTES` hold by the types of State. -/
structure Inv (s : State) : Prop where
  /-- `LANE < max(BC,1)`. -/
  lane_lt : s.lane.val < max s.bc.val 1
  /-- `BC = 0` only between reset and the first successful HINIT (R22, R24). -/
  bc_zero_iff : s.bc.val = 0 ↔ s.hstate = .idle
  /-- `ACC[i] = 0` for `BC <= i < NACC`. -/
  acc_zero : ∀ i : Fin 4, s.bc.val ≤ i.val → accGet s.acc i = 0#32
  /-- `N0`, `N1`, `N2` are the nibble fold of `{H1, H0}` (R26, R104). -/
  nibbles : s.n0 = nibbleSum (foldedValue s.h0 s.h1) 0 ∧
    s.n1 = nibbleSum (foldedValue s.h0 s.h1) 1 ∧ s.n2 = nibbleSum (foldedValue s.h0 s.h1) 2
  /-- `WIDX = N0*15 + N1`. -/
  widx_eq : s.widx.toNat = s.n0.toNat * 15 + s.n1.toNat
  /-- `WIDX <= 240`. -/
  widx_le : s.widx.toNat ≤ 240
  /-- `BMASK = 2^N2` if a FOLD has succeeded since reset, else `BMASK = 0` and `IVALID = 0`. -/
  bmask_eq : s.bmask.toNat = 2 ^ s.n2.toNat ∨ (s.bmask = 0#16 ∧ s.ivalid = false)
  /-- `IVALID = 1` implies `HSTATE = H_FINAL` and `BC = 4`. -/
  ivalid_final : s.ivalid = true → s.hstate = .final ∧ s.bc.val = 4
  /-- `IVALID = 1`: the coordinate was computed from the digest of the most recent hash (R28). -/
  ivalid_fold : s.ivalid = true → s.h0 = s.acc.a0 ^^^ s.acc.a3 ∧ s.h1 = s.acc.a1 ^^^ s.acc.a2
  /-- `PW <= CW`. -/
  pw_le : s.pw.toNat ≤ 16
  /-- `PW = 0` iff `PMODE = P_IDLE`. -/
  pw_zero_iff : s.pw.toNat = 0 ↔ s.pmode = .idle
  /-- In `P_IDLE` mode nothing has been packed or loaded since reset (R47). -/
  idle_empty : s.pmode = .idle → s.plen.val = 0 ∧ s.pcur.toNat = 0
  /-- `PBUF[0] = PW` in `P_PACK` and `P_UNPACK` mode. -/
  header : s.pmode ≠ .idle → (memRead s.pbuf 0).toNat = s.pw.toNat
  /-- `PLEN = 1 + ceil_div(PCUR, 8)` in `P_PACK` mode. -/
  pack_len : s.pmode = .pack → s.plen.val = 1 + (s.pcur.toNat + 7) / 8
  /-- Payload bits at or beyond `PCUR` are 0 in `P_PACK` mode (R124). -/
  pack_zero : s.pmode = .pack → ∀ p, s.pcur.toNat ≤ p → payloadBit s.pbuf p = false
  /-- `1 <= PLEN` and `PCUR <= 8*(PLEN-1)` in `P_UNPACK` mode. -/
  unpack_len : s.pmode = .unpack → 1 ≤ s.plen.val ∧ s.pcur.toNat ≤ 8 * (s.plen.val - 1)
  /-- `PCUR mod PW = 0`. -/
  cursor_multiple : s.pw.toNat ∣ s.pcur.toNat
  /-- `PBUF[j] = 0` for `j >= PLEN` in every mode. -/
  pbuf_zero : ∀ j, s.plen.val ≤ j → memRead s.pbuf j = 0#8
  /-- `ERR[0] = 0`. -/
  err_bit0 : s.err.getLsbD 0 = false
  /-- The table's canonical form. -/
  table_wf : memWf 512 s.table = true
  /-- The pack buffer's canonical form. -/
  pbuf_wf : memWf 1024 s.pbuf = true

/-- The state after the commands, each executed to completion before the next (R14, R62); none if one
of them answers no next state. -/
def runCommands : List Instr → State → Option State
  | [], s => some s
  | i :: is, s =>
    match exec i s with
    | .next t => runCommands is t
    | .fault _ => none
    | .refused _ => none

/-- `t` is reached from `s` by commands that each answered `err = 0`, with these responses. -/
def SafeRun (is : List Instr) (s t : State) (rs : List Response) : Prop :=
  runCommands is s = some t ∧ t.outbox = s.outbox ++ rs ∧ rs.length = is.length ∧
    ∀ r ∈ rs, r.err = 0#8

/-- A command that can clear a table bit (R107, R109, R142). -/
def clearsTable : Instr → Bool
  | .tclr | .tset _ | .srst => true
  | .rdreg _ | .clrerr | .hinit _ | .habs _ | .hfin | .hrdd _ | .habsn _ | .fold | .tadd | .tchk
  | .tget _ | .tmrg _ | .wrst | .wobs _ | .pbegin _ | .pput _ | .pget | .ubegin _ | .uget => false

end Sys2Proof.Machine
end

