-- ==== Sys2Proof/Certificates/Slice0/Obligations.lean ====
section
/-!
DEFINITION. The statements for the provers. Each docstring names the rule of `spec/` it formalises. A
response is written out, `⟨err, flags, data, rpayload⟩`, and a next state field by field, so that a
statement says what the rule says and not only that the model agrees with itself. That a response is
added behind those in `outbox`, which stay, SRST's own included, is how the model holds responses
(assumption logs 1 and 6), in every statement.
-/

open Sys2Proof Sys2Proof.Machine

/-! ## The vocabulary of the statements -/

namespace Sys2Proof.Statements

/-- The opcodes of R75. -/
def opcodes : List Nat :=
  [0x01, 0x02, 0x03, 0x10, 0x11, 0x12, 0x13, 0x14, 0x20, 0x21, 0x22, 0x23, 0x24, 0x25, 0x26,
   0x30, 0x31, 0x32, 0x33, 0x34, 0x35, 0x36]

/-- The opcodes whose `imm` must be 0 (R75). -/
def opcodesWithoutOperand : List Nat :=
  [0x02, 0x03, 0x12, 0x20, 0x21, 0x22, 0x23, 0x30, 0x34, 0x36]

/-- The opcodes with a payload of `imm` bytes (R72). -/
def opcodesWithPayload : List Nat := [0x14, 0x25, 0x26, 0x35]

/-- A frame that fails none of the four checks of R77, on the numbers of its fields. -/
def LegalFrame (f : Frame) : Prop :=
  f.cw.toNat / 2 ^ 24 ∈ opcodes ∧ f.cw.toNat / 2 ^ 16 % 256 = 0 ∧
  (f.cw.toNat / 2 ^ 24 ∈ opcodesWithoutOperand → f.cw.toNat % 2 ^ 16 = 0) ∧
  f.payload.length = if f.cw.toNat / 2 ^ 24 ∈ opcodesWithPayload then f.cw.toNat % 2 ^ 16 else 0

/-- The command word `(op << 24) | imm` with this payload is a frame of the command `i`: the Encoding
line of a command's rule. -/
def IsFrameOf (op : Nat) (imm : Half) (payload : List Byte) (i : Instr) : Prop :=
  decodeFrame ⟨BitVec.ofNat 32 (op * 2 ^ 24 + imm.toNat), payload⟩ = .ok i

/-- The table of R47: the value of every state element after reset. -/
def HasResetValues (s : State) : Prop :=
  (∀ i : Fin 4, accGet s.acc i = 0#32) ∧ s.bc = 0 ∧ s.lane = 0 ∧ s.hstate = .idle ∧
  s.h0 = 0#32 ∧ s.h1 = 0#32 ∧ s.n0 = 0#4 ∧ s.n1 = 0#4 ∧ s.n2 = 0#4 ∧
  s.widx = 0#8 ∧ s.bmask = 0#16 ∧ s.ivalid = false ∧ s.hit = false ∧
  (∀ w, tableWord s.table w = 0#16) ∧
  s.maxc = 0#16 ∧ s.pw = 0#5 ∧ s.pmode = .idle ∧ (∀ j, memRead s.pbuf j = 0#8) ∧
  s.plen = 0 ∧ s.pcur = 0#14 ∧ s.err = 0#8

/-- `s` after an error of code `c` (R183). -/
def afterError (s : State) (c : Nat) : State :=
  { s with
    err := s.err ||| BitVec.ofNat 8 (2 ^ c)
    outbox := s.outbox ++ [⟨BitVec.ofNat 8 c, 0#8, 0#32, []⟩] }

/-- The registers of R39: number and 32-bit value. -/
def registerTable (s : State) : List (Nat × Word) :=
  let hstate := match s.hstate with | .idle => 0 | .absorb => 1 | .final => 2
  let pmode := match s.pmode with | .idle => 0 | .pack => 1 | .unpack => 2
  [(0x00, 0x48464201#32),
   (0x01, 0x0410040C#32),
   (0x02, BitVec.ofNat 32
     (hstate + 4 * s.ivalid.toNat + 8 * s.hit.toNat + 16 * pmode)),
   (0x03, BitVec.ofNat 32 s.err.toNat),
   (0x04, BitVec.ofNat 32 (s.bc.val + 16 * s.lane.val)),
   (0x08, s.acc.a0), (0x09, s.acc.a1), (0x0A, s.acc.a2), (0x0B, s.acc.a3),
   (0x10, s.h0), (0x11, s.h1),
   (0x12, BitVec.ofNat 32 (s.n0.toNat + 16 * s.n1.toNat + 256 * s.n2.toNat)),
   (0x13, BitVec.ofNat 32 (s.widx.toNat + 65536 * s.bmask.toNat)),
   (0x18, BitVec.ofNat 32 s.pw.toNat),
   (0x19, BitVec.ofNat 32 s.pcur.toNat),
   (0x1A, BitVec.ofNat 32 s.plen.val),
   (0x1B, BitVec.ofNat 32 s.maxc.toNat),
   (0x1C, BitVec.ofNat 32 (max 1 (Nat.size s.maxc.toNat))),
   (0x1D, BitVec.ofNat 32
     (if s.pmode = .unpack then (8 * (s.plen.val - 1) - s.pcur.toNat) / s.pw.toNat else 0))]

/-- `buf[a], buf[a+bc], buf[a+2bc], ...`: the bytes at positions `i` with `i mod bc = a` (R97). -/
def bucketBytes (bc a : Nat) (buf : List Byte) : List Byte :=
  ((List.range buf.length).filter (fun i => i % bc == a)).map (fun i => buf.getD i 0#8)

/-- Nibble `j` of a 32-bit half, 0 the least significant (R102). -/
def halfNibble (h : Word) (j : Nat) : BitVec 4 := BitVec.ofNat 4 (h.toNat / 16 ^ j)

/-- `n0` in terms of the nibbles of the halves (R102). -/
def nibbleSum0 (h0 h1 : Word) : BitVec 4 :=
  halfNibble h0 0 ^^^ halfNibble h0 3 ^^^ halfNibble h0 6 ^^^ halfNibble h1 1 ^^^ halfNibble h1 4 ^^^
    halfNibble h1 7

/-- `n1` in terms of the nibbles of the halves (R102). -/
def nibbleSum1 (h0 h1 : Word) : BitVec 4 :=
  halfNibble h0 1 ^^^ halfNibble h0 4 ^^^ halfNibble h0 7 ^^^ halfNibble h1 2 ^^^ halfNibble h1 5

/-- `n2` in terms of the nibbles of the halves (R102). -/
def nibbleSum2 (h0 h1 : Word) : BitVec 4 :=
  halfNibble h0 2 ^^^ halfNibble h0 5 ^^^ halfNibble h1 0 ^^^ halfNibble h1 3 ^^^ halfNibble h1 6

/-- Bit `p` of the payload of a packed byte sequence (R60, R80). -/
def packedBit (packed : List Byte) (p : Nat) : Bool :=
  (packed.getD (1 + p / 8) 0#8).getLsbD (p % 8)

/-- `packed` is the packed form of `codes` at width `w` (R80, R128): its length, its header byte and
every payload bit. -/
def IsPackedForm (w : Nat) (codes : List Half) (packed : List Byte) : Prop :=
  packed.length = 1 + (w * codes.length + 7) / 8 ∧
  packed[0]? = some (BitVec.ofNat 8 w) ∧
  ∀ p, p < 8 * (packed.length - 1) →
    packedBit packed p =
      if p < w * codes.length then (codes.getD (p / w) 0#16).getLsbD (p % w) else false

/-- The largest code, 0 for the empty sequence. -/
def largestCode (codes : List Half) : Nat := codes.foldl (fun m c => max m c.toNat) 0

/-- The payload of the last response of a run. -/
def lastPayload (rs : List Response) : Option (List Byte) := rs.getLast?.map (fun r => r.rpayload)

end Sys2Proof.Statements

open Sys2Proof.Statements

/-! ## Encoding -/

/-- R70, R72, R75: every command that has a frame is read back from it whole. -/
def Obligations.DecodeOfEncodeIsTheCommand : Prop :=
  ∀ i : Instr, i.wellFormed = true → decodeFrame (encode i) = .ok i

/-- R70, R75: a legal frame has one meaning and no bit of it is dropped. -/
def Obligations.EncodeOfDecodeIsTheFrame : Prop :=
  ∀ (f : Frame) (i : Instr), decodeFrame f = .ok i → i.wellFormed = true ∧ encode i = f

/-- R75, R72: each of the 22 rows, its opcode over its operand, with the payload R72 gives it. -/
def Obligations.EveryOpcodeRowDecodesToItsCommand : Prop :=
  ∀ (imm : Half) (p : List Byte), p.length = imm.toNat →
    decodeFrame ⟨0x01000000#32 ||| imm.setWidth 32, []⟩ = .ok (.rdreg imm) ∧
    decodeFrame ⟨0x02000000#32, []⟩ = .ok .clrerr ∧
    decodeFrame ⟨0x03000000#32, []⟩ = .ok .srst ∧
    decodeFrame ⟨0x10000000#32 ||| imm.setWidth 32, []⟩ = .ok (.hinit imm) ∧
    decodeFrame ⟨0x11000000#32 ||| imm.setWidth 32, []⟩ = .ok (.habs imm) ∧
    decodeFrame ⟨0x12000000#32, []⟩ = .ok .hfin ∧
    decodeFrame ⟨0x13000000#32 ||| imm.setWidth 32, []⟩ = .ok (.hrdd imm) ∧
    decodeFrame ⟨0x14000000#32 ||| imm.setWidth 32, p⟩ = .ok (.habsn p) ∧
    decodeFrame ⟨0x20000000#32, []⟩ = .ok .fold ∧
    decodeFrame ⟨0x21000000#32, []⟩ = .ok .tadd ∧
    decodeFrame ⟨0x22000000#32, []⟩ = .ok .tchk ∧
    decodeFrame ⟨0x23000000#32, []⟩ = .ok .tclr ∧
    decodeFrame ⟨0x24000000#32 ||| imm.setWidth 32, []⟩ = .ok (.tget imm) ∧
    decodeFrame ⟨0x25000000#32 ||| imm.setWidth 32, p⟩ = .ok (.tset p) ∧
    decodeFrame ⟨0x26000000#32 ||| imm.setWidth 32, p⟩ = .ok (.tmrg p) ∧
    decodeFrame ⟨0x30000000#32, []⟩ = .ok .wrst ∧
    decodeFrame ⟨0x31000000#32 ||| imm.setWidth 32, []⟩ = .ok (.wobs imm) ∧
    decodeFrame ⟨0x32000000#32 ||| imm.setWidth 32, []⟩ = .ok (.pbegin imm) ∧
    decodeFrame ⟨0x33000000#32 ||| imm.setWidth 32, []⟩ = .ok (.pput imm) ∧
    decodeFrame ⟨0x34000000#32, []⟩ = .ok .pget ∧
    decodeFrame ⟨0x35000000#32 ||| imm.setWidth 32, p⟩ = .ok (.ubegin p) ∧
    decodeFrame ⟨0x36000000#32, []⟩ = .ok .uget

/-- R78 and its example, R82: words of V8.1 and their bytes, one family each. -/
def Obligations.SpecifiedWordsDecode : Prop :=
  decodeFrame ⟨0x10000004#32, []⟩ = .ok (.hinit 4#16) ∧
  decodeFrame ⟨0x14000003#32, [0x61#8, 0x62#8, 0x63#8]⟩ = .ok (.habsn [0x61#8, 0x62#8, 0x63#8]) ∧
  decodeFrame ⟨0x24000200#32, []⟩ = .ok (.tget 512#16) ∧
  decodeFrame ⟨0x33000100#32, []⟩ = .ok (.pput 256#16) ∧
  decodeFrame ⟨0x01000013#32, []⟩ = .ok (.rdreg 0x13#16) ∧
  decodeBytes [0x04#8, 0x00#8, 0x00#8, 0x10#8] = .ok (.hinit 4#16, [])

/-- R77: a frame decodes to a command exactly when none of the four checks fails. -/
def Obligations.FramesThatDecodeAreTheLegalOnes : Prop :=
  ∀ f : Frame, (∃ i, decodeFrame f = .ok i) ↔ LegalFrame f

/-- R77, R172: an illegal frame raises E_ILLEGAL (code 1) with no other effect. -/
def Obligations.IllegalFrameRaisesEIllegal : Prop :=
  ∀ (s : State) (f : Frame) (rest : List Frame), s.pending = f :: rest → ¬ LegalFrame f →
    step s = .next (afterError { s with pending := rest } 1)

/-- R78: on a byte transport every word goes least significant byte first, the command word before
the payload, `rw0` before `rw1` before `rpayload`; and the decoder finds the command and the end of
its frame in any such stream. -/
def Obligations.ByteTransportIsLittleEndian : Prop :=
  (∀ f : Frame, ∃ b0 b1 b2 b3 : Byte, f.toBytes = b0 :: b1 :: b2 :: b3 :: f.payload ∧
    f.cw.toNat = b0.toNat + 2 ^ 8 * b1.toNat + 2 ^ 16 * b2.toNat + 2 ^ 24 * b3.toNat) ∧
  (∀ r : Response, ∃ b0 b1 b2 b3 c0 c1 c2 c3 : Byte,
    r.toBytes = b0 :: b1 :: b2 :: b3 :: c0 :: c1 :: c2 :: c3 :: r.rpayload ∧
    r.rw0.toNat = b0.toNat + 2 ^ 8 * b1.toNat + 2 ^ 16 * b2.toNat + 2 ^ 24 * b3.toNat ∧
    r.rw1.toNat = c0.toNat + 2 ^ 8 * c1.toNat + 2 ^ 16 * c2.toNat + 2 ^ 24 * c3.toNat) ∧
  (∀ (i : Instr) (rest : List Byte), i.wellFormed = true →
    decodeBytes ((encode i).toBytes ++ rest) = .ok (i, rest)) ∧
  (encode (.hinit 4#16)).toBytes = [0x04#8, 0x00#8, 0x00#8, 0x10#8]

/-! ## One step -/

/-- R3: a step executes the command that the oldest frame presented decodes to, in the state without
that frame. -/
def Obligations.StepRunsTheDecodedCommand : Prop :=
  ∀ (s : State) (f : Frame) (rest : List Frame) (i : Instr), s.pending = f :: rest →
    decodeFrame f = .ok i → step s = exec i { s with pending := rest }

/-- The model's choice (assumption log 2): with no frame presented a step changes nothing. -/
def Obligations.StepWithoutFrameChangesNothing : Prop :=
  ∀ s : State, s.pending = [] → step s = .next s

/-- R3, R170: any frame in any state is executed to completion in one step and gets one response: no
frame stops the machine. That the later frames stay presented and the earlier responses stay in
`outbox` is not those rules': it is the model's choice, for the two lists themselves assumption log 1
(DESIGN CHOICE), and for SRST, which resets everything else, assumption log 6 (DEDUCED). -/
def Obligations.EveryFrameGetsOneResponse : Prop :=
  ∀ (s : State) (f : Frame) (rest : List Frame), s.pending = f :: rest →
    ∃ t r, step s = .next t ∧ t.pending = rest ∧ t.outbox = s.outbox ++ [r]

/-- R183: on an error with code `c`, of a command or of an illegal frame, `ERR[c] <- 1` and no other
state changes, every other field of the response is 0 or empty; and a successful command other than
CLRERR and SRST leaves ERR alone. -/
def Obligations.ErrorSetsItsStickyBitAndNothingElse : Prop :=
  (∀ (i : Instr) (s t : State), exec i s = .next t →
    ∃ r, t.outbox = s.outbox ++ [r] ∧
      (r.err ≠ 0#8 → 1 ≤ r.err.toNat ∧ r.err.toNat ≤ 7 ∧ t = afterError s r.err.toNat) ∧
      (r.err = 0#8 → i ≠ .clrerr → i ≠ .srst → t.err = s.err)) ∧
  (∀ (s : State) (f : Frame) (rest : List Frame) (e : DecodeError), s.pending = f :: rest →
    decodeFrame f = .error e → step s = .next (afterError { s with pending := rest } 1))

/-- R74: `HIT` only from TCHK and only when the tested bit is set, `LENMIS` only from TGET, TSET, TMRG
whose length is not 512, bits 7:2 zero; a response with a flag set has `err = 0`; and only TGET and
PGET return a payload (R73). -/
def Obligations.ResponseFlagsAndPayloads : Prop :=
  ∀ (i : Instr) (s t : State), exec i s = .next t →
    ∃ r, t.outbox = s.outbox ++ [r] ∧
      (r.flags.getLsbD 0 = true ↔
        i = .tchk ∧ r.err = 0#8 ∧ tableWord s.table s.widx.toNat &&& s.bmask ≠ 0#16) ∧
      (r.flags.getLsbD 1 = true ↔
        (∃ n, i = .tget n ∧ n.toNat ≠ 512) ∨ (∃ p, i = .tset p ∧ p.length ≠ 512) ∨
          (∃ p, i = .tmrg p ∧ p.length ≠ 512)) ∧
      (∀ b, 2 ≤ b → r.flags.getLsbD b = false) ∧
      (r.flags ≠ 0#8 → r.err = 0#8) ∧
      (r.rpayload ≠ [] → (∃ n, i = .tget n) ∨ i = .pget)

/-! ## Reset and invariants -/

/-- R47: every state element has its reset value, after power-on reset and after SRST. -/
def Obligations.ResetValues : Prop :=
  HasResetValues State.reset ∧ ∀ s : State, ∃ t, exec .srst s = .next t ∧ HasResetValues t

/-- R46: the invariants hold after reset. -/
def Obligations.ResetStateIsLegal : Prop := Inv State.reset

/-- R46: every step keeps the invariants, from any state that has them. -/
def Obligations.EveryStepKeepsTheInvariants : Prop :=
  ∀ s t : State, Inv s → step s = .next t → Inv t

/-! ## System commands -/

/-- R39, R140: RDREG answers the register's value, for every register of the table, and changes no
state; any other number is E_OPERAND (code 2). -/
def Obligations.RdregReadsEveryRegister : Prop :=
  ∀ s : State,
    (∀ imm : Half, IsFrameOf 0x01 imm [] (.rdreg imm)) ∧
    (∀ (imm : Half) (v : Word), (imm.toNat, v) ∈ registerTable s →
      exec (.rdreg imm) s = .next { s with outbox := s.outbox ++ [⟨0#8, 0#8, v, []⟩] }) ∧
    (∀ imm : Half, (∀ v, (imm.toNat, v) ∉ registerTable s) →
      exec (.rdreg imm) s = .next (afterError s 2))

/-- R141: CLRERR answers the old mask and clears it, and changes nothing else. -/
def Obligations.ClrerrAnswersAndClearsTheMask : Prop :=
  IsFrameOf 0x02 0#16 [] .clrerr ∧
  ∀ s : State, exec .clrerr s =
    .next { s with
      err := 0#8
      outbox := s.outbox ++ [⟨0#8, 0#8, BitVec.ofNat 32 s.err.toNat, []⟩] }

/-- SRST puts every state element of R20 to its reset value (R142; the values are R47's, those of
ResetValues). That the frames presented (`pending`) and the responses given (`outbox`), which are no
state elements of R20, stay as they are is not R142's: it is the model's choice, assumption log 6
(DEDUCED). -/
def Obligations.SrstRestoresEveryElement : Prop :=
  IsFrameOf 0x03 0#16 [] .srst ∧
  ∀ s : State, exec .srst s =
    .next { State.reset with pending := s.pending, outbox := s.outbox ++ [⟨0#8, 0#8, 0#32, []⟩] }

/-! ## Hash unit -/

/-- R90, R91: the per-byte step and the finalisation, as arithmetic on naturals modulo 2^32. -/
def Obligations.AbsorbAndFinalArithmetic : Prop :=
  (∀ (a : Word) (b : Byte),
    let a1 := (a.toNat + b.toNat) % 2 ^ 32
    let a2 := (a1 + a1 * 2 ^ 10 % 2 ^ 32) % 2 ^ 32
    (absorb a b).toNat = a2 ^^^ a2 / 2 ^ 6) ∧
  (∀ a : Word,
    let f1 := (a.toNat + a.toNat * 2 ^ 3 % 2 ^ 32) % 2 ^ 32
    let f2 := f1 ^^^ f1 / 2 ^ 11
    (finalize a).toNat = (f2 + f2 * 2 ^ 15 % 2 ^ 32) % 2 ^ 32)

/-- R92: HINIT with a bucket count of 1 to 4 starts a hash, in every state; any other is E_OPERAND
(code 2). -/
def Obligations.HinitStartsAHash : Prop :=
  ∀ s : State,
    (∀ imm : Half, IsFrameOf 0x10 imm [] (.hinit imm)) ∧
    (∀ bc : Fin 5, 1 ≤ bc.val → exec (.hinit (BitVec.ofNat 16 bc.val)) s =
      .next { s with
        bc := bc, acc := ⟨0#32, 0#32, 0#32, 0#32⟩, lane := 0, hstate := .absorb, ivalid := false
        outbox := s.outbox ++ [⟨0#8, 0#8, BitVec.ofNat 32 bc.val, []⟩] }) ∧
    (∀ imm : Half, imm.toNat = 0 ∨ 4 < imm.toNat → exec (.hinit imm) s = .next (afterError s 2))

/-- R93: HABS absorbs its byte into accumulator LANE and moves LANE on by one modulo BC, nothing else;
`imm > 255` is E_OPERAND (2), then no open hash is E_SEQ (3). The bucket count of an open hash is at
least 1 (R22, ResetStateIsLegal and EveryStepKeepsTheInvariants). -/
def Obligations.HabsAbsorbsOneByte : Prop :=
  ∀ s : State,
    (∀ imm : Half, IsFrameOf 0x11 imm [] (.habs imm)) ∧
    (∀ b : Byte, s.hstate = .absorb → 1 ≤ s.bc.val →
      ∃ t, exec (.habs (BitVec.ofNat 16 b.toNat)) s = .next t ∧
        accGet t.acc s.lane = absorb (accGet s.acc s.lane) b ∧
        (∀ i : Fin 4, i ≠ s.lane → accGet t.acc i = accGet s.acc i) ∧
        t.lane.val = (s.lane.val + 1) % s.bc.val ∧
        t = { s with
          acc := t.acc, lane := t.lane, outbox := s.outbox ++ [⟨0#8, 0#8, 0#32, []⟩] }) ∧
    (∀ imm : Half, 255 < imm.toNat → exec (.habs imm) s = .next (afterError s 2)) ∧
    (∀ imm : Half, imm.toNat ≤ 255 → s.hstate ≠ .absorb →
      exec (.habs imm) s = .next (afterError s 3))

/-- R94: HABSN has exactly the effect of the HABS of its bytes in order, as one command with one
response; two HABSN in a row equal one of the concatenation; with no open hash it is E_SEQ (3). -/
def Obligations.HabsnIsItsHabsInARow : Prop :=
  ∀ s : State,
    (∀ (imm : Half) (p : List Byte), p.length = imm.toNat → IsFrameOf 0x14 imm p (.habsn p)) ∧
    (s.hstate = .absorb →
      (∀ p : List Byte, ∃ u,
        runCommands (p.map (fun b => .habs (BitVec.ofNat 16 b.toNat))) s = some u ∧
        exec (.habsn p) s =
          .next { u with outbox := s.outbox ++ [⟨0#8, 0#8, 0#32, []⟩] }) ∧
      (∀ p q : List Byte, ∃ t u, exec (.habsn p) s = .next t ∧ exec (.habsn q) t = .next u ∧
        exec (.habsn (p ++ q)) s = .next { u with outbox := t.outbox })) ∧
    (s.hstate ≠ .absorb → ∀ p : List Byte, exec (.habsn p) s = .next (afterError s 3))

/-- R95: HFIN finalises every accumulator of the hash, keeps LANE and BC; with no open hash it is
E_SEQ (3). -/
def Obligations.HfinFinalisesEveryBucket : Prop :=
  ∀ s : State,
    IsFrameOf 0x12 0#16 [] .hfin ∧
    (s.hstate = .absorb →
      ∃ t, exec .hfin s = .next t ∧
        (∀ i : Fin 4, accGet t.acc i =
          if i.val < s.bc.val then finalize (accGet s.acc i) else accGet s.acc i) ∧
        t = { s with
          acc := t.acc, hstate := .final, outbox := s.outbox ++ [⟨0#8, 0#8, 0#32, []⟩] }) ∧
    (s.hstate ≠ .absorb → exec .hfin s = .next (afterError s 3))

/-- R96: HRDD answers digest byte `4a + b`, byte `b` of accumulator `a` counted from the least
significant, and changes no state; not finalised is E_SEQ (3), then `imm >= 4*BC` is E_OPERAND (2). -/
def Obligations.HrddReadsADigestByte : Prop :=
  ∀ s : State,
    (∀ imm : Half, IsFrameOf 0x13 imm [] (.hrdd imm)) ∧
    (s.hstate = .final → ∀ (a : Fin 4) (b : Fin 4), a.val < s.bc.val →
      exec (.hrdd (BitVec.ofNat 16 (4 * a.val + b.val))) s =
        .next { s with
          outbox := s.outbox ++
            [⟨0#8, 0#8, BitVec.ofNat 32 ((accGet s.acc a).toNat / 256 ^ b.val % 256), []⟩] }) ∧
    (s.hstate ≠ .final → ∀ imm : Half, exec (.hrdd imm) s = .next (afterError s 3)) ∧
    (s.hstate = .final → ∀ imm : Half, 4 * s.bc.val ≤ imm.toNat →
      exec (.hrdd imm) s = .next (afterError s 2))

/-- R97: after `HINIT bc; HABSN buf; HFIN`, from any state and for any `buf`, no command has failed,
accumulator `a` is FINAL of ABSORB over exactly the bytes at positions `i mod bc = a`, the rest are 0,
and `HRDD 0 .. HRDD 4*bc-1` answer its bytes; the document's fixture has the value 0x2F63F282. -/
def Obligations.WholeBufferHashContract : Prop :=
  (∀ (s : State) (buf : List Byte) (bc : Fin 5), 1 ≤ bc.val →
    ∃ t rs, SafeRun [.hinit (BitVec.ofNat 16 bc.val), .habsn buf, .hfin] s t rs ∧
      t.hstate = .final ∧ t.bc = bc ∧ t.lane.val = buf.length % bc.val ∧
      (∀ a : Fin 4, accGet t.acc a =
        if a.val < bc.val then finalize ((bucketBytes bc.val a.val buf).foldl absorb 0#32)
        else 0#32) ∧
      (∀ a b : Fin 4, a.val < bc.val → ∃ u,
        exec (.hrdd (BitVec.ofNat 16 (4 * a.val + b.val))) t = .next u ∧
        u.outbox = t.outbox ++
          [⟨0#8, 0#8, BitVec.ofNat 32 ((accGet t.acc a).toNat / 256 ^ b.val % 256), []⟩])) ∧
  finalize ((List.replicate 20 0x41#8).foldl absorb 0#32) = 0x2F63F282#32

/-! ## Index unit -/

/-- R100 to R104: FOLD folds the four finalised accumulators to H0, H1, folds their 16 nibbles to N0,
N1, N2, and derives the coordinate, changing nothing else; not finalised or `BC != 4` is E_SEQ (3). -/
def Obligations.FoldDerivesTheCoordinate : Prop :=
  ∀ s : State,
    IsFrameOf 0x20 0#16 [] .fold ∧
    (s.hstate = .final → s.bc.val = 4 →
      let h0 := s.acc.a0 ^^^ s.acc.a3
      let h1 := s.acc.a1 ^^^ s.acc.a2
      let n0 := nibbleSum0 h0 h1
      let n1 := nibbleSum1 h0 h1
      let n2 := nibbleSum2 h0 h1
      exec .fold s =
        .next { s with
          h0 := h0, h1 := h1, n0 := n0, n1 := n1, n2 := n2
          widx := BitVec.ofNat 8 (n0.toNat * 15 + n1.toNat)
          bmask := BitVec.ofNat 16 (2 ^ n2.toNat)
          ivalid := true
          outbox := s.outbox ++
            [⟨0#8, 0#8, BitVec.ofNat 32 (65536 * 2 ^ n2.toNat + (n0.toNat * 15 + n1.toNat)), []⟩] }) ∧
    (s.hstate ≠ .final ∨ s.bc.val ≠ 4 → exec .fold s = .next (afterError s 3))

/-- R51: a table word is its two raw bytes, the low byte first, and table bit `b` of word `w` is bit
`b mod 8` of raw byte `2w + b div 8`. -/
def Obligations.TableWordsAreLittleEndian : Prop :=
  ∀ (m : Mem) (w : Nat),
    (tableWord m w).toNat = (memRead m (2 * w)).toNat + 256 * (memRead m (2 * w + 1)).toNat ∧
    (∀ b, b < 16 → (tableWord m w).getLsbD b = (memRead m (2 * w + b / 8)).getLsbD (b % 8))

/-- R105: TADD sets the coordinate's bits in word WIDX, no other word and no other byte, and nothing
else; without a valid coordinate it is E_SEQ (3). -/
def Obligations.TaddSetsTheCoordinateBit : Prop :=
  ∀ s : State,
    IsFrameOf 0x21 0#16 [] .tadd ∧
    (s.ivalid = true →
      ∃ t, exec .tadd s = .next t ∧
        tableWord t.table s.widx.toNat = tableWord s.table s.widx.toNat ||| s.bmask ∧
        (∀ a, a ≠ 2 * s.widx.toNat → a ≠ 2 * s.widx.toNat + 1 →
          memRead t.table a = memRead s.table a) ∧
        t = { s with table := t.table, outbox := s.outbox ++ [⟨0#8, 0#8, 0#32, []⟩] }) ∧
    (s.ivalid = false → exec .tadd s = .next (afterError s 3))

/-- R106: TCHK answers in HIT, in the flags and in the data whether the coordinate's bit is set, and
changes nothing but HIT; without a valid coordinate it is E_SEQ (3). -/
def Obligations.TchkTestsTheCoordinateBit : Prop :=
  ∀ s : State,
    IsFrameOf 0x22 0#16 [] .tchk ∧
    (s.ivalid = true → tableWord s.table s.widx.toNat &&& s.bmask ≠ 0#16 →
      exec .tchk s =
        .next { s with hit := true, outbox := s.outbox ++ [⟨0#8, 0x01#8, 1#32, []⟩] }) ∧
    (s.ivalid = true → tableWord s.table s.widx.toNat &&& s.bmask = 0#16 →
      exec .tchk s =
        .next { s with hit := false, outbox := s.outbox ++ [⟨0#8, 0#8, 0#32, []⟩] }) ∧
    (s.ivalid = false → exec .tchk s = .next (afterError s 3))

/-- R107: TCLR zeroes every bit of the table and changes nothing else; it is the only command besides
TSET and SRST that can clear a table bit. -/
def Obligations.TclrZeroesTheTable : Prop :=
  IsFrameOf 0x23 0#16 [] .tclr ∧
  (∀ s : State, ∃ t, exec .tclr s = .next t ∧ (∀ a, memRead t.table a = 0#8) ∧
    t = { s with table := t.table, outbox := s.outbox ++ [⟨0#8, 0#8, 0#32, []⟩] }) ∧
  (∀ (i : Instr) (s t : State), i ≠ .tclr → (∀ p, i ≠ .tset p) → i ≠ .srst → exec i s = .next t →
    ∀ w b, (tableWord s.table w).getLsbD b = true → (tableWord t.table w).getLsbD b = true)

/-- R108: TGET answers the first `min(imm, 512)` raw bytes, their number, and LENMIS iff
`imm != 512`; it changes no state. -/
def Obligations.TgetAnswersTheRawImage : Prop :=
  ∀ (s : State) (imm : Half), IsFrameOf 0x24 imm [] (.tget imm) ∧ ∃ r,
    exec (.tget imm) s = .next { s with outbox := s.outbox ++ [r] } ∧
    r.err = 0#8 ∧ r.data.toNat = min imm.toNat 512 ∧
    r.flags = (if imm.toNat = 512 then 0x00#8 else 0x02#8) ∧
    r.rpayload.length = min imm.toNat 512 ∧
    ∀ i, i < min imm.toNat 512 → r.rpayload[i]? = some (memRead s.table i)

/-- R109: TSET overwrites raw bytes `0..n-1`, `n = min(len, 512)`, with the payload's, keeps the
others, answers `n` and LENMIS iff `len != 512`, and changes nothing else. -/
def Obligations.TsetOverwritesTheRawImage : Prop :=
  (∀ (imm : Half) (p : List Byte), p.length = imm.toNat → IsFrameOf 0x25 imm p (.tset p)) ∧
  ∀ (s : State) (p : List Byte), ∃ t, exec (.tset p) s = .next t ∧
    (∀ i, memRead t.table i =
      if i < min p.length 512 then p.getD i 0#8 else memRead s.table i) ∧
    t = { s with
      table := t.table
      outbox := s.outbox ++ [⟨0#8, (if p.length = 512 then 0x00#8 else 0x02#8),
        BitVec.ofNat 32 (min p.length 512), []⟩] }

/-- R110: TMRG ORs the payload into raw bytes `0..n-1`, `n = min(len, 512)`, keeps the others, answers
`n` and LENMIS iff `len != 512`, and changes nothing else. -/
def Obligations.TmrgUnitesTheRawImage : Prop :=
  (∀ (imm : Half) (p : List Byte), p.length = imm.toNat → IsFrameOf 0x26 imm p (.tmrg p)) ∧
  ∀ (s : State) (p : List Byte), ∃ t, exec (.tmrg p) s = .next t ∧
    (∀ i, memRead t.table i =
      if i < min p.length 512 then memRead s.table i ||| p.getD i 0#8 else memRead s.table i) ∧
    t = { s with
      table := t.table
      outbox := s.outbox ++ [⟨0#8, (if p.length = 512 then 0x00#8 else 0x02#8),
        BitVec.ofNat 32 (min p.length 512), []⟩] }

/-- R112 (c): after `TMRG 512, B` on a table whose image was `A`, `TGET 512` returns `A[i] | B[i]` for
every `i`. -/
def Obligations.MergeThenReadIsTheUnion : Prop :=
  ∀ (s : State) (p : List Byte), p.length = 512 →
    ∃ t u r, exec (.tmrg p) s = .next t ∧ exec (.tget 512#16) t = .next u ∧
      u.outbox = t.outbox ++ [r] ∧ r.rpayload.length = 512 ∧
      ∀ i, i < 512 → r.rpayload[i]? = some (memRead s.table i ||| p.getD i 0#8)

/-- R57: TADD, TMRG, TCLR and TSET issued twice in a row leave the state of issuing them once (up to
the response of the second). -/
def Obligations.TableWritesAreIdempotent : Prop :=
  ∀ (i : Instr) (s t u : State), memWf 512 s.table = true →
    (i = .tadd ∨ i = .tclr ∨ (∃ p, i = .tmrg p) ∨ (∃ p, i = .tset p)) →
    exec i s = .next t → exec i t = .next u → u = { t with outbox := u.outbox }

/-- R30, R112 (a): a table bit that is set stays set under any commands but TCLR, TSET and SRST. -/
def Obligations.SetTableBitsStaySet : Prop :=
  ∀ (is : List Instr) (s t : State), (∀ i ∈ is, clearsTable i = false) →
    runCommands is s = some t →
    ∀ w b, (tableWord s.table w).getLsbD b = true → (tableWord t.table w).getLsbD b = true

/-- R112 (b): after `ADD x`, every later `CHECK x` hits, provided no TCLR, TSET or SRST came between.
A name above 65535 bytes is absorbed in the pieces the model chose (assumption log 14). -/
def Obligations.NoFalseNegatives : Prop :=
  ∀ (x : List Byte) (is : List Instr) (s t u : State), (∀ i ∈ is, clearsTable i = false) →
    runCommands (addProgram x) s = some t → runCommands is t = some u →
    ∃ v, runCommands (checkProgram x) u = some v ∧ v.hit = true ∧
      v.outbox.getLast? = some ⟨0#8, 0x01#8, 1#32, []⟩

/-- R180: for every name, `add` and `check` complete with `err = 0` in every response, from any
starting state. A name above 65535 bytes is absorbed in the pieces the model chose (assumption log
14); R180 speaks of every name, however it is cut. -/
def Obligations.AddAndCheckNeverFail : Prop :=
  ∀ (x : List Byte) (s : State),
    (∃ t rs, SafeRun (addProgram x) s t rs) ∧ (∃ t rs, SafeRun (checkProgram x) s t rs)

/-! ## Pack unit -/

/-- R120, R12: the width of a maximum code `m >= 1` is the unique `b` with `2^(b-1) <= m < 2^b`, the
number of bits of its binary form; the width of 0, and of the empty sequence, is 1. -/
def Obligations.WidthIsTheBitLength : Prop :=
  (∀ m : Nat, codeWidth m = max 1 (Nat.size m)) ∧
  (∀ m : Nat, 1 ≤ m → 2 ^ (codeWidth m - 1) ≤ m ∧ m < 2 ^ codeWidth m) ∧
  codeWidth 0 = 1 ∧ codeWidth (largestCode []) = 1

/-- R121, R122: WRST zeroes the running maximum, WOBS takes the larger of it and its code and answers
it, neither touches anything else; after `WRST; WOBS c0; ..` it is the largest code. -/
def Obligations.WobsKeepsTheRunningMaximum : Prop :=
  ∀ s : State,
    IsFrameOf 0x30 0#16 [] .wrst ∧ (∀ imm : Half, IsFrameOf 0x31 imm [] (.wobs imm)) ∧
    exec .wrst s =
      .next { s with maxc := 0#16, outbox := s.outbox ++ [⟨0#8, 0#8, 0#32, []⟩] } ∧
    (∀ c : Half, exec (.wobs c) s =
      .next { s with
        maxc := BitVec.ofNat 16 (max s.maxc.toNat c.toNat)
        outbox := s.outbox ++ [⟨0#8, 0#8, BitVec.ofNat 32 (max s.maxc.toNat c.toNat), []⟩] }) ∧
    (∀ codes : List Half, ∃ t, runCommands (.wrst :: codes.map .wobs) s = some t ∧
      t.maxc.toNat = largestCode codes)

/-- R123: PBEGIN of width `w` in 1..16, or of 0 for the automatic width, starts the packed form of the
empty sequence, in every mode, and touches nothing else; a width above 16 is E_OPERAND (2). -/
def Obligations.PbeginStartsAPackedBuffer : Prop :=
  ∀ (s : State) (imm : Half),
    IsFrameOf 0x32 imm [] (.pbegin imm) ∧
    (imm.toNat ≤ 16 →
      ∃ t w, w = (if imm.toNat = 0 then max 1 (Nat.size s.maxc.toNat) else imm.toNat) ∧
        exec (.pbegin imm) s = .next t ∧
        (∀ j, memRead t.pbuf j = if j = 0 then BitVec.ofNat 8 w else 0#8) ∧
        t = { s with
          pw := BitVec.ofNat 5 w, pbuf := t.pbuf, plen := 1, pcur := 0#14, pmode := .pack
          outbox := s.outbox ++ [⟨0#8, 0#8, BitVec.ofNat 32 w, []⟩] }) ∧
    (16 < imm.toNat → exec (.pbegin imm) s = .next (afterError s 2))

/-- R124: PPUT puts its `PW` bits at payload bits `PCUR..PCUR+PW-1`, least significant first, every
other bit and the header as they were, moves PCUR on by PW and PLEN to the bytes used, and touches
nothing else. Outside `P_PACK` it is E_SEQ (3), then a code of more than PW bits is E_RANGE (4), then
a buffer above 1024 bytes is E_OVERFLOW (5). -/
def Obligations.PputAppendsACode : Prop :=
  ∀ (s : State) (c : Half),
    let cursor := s.pcur.toNat + s.pw.toNat
    IsFrameOf 0x33 c [] (.pput c) ∧
    (s.pmode = .pack → c.toNat < 2 ^ s.pw.toNat → 1 + (cursor + 7) / 8 ≤ 1024 →
      ∃ t, exec (.pput c) s = .next t ∧
        (∀ p, payloadBit t.pbuf p =
          if s.pcur.toNat ≤ p ∧ p < cursor then c.getLsbD (p - s.pcur.toNat)
          else payloadBit s.pbuf p) ∧
        memRead t.pbuf 0 = memRead s.pbuf 0 ∧
        t.pcur.toNat = cursor ∧ t.plen.val = 1 + (cursor + 7) / 8 ∧
        t = { s with
          pbuf := t.pbuf, pcur := t.pcur, plen := t.plen
          outbox := s.outbox ++ [⟨0#8, 0#8, BitVec.ofNat 32 (1 + (cursor + 7) / 8), []⟩] }) ∧
    (s.pmode ≠ .pack → exec (.pput c) s = .next (afterError s 3)) ∧
    (s.pmode = .pack → 2 ^ s.pw.toNat ≤ c.toNat → exec (.pput c) s = .next (afterError s 4)) ∧
    (s.pmode = .pack → c.toNat < 2 ^ s.pw.toNat → 1024 < 1 + (cursor + 7) / 8 →
      exec (.pput c) s = .next (afterError s 5))

/-- R125: PGET answers PLEN and the bytes `PBUF[0..PLEN-1]`, in either mode, and changes no state; in
`P_IDLE` it is E_SEQ (3). -/
def Obligations.PgetAnswersThePackedBuffer : Prop :=
  ∀ s : State,
    IsFrameOf 0x34 0#16 [] .pget ∧
    (s.pmode ≠ .idle → ∃ r,
      exec .pget s = .next { s with outbox := s.outbox ++ [r] } ∧
      r.err = 0#8 ∧ r.flags = 0#8 ∧ r.data.toNat = s.plen.val ∧ r.rpayload.length = s.plen.val ∧
      ∀ j, j < s.plen.val → r.rpayload[j]? = some (memRead s.pbuf j)) ∧
    (s.pmode = .idle → exec .pget s = .next (afterError s 3))

/-- R126: UBEGIN loads a packed buffer of 1 to 1024 bytes whose header width is 1 to 16, in every
mode, answers the number of whole codes, and touches nothing else. More bytes are E_OVERFLOW (5), then
no header byte or another width is E_DECODE_HDR (6). -/
def Obligations.UbeginLoadsAPackedBuffer : Prop :=
  ∀ (s : State) (p : List Byte),
    (∀ imm : Half, p.length = imm.toNat → IsFrameOf 0x35 imm p (.ubegin p)) ∧
    (1 ≤ p.length → p.length ≤ 1024 → 1 ≤ (p.getD 0 0#8).toNat → (p.getD 0 0#8).toNat ≤ 16 →
      ∃ t, exec (.ubegin p) s = .next t ∧
        (∀ j, memRead t.pbuf j = p.getD j 0#8) ∧
        t.plen.val = p.length ∧ t.pw.toNat = (p.getD 0 0#8).toNat ∧
        t = { s with
          pbuf := t.pbuf, plen := t.plen, pw := t.pw, pcur := 0#14, pmode := .unpack
          outbox := s.outbox ++
            [⟨0#8, 0#8, BitVec.ofNat 32 (8 * (p.length - 1) / (p.getD 0 0#8).toNat), []⟩] }) ∧
    (1024 < p.length → exec (.ubegin p) s = .next (afterError s 5)) ∧
    (p = [] → exec (.ubegin p) s = .next (afterError s 6)) ∧
    (1 ≤ p.length → p.length ≤ 1024 → (p.getD 0 0#8).toNat = 0 ∨ 16 < (p.getD 0 0#8).toNat →
      exec (.ubegin p) s = .next (afterError s 6))

/-- R127: UGET answers the code whose bit `b` is payload bit `PCUR + b`, for `b < PW`, and moves PCUR
on by PW, nothing else. Outside `P_UNPACK` it is E_SEQ (3), then fewer than PW bits left is E_EOS (7).
PW is at most 16 (R46, EveryStepKeepsTheInvariants). -/
def Obligations.UgetTakesTheNextCode : Prop :=
  ∀ s : State,
    let cursor := s.pcur.toNat + s.pw.toNat
    IsFrameOf 0x36 0#16 [] .uget ∧
    (s.pmode = .unpack → s.pw.toNat ≤ 16 → cursor ≤ 8 * (s.plen.val - 1) →
      ∃ t r, exec .uget s = .next t ∧
        r.err = 0#8 ∧ r.flags = 0#8 ∧ r.rpayload = [] ∧
        (∀ b, r.data.getLsbD b =
          if b < s.pw.toNat then payloadBit s.pbuf (s.pcur.toNat + b) else false) ∧
        t.pcur.toNat = cursor ∧
        t = { s with pcur := t.pcur, outbox := s.outbox ++ [r] }) ∧
    (s.pmode ≠ .unpack → exec .uget s = .next (afterError s 3)) ∧
    (s.pmode = .unpack → 8 * (s.plen.val - 1) < cursor → exec .uget s = .next (afterError s 7))

/-- R128: packing at a given width, and at the automatic width, raises no error and PGET returns the
packed form of the codes. -/
def Obligations.PackContract : Prop :=
  (∀ (s : State) (w : Nat) (codes : List Half), 1 ≤ w → w ≤ 16 →
    (∀ c ∈ codes, c.toNat < 2 ^ w) → 1 + (w * codes.length + 7) / 8 ≤ 1024 →
    ∃ t rs packed,
      SafeRun (.pbegin (BitVec.ofNat 16 w) :: (codes.map .pput ++ [.pget])) s t rs ∧
      lastPayload rs = some packed ∧ IsPackedForm w codes packed) ∧
  (∀ (s : State) (codes : List Half),
    let w := max 1 (Nat.size (largestCode codes))
    1 + (w * codes.length + 7) / 8 ≤ 1024 →
    ∃ t rs packed, SafeRun (packProgram codes) s t rs ∧
      lastPayload rs = some packed ∧ IsPackedForm w codes packed)

/-- R129: UBEGIN of a packed buffer, then UGET until E_EOS, delivers exactly `(8*(L-1)) div P[0]`
codes, code `j` having bit `b` equal to payload bit `j*P[0] + b`; of the packed form of `n` codes the
first `n` delivered are those codes and the rest, none for `W >= 8`, are 0. -/
def Obligations.UnpackContract : Prop :=
  ∀ (s : State) (packed : List Byte) (w m : Nat), 1 ≤ packed.length → packed.length ≤ 1024 →
    w = (packed.getD 0 0#8).toNat → 1 ≤ w → w ≤ 16 → m = 8 * (packed.length - 1) / w →
    ∃ t r rs, SafeRun (unpackProgram packed m) s t (r :: rs) ∧
      (∀ j, j < m → ∃ q, rs[j]? = some q ∧
        ∀ b, q.data.getLsbD b = if b < w then packedBit packed (j * w + b) else false) ∧
      exec .uget t = .next (afterError t 7) ∧
      (∀ codes : List Half, IsPackedForm w codes packed → (∀ c ∈ codes, c.toNat < 2 ^ w) →
        codes.length ≤ m ∧ (8 ≤ w → m = codes.length) ∧
        (∀ j, j < codes.length → (rs[j]?.map (fun q => q.data)) =
          (codes[j]?.map (fun c => BitVec.ofNat 32 c.toNat))) ∧
        (∀ j, codes.length ≤ j → j < m → (rs[j]?.map (fun q => q.data)) = some 0#32))

/-- R128, R129: what PACK packed, UNPACK delivers again, whatever happened to the other state. -/
def Obligations.UnpackOfPackIsTheCodes : Prop :=
  ∀ (s u : State) (w : Nat) (codes : List Half), 1 ≤ w → w ≤ 16 →
    (∀ c ∈ codes, c.toNat < 2 ^ w) → 1 + (w * codes.length + 7) / 8 ≤ 1024 →
    ∃ t rs packed v r qs,
      SafeRun (.pbegin (BitVec.ofNat 16 w) :: (codes.map .pput ++ [.pget])) s t rs ∧
      lastPayload rs = some packed ∧
      SafeRun (unpackProgram packed codes.length) u v (r :: qs) ∧
      qs.map (fun q => q.data) = codes.map (fun c => BitVec.ofNat 32 c.toNat)

/-- R130: the packed bytes are a function of the code sequence alone, whatever the states before; for
the codes of twenty "A" they are `09 41 00 06 14 38 70 20`. -/
def Obligations.PackedBytesDependOnTheCodesAlone : Prop :=
  (∀ (codes : List Half) (s s' t t' : State),
    runCommands (packProgram codes) s = some t → runCommands (packProgram codes) s' = some t' →
    t.outbox.getLast? = t'.outbox.getLast?) ∧
  (∃ t, runCommands (packProgram [65#16, 256#16, 257#16, 258#16, 259#16, 259#16]) State.reset = some t ∧
    (t.outbox.getLast?.map (fun r => r.rpayload)) =
      some [0x09#8, 0x41#8, 0x00#8, 0x06#8, 0x14#8, 0x38#8, 0x70#8, 0x20#8])

/-- R38 (b): in `P_UNPACK` mode UREM is the number of whole codes UGET can still deliver: UGET
succeeds exactly when it is not 0, and takes it down by one. -/
def Obligations.UremCountsTheCodesLeft : Prop :=
  ∀ s : State, Inv s → s.pmode = .unpack →
    (unpackRemaining s = 0 → exec .uget s = .next (afterError s 7)) ∧
    (unpackRemaining s ≠ 0 → ∃ t, exec .uget s = .next t ∧ t.err = s.err ∧
      unpackRemaining t + 1 = unpackRemaining s)

/-! ## Frames: what a command leaves unchanged when it answers a next state -/

/-- R57: no read has a side effect: RDREG, HRDD, TGET and PGET change nothing but the response and, on
an error, the sticky mask; memory byte by byte included. -/
def Obligations.ReadCommandsFrame : Prop :=
  ∀ (i : Instr) (s t : State),
    ((∃ n, i = .rdreg n) ∨ (∃ n, i = .hrdd n) ∨ (∃ n, i = .tget n) ∨ i = .pget) →
    exec i s = .next t →
    t = { s with err := t.err, outbox := t.outbox } ∧
    (∀ a, memRead t.table a = memRead s.table a) ∧ (∀ a, memRead t.pbuf a = memRead s.pbuf a)

/-- R55, R204, R92 to R95: HINIT, HABS, HABSN and HFIN change only hash unit state (and, HINIT,
IVALID), the response and, on an error, the sticky mask; no memory. -/
def Obligations.HashUnitCommandsFrame : Prop :=
  ∀ (i : Instr) (s t : State),
    ((∃ n, i = .hinit n) ∨ (∃ n, i = .habs n) ∨ (∃ p, i = .habsn p) ∨ i = .hfin) →
    exec i s = .next t →
    t = { s with
      acc := t.acc, bc := t.bc, lane := t.lane, hstate := t.hstate, ivalid := t.ivalid
      err := t.err, outbox := t.outbox } ∧
    ((∀ n, i ≠ .hinit n) → t.bc = s.bc ∧ t.ivalid = s.ivalid) ∧
    (∀ a, memRead t.table a = memRead s.table a) ∧ (∀ a, memRead t.pbuf a = memRead s.pbuf a)

/-- R55, R30, R104 to R110: the index unit's commands change only what their rules name; the table
changes only by TADD, in the two bytes of word WIDX, by TSET and TMRG in the first `min(len, 512)`
bytes, and by TCLR; the pack buffer never. -/
def Obligations.IndexUnitCommandsFrame : Prop :=
  ∀ (s t : State),
    (exec .fold s = .next t → t = { s with
      h0 := t.h0, h1 := t.h1, n0 := t.n0, n1 := t.n1, n2 := t.n2, widx := t.widx
      bmask := t.bmask, ivalid := t.ivalid, err := t.err, outbox := t.outbox }) ∧
    (exec .tchk s = .next t → t = { s with hit := t.hit, err := t.err, outbox := t.outbox }) ∧
    (exec .tadd s = .next t → t = { s with table := t.table, err := t.err, outbox := t.outbox } ∧
      ∀ a, a ≠ 2 * s.widx.toNat → a ≠ 2 * s.widx.toNat + 1 →
        memRead t.table a = memRead s.table a) ∧
    (exec .tclr s = .next t → t = { s with table := t.table, err := t.err, outbox := t.outbox }) ∧
    (∀ p, exec (.tset p) s = .next t →
      t = { s with table := t.table, err := t.err, outbox := t.outbox } ∧
      ∀ a, min p.length 512 ≤ a → memRead t.table a = memRead s.table a) ∧
    (∀ p, exec (.tmrg p) s = .next t →
      t = { s with table := t.table, err := t.err, outbox := t.outbox } ∧
      ∀ a, min p.length 512 ≤ a → memRead t.table a = memRead s.table a)

/-- R55, R121 to R127: the pack unit's commands change only pack unit state, the response and, on an
error, the sticky mask; WRST and WOBS only MAXC, UGET only PCUR; PPUT no byte of the pack buffer but
those its code's bits lie in; no table byte. -/
def Obligations.PackUnitCommandsFrame : Prop :=
  ∀ (s t : State),
    (∀ i : Instr, (i = .wrst ∨ ∃ c, i = .wobs c) → exec i s = .next t →
      t = { s with maxc := t.maxc, err := t.err, outbox := t.outbox }) ∧
    (∀ i : Instr, ((∃ w, i = .pbegin w) ∨ ∃ p, i = .ubegin p) → exec i s = .next t →
      t = { s with
        pw := t.pw, pbuf := t.pbuf, plen := t.plen, pcur := t.pcur, pmode := t.pmode
        err := t.err, outbox := t.outbox }) ∧
    (∀ c, exec (.pput c) s = .next t →
      t = { s with
        pbuf := t.pbuf, plen := t.plen, pcur := t.pcur, err := t.err, outbox := t.outbox } ∧
      ∀ a, (a < 1 + s.pcur.toNat / 8 ∨ 1 + (s.pcur.toNat + s.pw.toNat + 7) / 8 ≤ a) →
        memRead t.pbuf a = memRead s.pbuf a) ∧
    (exec .uget s = .next t → t = { s with pcur := t.pcur, err := t.err, outbox := t.outbox })

/-- R28: IVALID is set by a successful FOLD, cleared by a successful HINIT and by SRST, and left alone
by every other command. -/
def Obligations.IvalidIsSetByFoldAndClearedByHinitAndSrst : Prop :=
  ∀ (i : Instr) (s t : State), exec i s = .next t →
    ∃ r, t.outbox = s.outbox ++ [r] ∧
      (i = .fold → r.err = 0#8 → t.ivalid = true) ∧
      ((∃ n, i = .hinit n) → r.err = 0#8 → t.ivalid = false) ∧
      (i = .srst → t.ivalid = false) ∧
      ((i ≠ .fold ∧ (∀ n, i ≠ .hinit n) ∧ i ≠ .srst) ∨ r.err ≠ 0#8 → t.ivalid = s.ivalid)

/-! ## The host's dictionary coder -/

/-- R158, R156 and conflict C3: decoding the codes of `x`, whatever codes follow them, gives `x`. -/
def Obligations.DictionaryDecodeOfEncode : Prop :=
  ∀ (x : List Byte) (more : List Nat), decodeCodes (dictionaryCodes x ++ more) x.length = .ok x

/-- R158: `decompress(compress(B)) == B` on the HFBE, for every `B` whose code sequence fits the pack
unit, from any states of the two instances used. -/
def Obligations.DecompressOfCompress : Prop :=
  ∀ (s t u : State) (x packed : List Byte), s.pending = [] → u.pending = [] →
    compress s x = some (t, packed) → (decompress u packed x.length).1 = .ok x

/-- R8, R152: every input of at most 512 bytes fits the pack unit, in at most 641 packed bytes. -/
def Obligations.TableImagesFitThePackUnit : Prop :=
  ∀ (s : State) (x : List Byte), s.pending = [] → x.length ≤ 512 →
    ∃ t packed, compress s x = some (t, packed) ∧ packed.length ≤ 641

/-- R156, R157 (g): a decompress that succeeds returns exactly the expected number of bytes. -/
def Obligations.DecompressReturnsTheExpectedLength : Prop :=
  ∀ (s : State) (packed out : List Byte) (n : Nat),
    (decompress s packed n).1 = .ok out → out.length = n

/-- R160: a DecodeError stops an import or a merge before any TSET or TMRG, so the table is
unchanged, byte for byte. -/
def Obligations.FailedImportLeavesTheTable : Prop :=
  ∀ (s : State) (packed : List Byte) (e : DecodeFailure), s.pending = [] →
    ((importTable s packed).1 = .error e → (importTable s packed).2.table = s.table) ∧
    ((mergeTable s packed).1 = .error e → (mergeTable s packed).2.table = s.table)
end

