-- ==== Sys2Proof/Laws/Codec.lean ====
section
/-!
SUPPORT. The small lemmas of the frame format: the fields of a command word, the opcode map read in
both directions, the bytes of a word.
-/

namespace Sys2Proof

/-! ## The fields of a command word (R70) -/

@[simp] theorem commandWord_op (op : Byte) (imm : Half) :
    (commandWord op imm).extractLsb 31 24 = op := by
  apply BitVec.eq_of_getLsbD_eq
  intro i hi
  have h1 : ¬ 24 + i < 8 + 16 := by omega
  have h2 : 24 + i - (8 + 16) = i := by omega
  simp only [commandWord, BitVec.getLsbD_extractLsb, BitVec.getLsbD_append, h1, h2, if_false]
  simp; omega

@[simp] theorem commandWord_rsv (op : Byte) (imm : Half) :
    (commandWord op imm).extractLsb 23 16 = 0#8 := by
  apply BitVec.eq_of_getLsbD_eq
  intro i hi
  have h1 : 16 + i < 8 + 16 := by omega
  have h2 : ¬ 16 + i < 16 := by omega
  simp only [commandWord, BitVec.getLsbD_extractLsb, BitVec.getLsbD_append, h1, h2, if_true, if_false]
  simp

@[simp] theorem commandWord_imm (op : Byte) (imm : Half) :
    (commandWord op imm).extractLsb 15 0 = imm := by
  apply BitVec.eq_of_getLsbD_eq
  intro i hi
  have h1 : 0 + i < 8 + 16 := by omega
  have h2 : 0 + i < 16 := by omega
  simp only [commandWord, BitVec.getLsbD_extractLsb, BitVec.getLsbD_append, h1, h2, if_true]
  simp; omega

/-- A word whose reserved field is 0 is made of its other two fields. -/
theorem commandWord_fields {w : Word} (h : w.extractLsb 23 16 = 0#8) :
    commandWord (w.extractLsb 31 24) (w.extractLsb 15 0) = w := by
  apply BitVec.eq_of_getLsbD_eq
  intro i hi
  unfold commandWord
  rw [BitVec.getLsbD_append, BitVec.getLsbD_append]
  by_cases h1 : i < 16
  · have h2 : i < 8 + 16 := by omega
    simp only [h1, h2, if_true, BitVec.getLsbD_extractLsb]
    simp
  · by_cases h2 : i < 8 + 16
    · have hz : (w.extractLsb 23 16).getLsbD (i - 16) = false := by rw [h]; simp
      rw [BitVec.getLsbD_extractLsb] at hz
      rw [show 16 + (i - 16) = i by omega] at hz
      simp only [h1, h2, if_true, if_false]
      have h4 : i - 16 < 8 := by omega
      simpa [h4] using hz.symm
    · simp only [h2, if_false, BitVec.getLsbD_extractLsb]
      rw [show 24 + (i - (8 + 16)) = i by omega]
      simp; omega

/-! ## The opcode map (R75), read in both directions -/

theorem opOfCode_code (o : Op) : opOfCode o.code = some o := by
  cases o <;> decide

theorem opOfCode_eq_some {b : Byte} {o : Op} (h : opOfCode b = some o) : o.code = b := by
  have := List.find?_some h
  simpa using this

theorem opOfCode_eq_none {b : Byte} (h : opOfCode b = none) (o : Op) : o.code ≠ b := by
  have ho : o ∈ allOps := by cases o <;> decide
  have := List.find?_eq_none.mp h o ho
  simpa using this

/-! ## A command and the parts of its frame -/

theorem toInstr_parts (i : Instr) : i.op.toInstr i.imm i.payload = i := by
  cases i <;> rfl

theorem op_toInstr (o : Op) (imm : Half) (p : List Byte) : (o.toInstr imm p).op = o := by
  cases o <;> rfl

/-- The payload of a well-formed command is as long as its operand says (R72). -/
theorem payload_length_of_wellFormed {i : Instr} (h : i.wellFormed = true) :
    i.payload.length = i.op.payloadLength i.imm := by
  cases i <;>
    simp_all [Instr.wellFormed, payloadFits, Instr.payload, Instr.op, Instr.imm, Op.payloadLength,
      Op.hasPayload, Nat.mod_eq_of_lt]

/-! ## Words on a byte transport (R78) -/

theorem wordOfBytes_bytesOfWord (w : Word) :
    wordOfBytes (w.extractLsb 7 0) (w.extractLsb 15 8) (w.extractLsb 23 16) (w.extractLsb 31 24)
      = w := by
  apply BitVec.eq_of_getLsbD_eq
  intro i hi
  unfold wordOfBytes
  rw [BitVec.getLsbD_append, BitVec.getLsbD_append, BitVec.getLsbD_append]
  by_cases h1 : i < 8
  · have h2 : i < 8 + 8 := by omega
    have h3 : i < 8 + (8 + 8) := by omega
    simp only [h1, h2, h3, if_true, BitVec.getLsbD_extractLsb]
    simp
  · by_cases h2 : i < 8 + 8
    · have h3 : i < 8 + (8 + 8) := by omega
      simp only [h1, h2, h3, if_true, if_false, BitVec.getLsbD_extractLsb]
      rw [show 8 + (i - 8) = i by omega]
      simp; omega
    · by_cases h3 : i < 8 + (8 + 8)
      · simp only [h2, h3, if_true, if_false, BitVec.getLsbD_extractLsb]
        rw [show 16 + (i - (8 + 8)) = i by omega]
        simp; omega
      · simp only [h3, if_false, BitVec.getLsbD_extractLsb]
        rw [show 24 + (i - (8 + (8 + 8))) = i by omega]
        simp; omega

/-! ## Command words as numbers, and the decoder on them -/

/-- `{op, 0x00, imm}` as the number `(op << 24) | imm` (R70, R82). -/
theorem commandWord_eq_ofNat (c : Byte) (imm : Half) :
    commandWord c imm = BitVec.ofNat 32 (c.toNat * 2 ^ 24 + imm.toNat) := by
  apply BitVec.eq_of_toNat_eq
  have h16 : imm.toNat < 2 ^ 16 := imm.isLt
  have h24 : imm.toNat < 2 ^ (8 + 16) := by omega
  have hc := c.isLt
  rw [commandWord, BitVec.toNat_append, BitVec.toNat_append, ← Nat.shiftLeft_add_eq_or_of_lt h16]
  simp only [BitVec.toNat_ofNat]
  rw [show (0 % 2 ^ 8) <<< 16 + imm.toNat = imm.toNat by simp,
    ← Nat.shiftLeft_add_eq_or_of_lt h24, Nat.shiftLeft_eq]
  omega

/-- The decoder on a command word that names a command: it checks the operand and the length. -/
theorem decodeFrame_commandWord {o : Op} {imm : Half} {p : List Byte}
    (hi : o.immFree = true ∨ imm = 0#16) (hp : p.length = o.payloadLength imm) :
    decodeFrame ⟨commandWord o.code imm, p⟩ = .ok (o.toInstr imm p) := by
  have e1 : (Frame.mk (commandWord o.code imm) p).op = o.code := commandWord_op _ _
  have e2 : (Frame.mk (commandWord o.code imm) p).rsv = 0#8 := commandWord_rsv _ _
  have e3 : (Frame.mk (commandWord o.code imm) p).imm = imm := commandWord_imm _ _
  have h3 : ¬ (o.immFree = false ∧ imm ≠ 0#16) := by rcases hi with h | h <;> simp [h]
  unfold decodeFrame
  rw [e1, opOfCode_code, e2, e3]
  simp [h3, hp]

end Sys2Proof
end

