-- ==== Sys2Proof/Laws/State.lean ====
section
/-!
SUPPORT. The small lemmas of the named state updates: each field after `State.emit`,
`State.withError`, `absorbInto` and `foldInto`.
-/

namespace Sys2Proof.Machine

variable (s : State)

/-! ## Returning a response -/

@[simp] theorem State.emit_acc (r : Response) : (s.emit r).acc = s.acc := rfl
@[simp] theorem State.emit_bc (r : Response) : (s.emit r).bc = s.bc := rfl
@[simp] theorem State.emit_lane (r : Response) : (s.emit r).lane = s.lane := rfl
@[simp] theorem State.emit_hstate (r : Response) : (s.emit r).hstate = s.hstate := rfl
@[simp] theorem State.emit_h0 (r : Response) : (s.emit r).h0 = s.h0 := rfl
@[simp] theorem State.emit_h1 (r : Response) : (s.emit r).h1 = s.h1 := rfl
@[simp] theorem State.emit_n0 (r : Response) : (s.emit r).n0 = s.n0 := rfl
@[simp] theorem State.emit_n1 (r : Response) : (s.emit r).n1 = s.n1 := rfl
@[simp] theorem State.emit_n2 (r : Response) : (s.emit r).n2 = s.n2 := rfl
@[simp] theorem State.emit_widx (r : Response) : (s.emit r).widx = s.widx := rfl
@[simp] theorem State.emit_bmask (r : Response) : (s.emit r).bmask = s.bmask := rfl
@[simp] theorem State.emit_ivalid (r : Response) : (s.emit r).ivalid = s.ivalid := rfl
@[simp] theorem State.emit_hit (r : Response) : (s.emit r).hit = s.hit := rfl
@[simp] theorem State.emit_table (r : Response) : (s.emit r).table = s.table := rfl
@[simp] theorem State.emit_maxc (r : Response) : (s.emit r).maxc = s.maxc := rfl
@[simp] theorem State.emit_pw (r : Response) : (s.emit r).pw = s.pw := rfl
@[simp] theorem State.emit_pmode (r : Response) : (s.emit r).pmode = s.pmode := rfl
@[simp] theorem State.emit_pbuf (r : Response) : (s.emit r).pbuf = s.pbuf := rfl
@[simp] theorem State.emit_plen (r : Response) : (s.emit r).plen = s.plen := rfl
@[simp] theorem State.emit_pcur (r : Response) : (s.emit r).pcur = s.pcur := rfl
@[simp] theorem State.emit_err (r : Response) : (s.emit r).err = s.err := rfl
@[simp] theorem State.emit_pending (r : Response) : (s.emit r).pending = s.pending := rfl
@[simp] theorem State.emit_outbox (r : Response) : (s.emit r).outbox = s.outbox ++ [r] := rfl

/-! ## Taking an error -/

@[simp] theorem State.withError_acc (e : ErrorCode) : (s.withError e).acc = s.acc := rfl
@[simp] theorem State.withError_bc (e : ErrorCode) : (s.withError e).bc = s.bc := rfl
@[simp] theorem State.withError_lane (e : ErrorCode) : (s.withError e).lane = s.lane := rfl
@[simp] theorem State.withError_hstate (e : ErrorCode) : (s.withError e).hstate = s.hstate := rfl
@[simp] theorem State.withError_h0 (e : ErrorCode) : (s.withError e).h0 = s.h0 := rfl
@[simp] theorem State.withError_h1 (e : ErrorCode) : (s.withError e).h1 = s.h1 := rfl
@[simp] theorem State.withError_n0 (e : ErrorCode) : (s.withError e).n0 = s.n0 := rfl
@[simp] theorem State.withError_n1 (e : ErrorCode) : (s.withError e).n1 = s.n1 := rfl
@[simp] theorem State.withError_n2 (e : ErrorCode) : (s.withError e).n2 = s.n2 := rfl
@[simp] theorem State.withError_widx (e : ErrorCode) : (s.withError e).widx = s.widx := rfl
@[simp] theorem State.withError_bmask (e : ErrorCode) : (s.withError e).bmask = s.bmask := rfl
@[simp] theorem State.withError_ivalid (e : ErrorCode) : (s.withError e).ivalid = s.ivalid := rfl
@[simp] theorem State.withError_hit (e : ErrorCode) : (s.withError e).hit = s.hit := rfl
@[simp] theorem State.withError_table (e : ErrorCode) : (s.withError e).table = s.table := rfl
@[simp] theorem State.withError_maxc (e : ErrorCode) : (s.withError e).maxc = s.maxc := rfl
@[simp] theorem State.withError_pw (e : ErrorCode) : (s.withError e).pw = s.pw := rfl
@[simp] theorem State.withError_pmode (e : ErrorCode) : (s.withError e).pmode = s.pmode := rfl
@[simp] theorem State.withError_pbuf (e : ErrorCode) : (s.withError e).pbuf = s.pbuf := rfl
@[simp] theorem State.withError_plen (e : ErrorCode) : (s.withError e).plen = s.plen := rfl
@[simp] theorem State.withError_pcur (e : ErrorCode) : (s.withError e).pcur = s.pcur := rfl
@[simp] theorem State.withError_err (e : ErrorCode) : (s.withError e).err = stickyError s.err e := rfl
@[simp] theorem State.withError_pending (e : ErrorCode) : (s.withError e).pending = s.pending := rfl
@[simp] theorem State.withError_outbox (e : ErrorCode) : (s.withError e).outbox = s.outbox ++ [errorResponse e] := rfl

/-! ## Absorbing bytes -/

@[simp] theorem absorbInto_acc (bs : List Byte) : (absorbInto s bs).acc = (absorbBytes s.bc (s.acc, s.lane) bs).1 := rfl
@[simp] theorem absorbInto_bc (bs : List Byte) : (absorbInto s bs).bc = s.bc := rfl
@[simp] theorem absorbInto_lane (bs : List Byte) : (absorbInto s bs).lane = (absorbBytes s.bc (s.acc, s.lane) bs).2 := rfl
@[simp] theorem absorbInto_hstate (bs : List Byte) : (absorbInto s bs).hstate = s.hstate := rfl
@[simp] theorem absorbInto_h0 (bs : List Byte) : (absorbInto s bs).h0 = s.h0 := rfl
@[simp] theorem absorbInto_h1 (bs : List Byte) : (absorbInto s bs).h1 = s.h1 := rfl
@[simp] theorem absorbInto_n0 (bs : List Byte) : (absorbInto s bs).n0 = s.n0 := rfl
@[simp] theorem absorbInto_n1 (bs : List Byte) : (absorbInto s bs).n1 = s.n1 := rfl
@[simp] theorem absorbInto_n2 (bs : List Byte) : (absorbInto s bs).n2 = s.n2 := rfl
@[simp] theorem absorbInto_widx (bs : List Byte) : (absorbInto s bs).widx = s.widx := rfl
@[simp] theorem absorbInto_bmask (bs : List Byte) : (absorbInto s bs).bmask = s.bmask := rfl
@[simp] theorem absorbInto_ivalid (bs : List Byte) : (absorbInto s bs).ivalid = s.ivalid := rfl
@[simp] theorem absorbInto_hit (bs : List Byte) : (absorbInto s bs).hit = s.hit := rfl
@[simp] theorem absorbInto_table (bs : List Byte) : (absorbInto s bs).table = s.table := rfl
@[simp] theorem absorbInto_maxc (bs : List Byte) : (absorbInto s bs).maxc = s.maxc := rfl
@[simp] theorem absorbInto_pw (bs : List Byte) : (absorbInto s bs).pw = s.pw := rfl
@[simp] theorem absorbInto_pmode (bs : List Byte) : (absorbInto s bs).pmode = s.pmode := rfl
@[simp] theorem absorbInto_pbuf (bs : List Byte) : (absorbInto s bs).pbuf = s.pbuf := rfl
@[simp] theorem absorbInto_plen (bs : List Byte) : (absorbInto s bs).plen = s.plen := rfl
@[simp] theorem absorbInto_pcur (bs : List Byte) : (absorbInto s bs).pcur = s.pcur := rfl
@[simp] theorem absorbInto_err (bs : List Byte) : (absorbInto s bs).err = s.err := rfl
@[simp] theorem absorbInto_pending (bs : List Byte) : (absorbInto s bs).pending = s.pending := rfl
@[simp] theorem absorbInto_outbox (bs : List Byte) : (absorbInto s bs).outbox = s.outbox := rfl

/-! ## Folding -/

@[simp] theorem foldInto_acc : (foldInto s).acc = s.acc := rfl
@[simp] theorem foldInto_bc : (foldInto s).bc = s.bc := rfl
@[simp] theorem foldInto_lane : (foldInto s).lane = s.lane := rfl
@[simp] theorem foldInto_hstate : (foldInto s).hstate = s.hstate := rfl
@[simp] theorem foldInto_h0 : (foldInto s).h0 = foldLow s.acc := rfl
@[simp] theorem foldInto_h1 : (foldInto s).h1 = foldHigh s.acc := rfl
@[simp] theorem foldInto_n0 : (foldInto s).n0 =
    nibbleSum (foldedValue (foldLow s.acc) (foldHigh s.acc)) 0 := rfl
@[simp] theorem foldInto_n1 : (foldInto s).n1 =
    nibbleSum (foldedValue (foldLow s.acc) (foldHigh s.acc)) 1 := rfl
@[simp] theorem foldInto_n2 : (foldInto s).n2 =
    nibbleSum (foldedValue (foldLow s.acc) (foldHigh s.acc)) 2 := rfl
@[simp] theorem foldInto_widx : (foldInto s).widx =
    wordIndex (foldInto s).n0 (foldInto s).n1 := rfl
@[simp] theorem foldInto_bmask : (foldInto s).bmask = bitMask (foldInto s).n2 := rfl
@[simp] theorem foldInto_ivalid : (foldInto s).ivalid = true := rfl
@[simp] theorem foldInto_hit : (foldInto s).hit = s.hit := rfl
@[simp] theorem foldInto_table : (foldInto s).table = s.table := rfl
@[simp] theorem foldInto_maxc : (foldInto s).maxc = s.maxc := rfl
@[simp] theorem foldInto_pw : (foldInto s).pw = s.pw := rfl
@[simp] theorem foldInto_pmode : (foldInto s).pmode = s.pmode := rfl
@[simp] theorem foldInto_pbuf : (foldInto s).pbuf = s.pbuf := rfl
@[simp] theorem foldInto_plen : (foldInto s).plen = s.plen := rfl
@[simp] theorem foldInto_pcur : (foldInto s).pcur = s.pcur := rfl
@[simp] theorem foldInto_err : (foldInto s).err = s.err := rfl
@[simp] theorem foldInto_pending : (foldInto s).pending = s.pending := rfl
@[simp] theorem foldInto_outbox : (foldInto s).outbox = s.outbox := rfl

/-! ## The responses -/

@[simp] theorem okResponse_err (d : Word) (f : Byte) (p : List Byte) : (okResponse d f p).err = 0#8 := rfl
@[simp] theorem okResponse_flags (d : Word) (f : Byte) (p : List Byte) : (okResponse d f p).flags = f := rfl
@[simp] theorem okResponse_data (d : Word) (f : Byte) (p : List Byte) : (okResponse d f p).data = d := rfl
@[simp] theorem okResponse_rpayload (d : Word) (f : Byte) (p : List Byte) :
    (okResponse d f p).rpayload = p := rfl
@[simp] theorem errorResponse_flags (e : ErrorCode) : (errorResponse e).flags = 0#8 := rfl
@[simp] theorem errorResponse_data (e : ErrorCode) : (errorResponse e).data = 0#32 := rfl
@[simp] theorem errorResponse_rpayload (e : ErrorCode) : (errorResponse e).rpayload = [] := rfl

/-- Every error's code is one of 1 to 7 (R171). -/
theorem errorCodeNumber_range (e : ErrorCode) : 1 ≤ errorCodeNumber e ∧ errorCodeNumber e ≤ 7 := by
  cases e <;> decide

/-- The code in an error's response is that error's number. -/
theorem errorResponse_err_toNat (e : ErrorCode) : (errorResponse e).err.toNat = errorCodeNumber e := by
  cases e <;> rfl

theorem errorResponse_err_ne_zero (e : ErrorCode) : (errorResponse e).err ≠ 0#8 := by
  cases e <;> decide

/-! ## What completing a command and taking an error do, once and for all -/

/-- `respond` answers a next state: the given one with one successful response more. -/
theorem respond_next {t u : State} {d : Word} (h : respond t d = .next u) :
    u = t.emit (okResponse d 0#8 []) := by
  cases h; rfl

/-- `respondWith` answers a next state: the given one with one successful response more. -/
theorem respondWith_next {t u : State} {d : Word} {f : Byte} {p : List Byte}
    (h : respondWith t d f p = .next u) : u = t.emit (okResponse d f p) := by
  cases h; rfl

/-- `raise` answers a next state: the error's bit set in ERR and the error response (R183). -/
theorem raise_next {e : ErrorCode} {t u : State} (h : raise e t = .next u) : u = t.withError e := by
  cases h; rfl

end Sys2Proof.Machine
end

