-- ==== Sys2Proof/Laws/Meanings.lean ====
section
/-!
SUPPORT. Inversion lemmas: if a command's meaning answers a next state, then either an error was
taken (which one, and nothing else) or the command had its effect, under its conditions. Then the
same for one step.
-/

namespace Sys2Proof.Machine

variable {s t : State}

/-! ## One command -/

theorem execRdreg_next {imm : Half} (h : execRdreg imm s = .next t) :
    (regOfNumber imm.toNat = none ∧ t = s.withError .operand) ∨
    (∃ r, regOfNumber imm.toNat = some r ∧ t = s.emit (okResponse (readReg s r) 0#8 [])) := by
  unfold execRdreg at h
  split at h
  · next hr => exact .inl ⟨hr, raise_next h⟩
  · next r hr => exact .inr ⟨r, hr, respond_next h⟩

theorem execClrerr_next (h : execClrerr s = .next t) :
    t = ({ s with err := 0#8 } : State).emit (okResponse (s.err.setWidth 32) 0#8 []) :=
  respond_next h

theorem execSrst_next (h : execSrst s = .next t) :
    t = ({ State.reset with pending := s.pending, outbox := s.outbox } : State).emit
      (okResponse 0#32 0#8 []) :=
  respond_next h

theorem execHinit_next {imm : Half} (h : execHinit imm s = .next t) :
    ((imm.toNat < 1 ∨ 4 < imm.toNat) ∧ t = s.withError .operand) ∨
    (1 ≤ imm.toNat ∧ imm.toNat ≤ 4 ∧
      t = ({ s with
        bc := Fin.ofNat 5 imm.toNat, acc := accZero, lane := 0, hstate := .absorb,
        ivalid := false } : State).emit (okResponse (imm.setWidth 32) 0#8 [])) := by
  unfold execHinit at h
  split at h
  · next hc => rw [Config.nacc_eq] at hc; exact .inl ⟨hc, raise_next h⟩
  · next hc => rw [Config.nacc_eq] at hc; exact .inr ⟨by omega, by omega, respond_next h⟩

theorem execHabs_next {imm : Half} (h : execHabs imm s = .next t) :
    (255 < imm.toNat ∧ t = s.withError .operand) ∨
    (imm.toNat ≤ 255 ∧ s.hstate ≠ .absorb ∧ t = s.withError .seq) ∨
    (imm.toNat ≤ 255 ∧ s.hstate = .absorb ∧
      t = (absorbInto s [imm.extractLsb 7 0]).emit (okResponse 0#32 0#8 [])) := by
  unfold execHabs at h
  split at h
  · next hc => exact .inl ⟨hc, raise_next h⟩
  · next hc =>
    split at h
    · next hs => exact .inr (.inl ⟨by omega, hs, raise_next h⟩)
    · next hs => exact .inr (.inr ⟨by omega, not_not.mp hs, respond_next h⟩)

theorem execHabsn_next {p : List Byte} (h : execHabsn p s = .next t) :
    (s.hstate ≠ .absorb ∧ t = s.withError .seq) ∨
    (s.hstate = .absorb ∧ t = (absorbInto s p).emit (okResponse 0#32 0#8 [])) := by
  unfold execHabsn at h
  split at h
  · next hs => exact .inl ⟨hs, raise_next h⟩
  · next hs => exact .inr ⟨not_not.mp hs, respond_next h⟩

theorem execHfin_next (h : execHfin s = .next t) :
    (s.hstate ≠ .absorb ∧ t = s.withError .seq) ∨
    (s.hstate = .absorb ∧
      t = ({ s with acc := accMapBelow s.bc.val finalize s.acc, hstate := .final } : State).emit
        (okResponse 0#32 0#8 [])) := by
  unfold execHfin at h
  split at h
  · next hs => exact .inl ⟨hs, raise_next h⟩
  · next hs => exact .inr ⟨not_not.mp hs, respond_next h⟩

theorem execHrdd_next {imm : Half} (h : execHrdd imm s = .next t) :
    (s.hstate ≠ .final ∧ t = s.withError .seq) ∨
    (s.hstate = .final ∧ 4 * s.bc.val ≤ imm.toNat ∧ t = s.withError .operand) ∨
    (s.hstate = .final ∧ imm.toNat < 4 * s.bc.val ∧
      t = s.emit (okResponse ((digestByte s.acc imm.toNat).setWidth 32) 0#8 [])) := by
  unfold execHrdd at h
  split at h
  · next hs => exact .inl ⟨hs, raise_next h⟩
  · next hs =>
    split at h
    · next hc => exact .inr (.inl ⟨not_not.mp hs, hc, raise_next h⟩)
    · next hc => exact .inr (.inr ⟨not_not.mp hs, by omega, respond_next h⟩)

theorem execFold_next (h : execFold s = .next t) :
    ((s.hstate ≠ .final ∨ s.bc.val ≠ 4) ∧ t = s.withError .seq) ∨
    (s.hstate = .final ∧ s.bc.val = 4 ∧
      t = (foldInto s).emit (okResponse (coordView (foldInto s).bmask (foldInto s).widx) 0#8 [])) := by
  unfold execFold at h
  split at h
  · next hc => exact .inl ⟨hc, raise_next h⟩
  · next hc =>
    rw [not_or, not_not, not_not] at hc
    exact .inr ⟨hc.1, hc.2, respond_next h⟩

theorem execTadd_next (h : execTadd s = .next t) :
    (s.ivalid = false ∧ t = s.withError .seq) ∨
    (s.ivalid = true ∧
      t = ({ s with
        table := tableSetWord s.table s.widx.toNat
          (tableWord s.table s.widx.toNat ||| s.bmask) } : State).emit (okResponse 0#32 0#8 [])) := by
  unfold execTadd at h
  split at h
  · next hs => exact .inl ⟨hs, raise_next h⟩
  · next hs => exact .inr ⟨by simpa using hs, respond_next h⟩

theorem execTchk_next (h : execTchk s = .next t) :
    (s.ivalid = false ∧ t = s.withError .seq) ∨
    (s.ivalid = true ∧ ∃ hit, hit = hitFlag (tableWord s.table s.widx.toNat) s.bmask ∧
      t = ({ s with hit := hit } : State).emit
        (okResponse ((BitVec.ofBool hit).setWidth 32) (responseFlags hit false) [])) := by
  unfold execTchk at h
  split at h
  · next hs => exact .inl ⟨hs, raise_next h⟩
  · next hs => exact .inr ⟨by simpa using hs, _, rfl, respondWith_next h⟩

theorem execTclr_next (h : execTclr s = .next t) :
    t = ({ s with table := [] } : State).emit (okResponse 0#32 0#8 []) :=
  respond_next h

theorem execTget_next {imm : Half} (h : execTget imm s = .next t) :
    t = s.emit (okResponse (BitVec.ofNat 32 (clampLength imm.toNat))
      (responseFlags false (lenMismatch imm.toNat))
      (memReadBytes s.table 0 (clampLength imm.toNat))) :=
  respondWith_next h

theorem execTset_next {p : List Byte} (h : execTset p s = .next t) :
    t = ({ s with table := memWriteBytes s.table 0 (p.take (clampLength p.length)) } : State).emit
      (okResponse (BitVec.ofNat 32 (clampLength p.length))
        (responseFlags false (lenMismatch p.length)) []) :=
  respondWith_next h

theorem execTmrg_next {p : List Byte} (h : execTmrg p s = .next t) :
    t = ({ s with table := memOrBytes s.table 0 (p.take (clampLength p.length)) } : State).emit
      (okResponse (BitVec.ofNat 32 (clampLength p.length))
        (responseFlags false (lenMismatch p.length)) []) :=
  respondWith_next h

theorem execWrst_next (h : execWrst s = .next t) :
    t = ({ s with maxc := 0#16 } : State).emit (okResponse 0#32 0#8 []) :=
  respond_next h

theorem execWobs_next {imm : Half} (h : execWobs imm s = .next t) :
    t = ({ s with maxc := maxCode s.maxc imm } : State).emit
      (okResponse ((maxCode s.maxc imm).setWidth 32) 0#8 []) :=
  respond_next h

theorem execPbegin_next {imm : Half} (h : execPbegin imm s = .next t) :
    (16 < imm.toNat ∧ t = s.withError .operand) ∨
    (imm.toNat ≤ 16 ∧ ∃ w, w = beginWidth imm s.maxc ∧
      t = ({ s with
        pw := BitVec.ofNat 5 w, pbuf := memWrite [] 0 (BitVec.ofNat 8 w), plen := 1, pcur := 0#14,
        pmode := .pack } : State).emit (okResponse (BitVec.ofNat 32 w) 0#8 [])) := by
  unfold execPbegin at h
  split at h
  · next hc => rw [Config.cw_eq] at hc; exact .inl ⟨hc, raise_next h⟩
  · next hc => rw [Config.cw_eq] at hc; exact .inr ⟨by omega, _, rfl, respond_next h⟩

theorem execPput_next {imm : Half} (h : execPput imm s = .next t) :
    (s.pmode ≠ .pack ∧ t = s.withError .seq) ∨
    (s.pmode = .pack ∧ 2 ^ s.pw.toNat ≤ imm.toNat ∧ t = s.withError .range) ∨
    (s.pmode = .pack ∧ imm.toNat < 2 ^ s.pw.toNat ∧
      1024 < packedLength (s.pcur.toNat + s.pw.toNat) ∧ t = s.withError .overflow) ∨
    (s.pmode = .pack ∧ imm.toNat < 2 ^ s.pw.toNat ∧
      packedLength (s.pcur.toNat + s.pw.toNat) ≤ 1024 ∧
      t = ({ s with
        pbuf := putCodeBits s.pbuf s.pcur.toNat imm s.pw.toNat
        pcur := BitVec.ofNat 14 (s.pcur.toNat + s.pw.toNat)
        plen := Fin.ofNat 1025 (packedLength (s.pcur.toNat + s.pw.toNat)) } : State).emit
          (okResponse (BitVec.ofNat 32 (packedLength (s.pcur.toNat + s.pw.toNat))) 0#8 [])) := by
  unfold execPput at h
  split at h
  · next hs => exact .inl ⟨hs, raise_next h⟩
  · next hs =>
    have hp := not_not.mp hs
    split at h
    · next hr => exact .inr (.inl ⟨hp, hr, raise_next h⟩)
    · next hr =>
      split at h
      · next ho => rw [Config.pbufBytes_eq] at ho; exact .inr (.inr (.inl ⟨hp, by omega, ho, raise_next h⟩))
      · next ho => rw [Config.pbufBytes_eq] at ho; exact .inr (.inr (.inr ⟨hp, by omega, by omega, respond_next h⟩))

theorem execPget_next (h : execPget s = .next t) :
    (s.pmode = .idle ∧ t = s.withError .seq) ∨
    (s.pmode ≠ .idle ∧
      t = s.emit (okResponse (BitVec.ofNat 32 s.plen.val) 0#8
        (memReadBytes s.pbuf 0 s.plen.val))) := by
  unfold execPget at h
  split at h
  · next hs => exact .inl ⟨hs, raise_next h⟩
  · next hs => exact .inr ⟨hs, respondWith_next h⟩

theorem execUbegin_next {p : List Byte} (h : execUbegin p s = .next t) :
    (1024 < p.length ∧ t = s.withError .overflow) ∨
    (p.length ≤ 1024 ∧ p = [] ∧ t = s.withError .decodeHdr) ∨
    (∃ header codes, p = header :: codes ∧ p.length ≤ 1024 ∧
      (header.toNat = 0 ∨ 16 < header.toNat) ∧ t = s.withError .decodeHdr) ∨
    (∃ header codes, p = header :: codes ∧ p.length ≤ 1024 ∧
      1 ≤ header.toNat ∧ header.toNat ≤ 16 ∧
      t = ({ s with
        pbuf := memWriteBytes [] 0 (header :: codes), plen := Fin.ofNat 1025 (codes.length + 1)
        pw := header.setWidth 5, pcur := 0#14, pmode := .unpack } : State).emit
          (okResponse (BitVec.ofNat 32 (8 * codes.length / header.toNat)) 0#8 [])) := by
  unfold execUbegin at h
  split at h
  · next hl => rw [Config.pbufBytes_eq] at hl; exact .inl ⟨hl, raise_next h⟩
  · next hl =>
    rw [Config.pbufBytes_eq] at hl
    cases p with
    | nil => exact .inr (.inl ⟨by omega, rfl, raise_next h⟩)
    | cons header codes =>
      simp only at h
      split at h
      · next hw => rw [Config.cw_eq] at hw; exact .inr (.inr (.inl ⟨header, codes, rfl, by omega, hw, raise_next h⟩))
      · next hw =>
        rw [Config.cw_eq] at hw
        exact .inr (.inr (.inr ⟨header, codes, rfl, by omega, by omega, by omega, respond_next h⟩))

theorem execUget_next (h : execUget s = .next t) :
    (s.pmode ≠ .unpack ∧ t = s.withError .seq) ∨
    (s.pmode = .unpack ∧ 8 * (s.plen.val - 1) < s.pcur.toNat + s.pw.toNat ∧
      t = s.withError .eos) ∨
    (s.pmode = .unpack ∧ s.pcur.toNat + s.pw.toNat ≤ 8 * (s.plen.val - 1) ∧
      t = ({ s with pcur := BitVec.ofNat 14 (s.pcur.toNat + s.pw.toNat) } : State).emit
        (okResponse (getCodeBits s.pbuf s.pcur.toNat s.pw.toNat) 0#8 [])) := by
  unfold execUget at h
  split at h
  · next hs => exact .inl ⟨hs, raise_next h⟩
  · next hs =>
    split at h
    · next he => exact .inr (.inl ⟨not_not.mp hs, he, raise_next h⟩)
    · next he => exact .inr (.inr ⟨not_not.mp hs, by omega, respond_next h⟩)

/-! ## One step -/

/-- A step that answers a next state: no frame was presented and nothing changed, or the oldest frame
was taken and either executed as the command it decodes to or answered with E_ILLEGAL. -/
theorem step_next (h : step s = .next t) :
    (s.pending = [] ∧ t = s) ∨
    (∃ f rest i, s.pending = f :: rest ∧ decodeFrame f = .ok i ∧
      exec i { s with pending := rest } = .next t) ∨
    (∃ f rest why, s.pending = f :: rest ∧ decodeFrame f = .error why ∧
      t = ({ s with pending := rest } : State).withError .illegal) := by
  unfold step fetchFrame at h
  cases hp : s.pending with
  | nil =>
    rw [hp] at h
    cases h
    exact .inl ⟨rfl, rfl⟩
  | cons f rest =>
    rw [hp] at h
    simp only at h
    cases hd : decodeFrame f with
    | ok i => rw [hd] at h; exact .inr (.inl ⟨f, rest, i, rfl, hd, h⟩)
    | error why => rw [hd] at h; exact .inr (.inr ⟨f, rest, why, rfl, hd, raise_next h⟩)

end Sys2Proof.Machine
end

