-- ==== Sys2Proof/Laws/Memory.lean ====
section
/-!
SUPPORT. What the memory operations do: read after write, the canonical form is kept, equal contents
are equal lists, and the spec of each view (table words, payload bits).
-/

namespace Sys2Proof.Machine

/-! ## Read after write: it holds of every list, canonical or not -/

@[simp] theorem memRead_nil (a : Nat) : memRead [] a = 0#8 := rfl

theorem memRead_memErase (m : Mem) (a x : Nat) :
    memRead (memErase m a) x = if x = a then 0#8 else memRead m x := by
  induction m with
  | nil => simp [memErase, memRead]
  | cons c m ih =>
    obtain ⟨b, u⟩ := c
    unfold memErase at ih ⊢
    by_cases hb : b = a
    · subst hb
      by_cases hx : x = b
      · subst hx; simpa using ih
      · have : ¬ b = x := fun h => hx h.symm
        simp [memRead, ih, hx, this]
    · by_cases hx : b = x
      · subst hx; simp [memRead, hb]
      · simp [memRead, hb, hx, ih]

theorem memRead_memInsert (m : Mem) (a x : Nat) (v : Byte) :
    memRead (memInsert m a v) x = if x = a then v else memRead m x := by
  induction m with
  | nil => simp [memInsert, memRead, eq_comm]
  | cons c m ih =>
    obtain ⟨b, u⟩ := c
    unfold memInsert
    split_ifs <;> simp only [memRead, ih] <;> split_ifs <;> first | rfl | omega

/-- A read after a write: the byte written at its address, every other byte as it was. -/
theorem memRead_memWrite (m : Mem) (a x : Nat) (v : Byte) :
    memRead (memWrite m a v) x = if x = a then v else memRead m x := by
  unfold memWrite
  split
  · next h => rw [memRead_memErase, h]
  · exact memRead_memInsert m a x v

@[simp] theorem memRead_memWrite_self (m : Mem) (a : Nat) (v : Byte) :
    memRead (memWrite m a v) a = v := by simp [memRead_memWrite]

theorem memRead_memWrite_of_ne (m : Mem) {a x : Nat} (v : Byte) (h : x ≠ a) :
    memRead (memWrite m a v) x = memRead m x := by simp [memRead_memWrite, h]

/-- A read after a block write. -/
theorem memRead_memWriteBytes (m : Mem) (a x : Nat) (bs : List Byte) :
    memRead (memWriteBytes m a bs) x =
      if a ≤ x ∧ x < a + bs.length then bs.getD (x - a) 0#8 else memRead m x := by
  induction bs generalizing m a with
  | nil =>
    rw [memWriteBytes, if_neg (by simp)]
  | cons b bs ih =>
    rw [memWriteBytes, ih, memRead_memWrite]
    by_cases hx : x = a
    · subst hx; simp
    · by_cases h : a + 1 ≤ x ∧ x < a + 1 + bs.length
      · rw [if_pos h, if_pos (by simp; omega), show x - a = (x - (a + 1)) + 1 by omega,
          List.getD_cons_succ]
      · rw [if_neg h, if_neg hx, if_neg (by simp; omega)]

/-- A read after a block OR. -/
theorem memRead_memOrBytes (m : Mem) (a x : Nat) (bs : List Byte) :
    memRead (memOrBytes m a bs) x =
      if a ≤ x ∧ x < a + bs.length then memRead m x ||| bs.getD (x - a) 0#8 else memRead m x := by
  induction bs generalizing m a with
  | nil =>
    rw [memOrBytes, if_neg (by simp)]
  | cons b bs ih =>
    rw [memOrBytes, ih, memRead_memWrite]
    by_cases hx : x = a
    · subst hx; simp
    · by_cases h : a + 1 ≤ x ∧ x < a + 1 + bs.length
      · rw [if_pos h, if_neg hx, if_pos (by simp; omega),
          show x - a = (x - (a + 1)) + 1 by omega, List.getD_cons_succ]
      · rw [if_neg h, if_neg hx, if_neg (by simp; omega)]

/-! ## Reading a block -/

@[simp] theorem memReadBytes_length (m : Mem) (a n : Nat) : (memReadBytes m a n).length = n := by
  induction n generalizing a with
  | zero => rfl
  | succ n ih => simp [memReadBytes, ih]

theorem memReadBytes_getElem? (m : Mem) (a n i : Nat) :
    (memReadBytes m a n)[i]? = if i < n then some (memRead m (a + i)) else none := by
  induction n generalizing a i with
  | zero => simp [memReadBytes]
  | succ n ih =>
    cases i with
    | zero => simp [memReadBytes]
    | succ i => simp [memReadBytes, ih, Nat.add_assoc, Nat.add_comm 1 i]

/-! ## The canonical form -/

theorem memWfFrom_mono {size lo lo' : Nat} {m : Mem} (h : lo' ≤ lo)
    (hm : memWfFrom size lo m = true) : memWfFrom size lo' m = true := by
  cases m with
  | nil => rfl
  | cons c m =>
    obtain ⟨b, u⟩ := c
    simp only [memWfFrom, Bool.and_eq_true, decide_eq_true_eq] at hm ⊢
    exact ⟨⟨⟨by omega, hm.1.1.2⟩, hm.1.2⟩, hm.2⟩

/-- Nothing below a canonical memory's lower bound is listed. -/
theorem memRead_of_lt {size lo a : Nat} {m : Mem} (hm : memWfFrom size lo m = true) (h : a < lo) :
    memRead m a = 0#8 := by
  induction m generalizing lo with
  | nil => rfl
  | cons c m ih =>
    obtain ⟨b, u⟩ := c
    simp only [memWfFrom, Bool.and_eq_true, decide_eq_true_eq] at hm
    have hb : ¬ b = a := by omega
    simp only [memRead, hb, if_false]
    exact ih hm.2 (by omega)

/-- Nothing at or above the size of a canonical memory is listed. -/
theorem memRead_of_ge {size lo a : Nat} {m : Mem} (hm : memWfFrom size lo m = true) (h : size ≤ a) :
    memRead m a = 0#8 := by
  induction m generalizing lo with
  | nil => rfl
  | cons c m ih =>
    obtain ⟨b, u⟩ := c
    simp only [memWfFrom, Bool.and_eq_true, decide_eq_true_eq] at hm
    have hb : ¬ b = a := by omega
    simp only [memRead, hb, if_false]
    exact ih hm.2

theorem memWfFrom_memErase {size lo : Nat} {m : Mem} (a : Nat) (hm : memWfFrom size lo m = true) :
    memWfFrom size lo (memErase m a) = true := by
  induction m generalizing lo with
  | nil => rfl
  | cons c m ih =>
    obtain ⟨b, u⟩ := c
    simp only [memWfFrom, Bool.and_eq_true, decide_eq_true_eq] at hm
    unfold memErase at ih ⊢
    by_cases hb : b = a
    · simpa [hb] using memWfFrom_mono (by omega) (ih hm.2)
    · simp [hb, memWfFrom, hm.1, ih hm.2]

theorem memWfFrom_memInsert {size lo a : Nat} {m : Mem} {v : Byte} (hlo : lo ≤ a) (ha : a < size)
    (hv : v ≠ 0#8) (hm : memWfFrom size lo m = true) : memWfFrom size lo (memInsert m a v) = true := by
  induction m generalizing lo with
  | nil => simp [memInsert, memWfFrom, hlo, ha, hv]
  | cons c m ih =>
    obtain ⟨b, u⟩ := c
    simp only [memWfFrom, Bool.and_eq_true, decide_eq_true_eq] at hm
    obtain ⟨⟨⟨h1, h2⟩, h3⟩, h4⟩ := hm
    unfold memInsert
    split_ifs with hab hab'
    · simp only [memWfFrom, Bool.and_eq_true, decide_eq_true_eq]
      exact ⟨⟨⟨hlo, ha⟩, hv⟩, ⟨⟨by omega, h2⟩, h3⟩, h4⟩
    · subst hab'
      simp only [memWfFrom, Bool.and_eq_true, decide_eq_true_eq]
      exact ⟨⟨⟨hlo, ha⟩, hv⟩, h4⟩
    · simp only [memWfFrom, Bool.and_eq_true, decide_eq_true_eq]
      exact ⟨⟨⟨h1, h2⟩, h3⟩, ih (by omega) h4⟩

@[simp] theorem memWf_nil (size : Nat) : memWf size [] = true := rfl

/-- A write inside the memory keeps the canonical form. -/
theorem memWf_memWrite {size a : Nat} {m : Mem} (v : Byte) (ha : a < size)
    (hm : memWf size m = true) : memWf size (memWrite m a v) = true := by
  unfold memWf memWrite at *
  split
  · exact memWfFrom_memErase a hm
  · next h => exact memWfFrom_memInsert (Nat.zero_le a) ha h hm

theorem memWf_memWriteBytes {size a : Nat} {m : Mem} {bs : List Byte} (ha : a + bs.length ≤ size)
    (hm : memWf size m = true) : memWf size (memWriteBytes m a bs) = true := by
  induction bs generalizing m a with
  | nil => exact hm
  | cons b bs ih =>
    simp only [List.length_cons] at ha
    exact ih (by omega) (memWf_memWrite b (by omega) hm)

theorem memWf_memOrBytes {size a : Nat} {m : Mem} {bs : List Byte} (ha : a + bs.length ≤ size)
    (hm : memWf size m = true) : memWf size (memOrBytes m a bs) = true := by
  induction bs generalizing m a with
  | nil => exact hm
  | cons b bs ih =>
    simp only [List.length_cons] at ha
    exact ih (by omega) (memWf_memWrite _ (by omega) hm)

theorem memWf_tableSetWord {t : Mem} {w : Nat} (v : Half) (hw : w < 256)
    (ht : memWf 512 t = true) : memWf 512 (tableSetWord t w v) = true :=
  memWf_memWrite _ (by omega) (memWf_memWrite _ (by omega) ht)

theorem memWf_setPayloadBit {size p : Nat} {m : Mem} (v : Bool) (hp : 1 + p / 8 < size)
    (hm : memWf size m = true) : memWf size (setPayloadBit m p v) = true :=
  memWf_memWrite _ hp hm

theorem memWf_putCodeBits {size cur n : Nat} {m : Mem} (c : Half)
    (hp : 1 + (cur + n + 7) / 8 ≤ size) (hm : memWf size m = true) :
    memWf size (putCodeBits m cur c n) = true := by
  induction n with
  | zero => exact hm
  | succ n ih => exact memWf_setPayloadBit _ (by omega) (ih (by omega))

/-- Two canonical memories with the same contents are the same list. -/
theorem mem_ext {size lo : Nat} {m m' : Mem} (hm : memWfFrom size lo m = true)
    (hm' : memWfFrom size lo m' = true) (h : ∀ a, memRead m a = memRead m' a) : m = m' := by
  induction m generalizing lo m' with
  | nil =>
    cases m' with
    | nil => rfl
    | cons c m' =>
      obtain ⟨b, u⟩ := c
      simp only [memWfFrom, Bool.and_eq_true, decide_eq_true_eq] at hm'
      have := h b
      simp only [memRead, if_true] at this
      exact absurd this.symm hm'.1.2
  | cons c m ih =>
    obtain ⟨b, u⟩ := c
    have hm0 := hm
    simp only [memWfFrom, Bool.and_eq_true, decide_eq_true_eq] at hm
    cases m' with
    | nil =>
      have := h b
      simp only [memRead, if_true] at this
      exact absurd this hm.1.2
    | cons c' m' =>
      obtain ⟨b', u'⟩ := c'
      have hm0' := hm'
      simp only [memWfFrom, Bool.and_eq_true, decide_eq_true_eq] at hm'
      have hb : b = b' := by
        rcases Nat.lt_trichotomy b b' with hlt | heq | hgt
        · have h1 := h b
          have hne : ¬ b' = b := by omega
          simp only [memRead, if_true, hne, if_false] at h1
          exact absurd (h1.trans (memRead_of_lt hm'.2 (by omega))) hm.1.2
        · exact heq
        · have h1 := h b'
          have hne : ¬ b = b' := by omega
          simp only [memRead, if_true, hne, if_false] at h1
          exact absurd (h1.symm.trans (memRead_of_lt hm.2 (by omega))) hm'.1.2
      subst hb
      have hu : u = u' := by simpa [memRead] using h b
      subst hu
      have htail : m = m' := ih hm.2 hm'.2 fun a => by
        by_cases ha : b = a
        · subst ha
          rw [memRead_of_lt hm.2 (by omega), memRead_of_lt hm'.2 (by omega)]
        · simpa [memRead, ha] using h a
      rw [htail]

/-! ## Table words (R51) -/

/-- A 16-bit value is its high byte before its low byte. -/
theorem extractLsb_append_halves (v : Half) : v.extractLsb 15 8 ++ v.extractLsb 7 0 = v := by
  apply BitVec.eq_of_getLsbD_eq
  intro i hi
  rw [BitVec.getLsbD_append]
  by_cases h : i < 8
  · simp [h]
  · simp [h, show 8 + (i - 8) = i by omega]; omega

/-- A table word read after a table word written. -/
theorem tableWord_tableSetWord (t : Mem) (w x : Nat) (v : Half) :
    tableWord (tableSetWord t w v) x = if x = w then v else tableWord t x := by
  unfold tableWord tableSetWord
  by_cases h : x = w
  · subst h
    have h1 : ¬ (2 * x : Nat) = 2 * x + 1 := by omega
    simp only [memRead_memWrite, if_true, h1, if_false]
    exact extractLsb_append_halves v
  · have h1 : ¬ 2 * x + 1 = 2 * w + 1 := by omega
    have h2 : ¬ 2 * x + 1 = 2 * w := by omega
    have h3 : ¬ 2 * x = 2 * w + 1 := by omega
    have h4 : ¬ 2 * x = 2 * w := by omega
    simp only [memRead_memWrite, h, h1, h2, h3, h4, if_false]

/-- Writing table word `w` leaves every byte but `2w` and `2w+1` as it was. -/
theorem memRead_tableSetWord_of_ne (t : Mem) {w a : Nat} (v : Half) (h0 : a ≠ 2 * w)
    (h1 : a ≠ 2 * w + 1) : memRead (tableSetWord t w v) a = memRead t a := by
  simp [tableSetWord, memRead_memWrite, h0, h1]

/-! ## Payload bits (R60) -/

theorem getLsbD_byteSetBit (b : Byte) {i j : Nat} (v : Bool) (hj : j < 8) :
    (byteSetBit b i v).getLsbD j = if j = i then v else b.getLsbD j := by
  unfold byteSetBit
  by_cases h : j = i
  · subst h; cases v <;> simp [hj]
  · have : (1#8 <<< i).getLsbD j = false := by
      simp only [BitVec.getLsbD_shiftLeft, hj, decide_true, Bool.true_and, BitVec.getLsbD_one]
      by_cases hji : j < i
      · simp [hji]
      · have : ¬ j - i = 0 := by omega
        simp [this]
    rw [if_neg h]
    cases v
    · simp only [Bool.false_eq_true, if_false, BitVec.getLsbD_and, BitVec.getLsbD_not, this]; simp [hj]
    · simp only [if_true, BitVec.getLsbD_or, this, Bool.or_false]

/-- A payload bit read after a payload bit written. -/
theorem payloadBit_setPayloadBit (m : Mem) (p q : Nat) (v : Bool) :
    payloadBit (setPayloadBit m p v) q = if q = p then v else payloadBit m q := by
  unfold payloadBit setPayloadBit
  rw [memRead_memWrite]
  by_cases hq : q / 8 = p / 8
  · rw [if_pos (by omega), getLsbD_byteSetBit _ _ (by omega)]
    by_cases h : q = p
    · subst h; simp
    · have : ¬ q % 8 = p % 8 := by omega
      simp [h, this, hq]
  · have h : ¬ q = p := fun h => hq (by rw [h])
    rw [if_neg (by omega), if_neg h]

/-- Payload bits after a code of `n` bits is put at `cur` (R124): the code's bits there, every other
bit as it was. -/
theorem payloadBit_putCodeBits (m : Mem) (cur : Nat) (c : Half) (n q : Nat) :
    payloadBit (putCodeBits m cur c n) q =
      if cur ≤ q ∧ q < cur + n then c.getLsbD (q - cur) else payloadBit m q := by
  induction n with
  | zero =>
    rw [putCodeBits, if_neg (by omega)]
  | succ n ih =>
    rw [putCodeBits, payloadBit_setPayloadBit, ih]
    by_cases h : q = cur + n
    · rw [if_pos h, if_pos (by omega), show q - cur = n by omega]
    · rw [if_neg h]
      by_cases h' : cur ≤ q ∧ q < cur + n
      · rw [if_pos h', if_pos (by omega)]
      · rw [if_neg h', if_neg (by omega)]

/-- Putting a code leaves the header byte as it was. -/
theorem memRead_putCodeBits_header (m : Mem) (cur : Nat) (c : Half) (n : Nat) :
    memRead (putCodeBits m cur c n) 0 = memRead m 0 := by
  induction n with
  | zero => rfl
  | succ n ih =>
    rw [putCodeBits, setPayloadBit, memRead_memWrite_of_ne _ _ (by omega), ih]

/-- Putting a code leaves the bytes beyond its last bit's byte as they were. -/
theorem memRead_putCodeBits_of_ge (m : Mem) (cur : Nat) (c : Half) (n a : Nat)
    (ha : 1 + (cur + n + 7) / 8 ≤ a) : memRead (putCodeBits m cur c n) a = memRead m a := by
  induction n with
  | zero => rfl
  | succ n ih =>
    rw [putCodeBits, setPayloadBit, memRead_memWrite_of_ne _ _ (by omega), ih (by omega)]

/-- Putting a code leaves the bytes before its first bit's byte as they were. -/
theorem memRead_putCodeBits_of_lt (m : Mem) (cur : Nat) (c : Half) (n a : Nat)
    (ha : a < 1 + cur / 8) : memRead (putCodeBits m cur c n) a = memRead m a := by
  induction n with
  | zero => rfl
  | succ n ih => rw [putCodeBits, setPayloadBit, memRead_memWrite_of_ne _ _ (by omega), ih]

/-- The bits of a code read from the payload (R127). -/
theorem getLsbD_getCodeBits (m : Mem) (cur n b : Nat) (hn : n ≤ 32) :
    (getCodeBits m cur n).getLsbD b = (decide (b < n) && payloadBit m (cur + b)) := by
  induction n with
  | zero => simp [getCodeBits]
  | succ n ih =>
    rw [getCodeBits, BitVec.getLsbD_or, ih (by omega)]
    have hone : (1#32 <<< n).getLsbD b = decide (b = n) := by
      rw [BitVec.getLsbD_shiftLeft, BitVec.getLsbD_one]
      rcases Nat.lt_trichotomy b n with h | h | h
      · simp [h, show ¬ b = n by omega]
      · subst h; simp; omega
      · simp [show ¬ b - n = 0 by omega, show ¬ b = n by omega]
    by_cases h : b = n
    · subst h
      cases hp : payloadBit m (cur + b) <;> simp [hone]
    · have hlt : decide (b < n + 1) = decide (b < n) := by
        apply decide_eq_decide.mpr; omega
      rw [hlt]
      cases hp : payloadBit m (cur + n)
      · simp only [Bool.false_eq_true, if_false]; simp
      · simp only [if_true]; rw [hone]; simp [h]

/-- A byte is its eight payload bits: equal payload bits are equal payload bytes. -/
theorem memRead_eq_of_payloadBit {m m' : Mem} {a : Nat} (ha : 1 ≤ a)
    (h : ∀ p, payloadBit m p = payloadBit m' p) : memRead m a = memRead m' a := by
  ext i hi
  have := h (8 * (a - 1) + i)
  unfold payloadBit at this
  rw [show 1 + (8 * (a - 1) + i) / 8 = a by omega, show (8 * (a - 1) + i) % 8 = i by omega] at this
  simpa [BitVec.getLsbD_eq_getElem, hi] using this

end Sys2Proof.Machine
end

