-- ==== Sys2Proof/Laws/Operands.lean ====
section
/-!
SUPPORT. The small lemmas of the accumulator file, the absorption of bytes, the width and the mask.
-/

namespace Sys2Proof.Machine

/-! ## The accumulator file -/

theorem accGet_accSet (f : AccFile) (i j : Fin 4) (v : Word) :
    accGet (accSet f i v) j = if j = i then v else accGet f j := by
  fin_cases i <;> fin_cases j <;> rfl

theorem accGet_accMapBelow (n : Nat) (g : Word → Word) (f : AccFile) (i : Fin 4) :
    accGet (accMapBelow n g f) i = if i.val < n then g (accGet f i) else accGet f i := by
  fin_cases i <;> rfl

@[simp] theorem accGet_accZero (i : Fin 4) : accGet accZero i = 0#32 := by
  fin_cases i <;> rfl

/-- Accumulator files with equal accumulators are equal. -/
theorem acc_ext {f g : AccFile} (h : ∀ i : Fin 4, accGet f i = accGet g i) : f = g := by
  obtain ⟨a, b, c, d⟩ := f
  obtain ⟨a', b', c', d'⟩ := g
  have h0 := h 0; have h1 := h 1; have h2 := h 2; have h3 := h 3
  simp only [accGet] at h0 h1 h2 h3
  rw [h0, h1, h2, h3]

/-! ## Absorbing bytes (R93, R94) -/

@[simp] theorem absorbBytes_nil (bc : Fin 5) (h : AccFile × Fin 4) : absorbBytes bc h [] = h := rfl

@[simp] theorem absorbBytes_cons (bc : Fin 5) (h : AccFile × Fin 4) (b : Byte) (bs : List Byte) :
    absorbBytes bc h (b :: bs) = absorbBytes bc (absorbByte bc h b) bs := rfl

theorem absorbBytes_append (bc : Fin 5) (h : AccFile × Fin 4) (bs cs : List Byte) :
    absorbBytes bc h (bs ++ cs) = absorbBytes bc (absorbBytes bc h bs) cs := by
  simp [absorbBytes, List.foldl_append]

/-- The lane stays below the bucket count. -/
theorem nextLane_lt (bc : Fin 5) (lane : Fin 4) (h : 1 ≤ bc.val) : (nextLane bc lane).val < bc.val := by
  have h1 : (lane.val + 1) % bc.val < bc.val := Nat.mod_lt _ (by omega)
  have h2 : bc.val < 5 := bc.isLt
  simp only [nextLane, Fin.ofNat]
  omega

theorem nextLane_val (bc : Fin 5) (lane : Fin 4) (h : 1 ≤ bc.val) :
    (nextLane bc lane).val = (lane.val + 1) % bc.val := by
  have h1 : (lane.val + 1) % bc.val < bc.val := Nat.mod_lt _ (by omega)
  have h2 : bc.val < 5 := bc.isLt
  simp only [nextLane, Fin.ofNat]
  omega

/-! ## Width and mask -/

theorem bitlen_le_iff (x w : Nat) : bitlen x ≤ w ↔ x < 2 ^ w := by
  unfold bitlen
  split
  · next h => subst h; simp
  · next h => rw [← Nat.log2_lt h]; omega

theorem codeWidth_le_sixteen (m : Half) : codeWidth m.toNat ≤ 16 := by
  have := (bitlen_le_iff m.toNat 16).mpr m.isLt
  unfold codeWidth; omega

theorem one_le_codeWidth (m : Nat) : 1 ≤ codeWidth m := by unfold codeWidth; omega

theorem bitMask_toNat (n2 : BitVec 4) : (bitMask n2).toNat = 2 ^ n2.toNat := by
  revert n2; decide

theorem wordIndex_toNat (n0 n1 : BitVec 4) :
    (wordIndex n0 n1).toNat = n0.toNat * 15 + n1.toNat := by
  have h0 := n0.isLt
  have h1 := n1.isLt
  simp only [wordIndex, Config.indexMultiplier_eq, BitVec.toNat_ofNat]
  omega

/-- The packed length is one byte and the bytes its bits need (R35). -/
theorem packedLength_eq (bits : Nat) : packedLength bits = 1 + (bits + 7) / 8 := rfl

end Sys2Proof.Machine
end

