-- ==== Sys2Proof/Laws/PerInstr.lean ====
section
/-!
SUPPORT. Statements for every command, one lemma per constructor.

EncodedFrame: the frame a command encodes to has the command's opcode in bits 31:24, 0 in the
reserved field, 0 in `imm` where R75 asks for it, and a payload of the length R72 gives.
-/

namespace Sys2Proof.Laws.EncodedFrame

/-- The fields of the encoded frame (R70, R72, R75). -/
def Statement (i : Instr) : Prop :=
  (encode i).op = i.op.code ∧ (encode i).rsv = 0#8 ∧
    (i.op.immFree = false → (encode i).imm = 0#16) ∧
    (i.wellFormed = true → (encode i).payload.length = i.op.payloadLength (encode i).imm)

/-- The one proof, for a command whose operand is 0 where it must be. -/
theorem of_imm {i : Instr} (h : i.op.immFree = false → i.imm = 0#16) : Statement i := by
  refine ⟨commandWord_op _ _, commandWord_rsv _ _, fun hf => ?_, fun hw => ?_⟩
  · rw [Frame.imm, encode, commandWord_imm]; exact h hf
  · rw [Frame.imm, encode, commandWord_imm]; exact payload_length_of_wellFormed hw

theorem rdreg (imm : Half) : Statement (.rdreg imm) := of_imm (by simp [Instr.op, Op.immFree])
theorem clrerr : Statement .clrerr := of_imm (fun _ => rfl)
theorem srst : Statement .srst := of_imm (fun _ => rfl)
theorem hinit (imm : Half) : Statement (.hinit imm) := of_imm (by simp [Instr.op, Op.immFree])
theorem habs (imm : Half) : Statement (.habs imm) := of_imm (by simp [Instr.op, Op.immFree])
theorem hfin : Statement .hfin := of_imm (fun _ => rfl)
theorem hrdd (imm : Half) : Statement (.hrdd imm) := of_imm (by simp [Instr.op, Op.immFree])
theorem habsn (payload : List Byte) : Statement (.habsn payload) :=
  of_imm (by simp [Instr.op, Op.immFree])
theorem fold : Statement .fold := of_imm (fun _ => rfl)
theorem tadd : Statement .tadd := of_imm (fun _ => rfl)
theorem tchk : Statement .tchk := of_imm (fun _ => rfl)
theorem tclr : Statement .tclr := of_imm (fun _ => rfl)
theorem tget (imm : Half) : Statement (.tget imm) := of_imm (by simp [Instr.op, Op.immFree])
theorem tset (payload : List Byte) : Statement (.tset payload) :=
  of_imm (by simp [Instr.op, Op.immFree])
theorem tmrg (payload : List Byte) : Statement (.tmrg payload) :=
  of_imm (by simp [Instr.op, Op.immFree])
theorem wrst : Statement .wrst := of_imm (fun _ => rfl)
theorem wobs (imm : Half) : Statement (.wobs imm) := of_imm (by simp [Instr.op, Op.immFree])
theorem pbegin (imm : Half) : Statement (.pbegin imm) := of_imm (by simp [Instr.op, Op.immFree])
theorem pput (imm : Half) : Statement (.pput imm) := of_imm (by simp [Instr.op, Op.immFree])
theorem pget : Statement .pget := of_imm (fun _ => rfl)
theorem ubegin (payload : List Byte) : Statement (.ubegin payload) :=
  of_imm (by simp [Instr.op, Op.immFree])
theorem uget : Statement .uget := of_imm (fun _ => rfl)

end Sys2Proof.Laws.EncodedFrame
end

