-- ==== Sys2Proof/Laws/Programs.lean ====
section
/-!
SUPPORT. What the pseudo-instructions' HABSN commands are (`30_encoding.md` R83; assumption log 14).
-/

namespace Sys2Proof.Machine

/-- The HABSN commands carry, in order, exactly the bytes, each in a payload one frame can carry. -/
theorem absorbCommands_pieces (n : Nat) (bytes : List Byte) (h : bytes.length < n) :
    ∃ pieces : List (List Byte), absorbCommands n bytes = pieces.map .habsn ∧
      pieces.flatten = bytes ∧ ∀ p ∈ pieces, (Instr.habsn p).wellFormed = true := by
  induction n generalizing bytes with
  | zero => omega
  | succ n ih =>
    by_cases hlen : bytes.length < 65536
    · exact ⟨[bytes], by simp [absorbCommands, hlen], by simp,
        by simp [Instr.wellFormed, payloadFits, hlen]⟩
    · obtain ⟨pieces, hc, hf, hw⟩ := ih (bytes.drop 65535) (by rw [List.length_drop]; omega)
      refine ⟨bytes.take 65535 :: pieces, by simp only [absorbCommands, hlen, if_false, hc,
        List.map_cons], by rw [List.flatten_cons, hf, List.take_append_drop], ?_⟩
      intro p hp
      rcases List.mem_cons.mp hp with rfl | hp
      · simp only [Instr.wellFormed, payloadFits, List.length_take, decide_eq_true_eq]; omega
      · exact hw p hp

end Sys2Proof.Machine
end

