-- ==== Sys2Proof/Machine/Assembler.lean ====
section
/-!
DEFINITION. The assembler syntax of `30_encoding.md` R82, on lists of characters: one command per
line, `MNEMONIC`, `MNEMONIC operand` or `MNEMONIC operand, payload`; the operand may be omitted before
a payload and is then the payload's length. "The assembled frame is `cw = (op << 24) | imm` with the
payload as written": nothing is checked that R77 checks. Lexical details R82 leaves open are
assumption log 13.
-/

namespace Sys2Proof.Machine

/-- What a line assembles to. -/
inductive AsmLine where
  /-- Nothing but blanks and a comment. -/
  | blank
  /-- One command frame. -/
  | frame (f : Frame)
  /-- Not a line of the syntax. -/
  | malformed
  deriving DecidableEq, Repr

/-- The mnemonics of R75. -/
def asmMnemonic : Op → String
  | .rdreg => "RDREG"
  | .clrerr => "CLRERR"
  | .srst => "SRST"
  | .hinit => "HINIT"
  | .habs => "HABS"
  | .hfin => "HFIN"
  | .hrdd => "HRDD"
  | .habsn => "HABSN"
  | .fold => "FOLD"
  | .tadd => "TADD"
  | .tchk => "TCHK"
  | .tclr => "TCLR"
  | .tget => "TGET"
  | .tset => "TSET"
  | .tmrg => "TMRG"
  | .wrst => "WRST"
  | .wobs => "WOBS"
  | .pbegin => "PBEGIN"
  | .pput => "PPUT"
  | .pget => "PGET"
  | .ubegin => "UBEGIN"
  | .uget => "UGET"

/-- The register names of R39 with their numbers, for RDREG. -/
def asmRegisters : List (String × Nat) :=
  [("ID", 0x00), ("PARAM", 0x01), ("STATUS", 0x02), ("ERR", 0x03), ("HCFG", 0x04),
   ("ACC0", 0x08), ("ACC1", 0x09), ("ACC2", 0x0A), ("ACC3", 0x0B),
   ("H0", 0x10), ("H1", 0x11), ("NIB", 0x12), ("COORD", 0x13),
   ("PW", 0x18), ("PCUR", 0x19), ("PLEN", 0x1A), ("MAXC", 0x1B), ("WAUTO", 0x1C), ("UREM", 0x1D)]

/-- A blank: space or tab (DESIGN CHOICE, assumption log 13). -/
def asmBlank (c : Char) : Bool := c == ' ' || c == '\t'

/-- The value of a hexadecimal digit, of either case (DESIGN CHOICE, assumption log 13). -/
def asmDigit (c : Char) : Option Nat :=
  let n := c.toNat
  if 48 ≤ n ∧ n ≤ 57 then some (n - 48)
  else if 97 ≤ n ∧ n ≤ 102 then some (n - 87)
  else if 65 ≤ n ∧ n ≤ 70 then some (n - 55)
  else none

/-- The number in base `base` that the digits write after `acc`. -/
def asmDigits (base acc : Nat) : List Char → Option Nat
  | [] => some acc
  | c :: cs =>
    match asmDigit c with
    | none => none
    | some d => if d < base then asmDigits base (acc * base + d) cs else none

/-- A decimal or `0x` hexadecimal number (R82); the `x` in lower case and at least one digit (DESIGN
CHOICE, assumption log 13). -/
def asmNumber : List Char → Option Nat
  | [] => none
  | '0' :: 'x' :: d :: ds => asmDigits 16 0 (d :: ds)
  | cs => asmDigits 10 0 cs

/-- An operand: a number, or for RDREG a register name (R82); one above 65535 makes the line malformed
(DESIGN CHOICE, assumption log 13). -/
def asmOperand (o : Op) (cs : List Char) : Option Half :=
  let value :=
    match o, asmRegisters.find? (fun r => r.1.toList == cs) with
    | .rdreg, some r => some r.2
    | _, _ => asmNumber cs
  match value with
  | some n => if n < 65536 then some (BitVec.ofNat 16 n) else none
  | none => none

/-- The characters of a quoted string after its opening quote, each one byte (R82), and what follows
the closing quote. There are no escapes, a `;` inside is a character, and a character above 127 makes
the line malformed (DESIGN CHOICE, assumption log 13). -/
def asmQuoted : List Char → Option (List Byte × List Char)
  | [] => none
  | '"' :: rest => some ([], rest)
  | c :: cs =>
    if 128 ≤ c.toNat then none
    else (asmQuoted cs).map (fun r => (BitVec.ofNat 8 c.toNat :: r.1, r.2))

/-- The hex bytes of a bracketed list after its opening bracket, and what follows the closing bracket.
R82 shows only `[82 f2 63 2f]` and leaves open whether blanks must separate the bytes. The model's
choice (DESIGN CHOICE, assumption log 13): every byte has two digits, blanks may stand around it and
may be left out, so `[82f2632f]` is the same list, and the empty list is accepted. -/
def asmHexList : List Char → Option (List Byte × List Char)
  | [] => none
  | ']' :: rest => some ([], rest)
  | [_] => none
  | c :: d :: cs =>
    if asmBlank c then asmHexList (d :: cs)
    else
      match asmDigit c, asmDigit d with
      | some h, some l => (asmHexList cs).map (fun r => (BitVec.ofNat 8 (16 * h + l) :: r.1, r.2))
      | _, _ => none

/-- A payload: a quoted string or a bracketed list (R82), with nothing but blanks and a comment after
it (DESIGN CHOICE, assumption log 13). -/
def asmPayload (cs : List Char) : Option (List Byte) :=
  let parsed :=
    match cs with
    | '"' :: rest => asmQuoted rest
    | '[' :: rest => asmHexList rest
    | _ => none
  match parsed with
  | none => none
  | some (bytes, after) =>
    match after.dropWhile asmBlank with
    | [] => some bytes
    | c :: _ => if c == ';' then some bytes else none

/-- A character of the mnemonic or of the operand: these end at a blank, a comma or a comment (DESIGN
CHOICE, assumption log 13). -/
def asmFieldChar (c : Char) : Bool := !(asmBlank c || c == ',' || c == ';')

/-- The frame `cw = (op << 24) | imm`, payload as written. -/
def asmFrame (o : Op) (imm : Half) (payload : List Byte) : AsmLine :=
  .frame ⟨commandWord o.code imm, payload⟩

/-- What follows the mnemonic and the blanks after it (R82, which shows only `MNEMONIC operand, payload`
and leaves the rest open). The model's choice (DESIGN CHOICE, assumption log 13): blanks may stand
before the comma; the blank after the comma may be left out, so `HABSN 1,[41]` and `HABSN 1 , [41]` are
lines of the syntax; blanks may stand before a comment or the end of the line and may be left out
there. An operand left out where no payload follows is 0; a payload after a comma is taken for any
mnemonic; one without an operand has no comma before it and is taken only for the four R82 names. -/
def asmRest (o : Op) (cs : List Char) : AsmLine :=
  match cs with
  | [] => asmFrame o 0#16 []
  | c :: _ =>
    if c == ';' then asmFrame o 0#16 []
    else if c == '"' || c == '[' then
      match asmPayload cs with
      | some p => if o.hasPayload && payloadFits p then asmFrame o (BitVec.ofNat 16 p.length) p else .malformed
      | none => .malformed
    else
      match asmOperand o (cs.takeWhile asmFieldChar) with
      | none => .malformed
      | some imm =>
        match (cs.dropWhile asmFieldChar).dropWhile asmBlank with
        | [] => asmFrame o imm []
        | ';' :: _ => asmFrame o imm []
        | ',' :: after =>
          match asmPayload (after.dropWhile asmBlank) with
          | some p => asmFrame o imm p
          | none => .malformed
        | _ => .malformed

/-- One line of assembler (R82). The model's choice (DESIGN CHOICE, assumption log 13): blanks may
stand before the mnemonic; one or more stand between the mnemonic and what follows it, and before a
comment they may be left out; a line of blanks, with a comment or without, is no command; mnemonics
are upper case. -/
def assembleLine (line : List Char) : AsmLine :=
  match line.dropWhile asmBlank with
  | [] => .blank
  | c :: cs =>
    if c == ';' then .blank
    else
      match allOps.find? (fun o => (asmMnemonic o).toList == (c :: cs).takeWhile asmFieldChar) with
      | none => .malformed
      | some o => asmRest o (((c :: cs).dropWhile asmFieldChar).dropWhile asmBlank)

end Sys2Proof.Machine
end

