-- ==== Sys2Proof/Tests/Slice0.lean ====
section
/-!
SUPPORT. Tests. Words and expected results come from `spec/`: the encodings of `30_encoding.md` R75
written out bit by bit, and the vectors of `95_test_vectors.md` named in each comment. The theorems
`witness_*` show, for each statement with hypotheses, concrete values that meet them together.
-/

namespace Sys2Proof.Tests

open Sys2Proof Sys2Proof.Machine Sys2Proof.Statements

/-! ## Helpers: one command on a small state -/

/-- The state after one command. -/
def after (i : Instr) (s : State) : State :=
  match exec i s with
  | .next t => t
  | .fault _ => s
  | .refused _ => s

/-- The state after one step. -/
def stepped (s : State) : Option State :=
  match step s with
  | .next t => some t
  | .fault _ => none
  | .refused _ => none

/-- The response to one command. -/
def answer (i : Instr) (s : State) : Option Response := (after i s).outbox.getLast?

/-- Whether the command answers a next state with `err = 0`, or with the error code given. -/
def answersErr (i : Instr) (s : State) (c : Nat) : Bool :=
  match exec i s with
  | .next t => t.outbox.getLast?.map (fun r => r.err.toNat) == some c
  | .fault _ => false
  | .refused _ => false

/-- Whether the command answers a next state. -/
def answersNext (i : Instr) (s : State) : Bool :=
  match exec i s with
  | .next _ => true
  | .fault _ => false
  | .refused _ => false

theorem exec_after {i : Instr} {s : State} (h : answersNext i s = true) :
    exec i s = .next (after i s) := by
  unfold answersNext at h
  unfold after
  split at h
  · next t ht => rw [ht]
  · cases h
  · cases h

/-- A hash in progress with this bucket count. -/
def hashing (bc : Fin 5) : State := { State.reset with bc := bc, hstate := .absorb }

/-- After `HASH 1` of twenty bytes 0x41 (S1, V2.5). -/
def hashedA : State := { State.reset with bc := 1, hstate := .final, acc := ⟨0x2F63F282#32, 0#32, 0#32, 0#32⟩ }

/-- After `HASH 4, "abc"` (V2.11). -/
def hashedAbc : State :=
  { State.reset with
    bc := 4, lane := 3, hstate := .final, acc := ⟨0xCA2E9442#32, 0x00DB819B#32, 0xEEBA5D59#32, 0#32⟩ }

/-- A valid coordinate over this table (V4). -/
def at_ (w : Byte) (m : Half) (table : Mem) : State :=
  { State.reset with widx := w, bmask := m, ivalid := true, table := table }

/-- After `PBEGIN w`. -/
def packing (w : Nat) : State :=
  { State.reset with
    pmode := .pack, pw := BitVec.ofNat 5 w, plen := 1, pbuf := [(0, BitVec.ofNat 8 w)] }

/-- After `UBEGIN [09 41 00 02]` and the bits up to `cur` taken (R126, R127). -/
def unpacking (cur : Nat) : State :=
  { State.reset with
    pmode := .unpack, pw := 9#5, plen := 4, pcur := BitVec.ofNat 14 cur
    pbuf := [(0, 0x09#8), (1, 0x41#8), (3, 0x02#8)] }

/-- The state with one frame presented. -/
def presented (cw : Word) (p : List Byte) (s : State) : State := { s with pending := [⟨cw, p⟩] }

/-! ## Well-formedness: each check refuses an ill-formed command (R72) -/

theorem tooLong : payloadFits (List.replicate 65536 0#8) = false := by
  show decide ((List.replicate 65536 0#8).length < 65536) = false
  rw [List.length_replicate]; decide

theorem test_wf_habsn : (Instr.habsn (List.replicate 65536 0#8)).wellFormed = false := tooLong

theorem test_wf_tset : (Instr.tset (List.replicate 65536 0#8)).wellFormed = false := tooLong

theorem test_wf_tmrg : (Instr.tmrg (List.replicate 65536 0#8)).wellFormed = false := tooLong

theorem test_wf_ubegin : (Instr.ubegin (List.replicate 65536 0#8)).wellFormed = false := tooLong

theorem test_wf_longest_payload : (Instr.habsn (List.replicate 65535 0#8)).wellFormed = true := by
  show decide ((List.replicate 65535 0#8).length < 65536) = true
  rw [List.length_replicate]; decide

/-! ## Decoding: a word of every command, `op` `rsv` `imm` bit by bit (R70, R75) -/

theorem test_decode_system :
    decodeFrame ⟨0b00000001_00000000_00000000_00010011#32, []⟩ = .ok (.rdreg 0x13#16) ∧
    decodeFrame ⟨0b00000010_00000000_00000000_00000000#32, []⟩ = .ok .clrerr ∧
    decodeFrame ⟨0b00000011_00000000_00000000_00000000#32, []⟩ = .ok .srst := by decide

theorem test_decode_hash_unit :
    decodeFrame ⟨0b00010000_00000000_00000000_00000100#32, []⟩ = .ok (.hinit 4#16) ∧
    decodeFrame ⟨0b00010001_00000000_00000000_01000001#32, []⟩ = .ok (.habs 0x41#16) ∧
    decodeFrame ⟨0b00010010_00000000_00000000_00000000#32, []⟩ = .ok .hfin ∧
    decodeFrame ⟨0b00010011_00000000_00000000_00001111#32, []⟩ = .ok (.hrdd 15#16) ∧
    decodeFrame ⟨0b00010100_00000000_00000000_00000011#32, [0x61#8, 0x62#8, 0x63#8]⟩ =
      .ok (.habsn [0x61#8, 0x62#8, 0x63#8]) := by decide

theorem test_decode_index_unit :
    decodeFrame ⟨0b00100000_00000000_00000000_00000000#32, []⟩ = .ok .fold ∧
    decodeFrame ⟨0b00100001_00000000_00000000_00000000#32, []⟩ = .ok .tadd ∧
    decodeFrame ⟨0b00100010_00000000_00000000_00000000#32, []⟩ = .ok .tchk ∧
    decodeFrame ⟨0b00100011_00000000_00000000_00000000#32, []⟩ = .ok .tclr ∧
    decodeFrame ⟨0b00100100_00000000_00000010_00000000#32, []⟩ = .ok (.tget 512#16) ∧
    decodeFrame ⟨0b00100101_00000000_00000000_00000011#32, [0xff#8, 0x01#8, 0x80#8]⟩ =
      .ok (.tset [0xff#8, 0x01#8, 0x80#8]) ∧
    decodeFrame ⟨0b00100110_00000000_00000000_00000001#32, [0xf0#8]⟩ = .ok (.tmrg [0xf0#8]) := by
  decide

theorem test_decode_pack_unit :
    decodeFrame ⟨0b00110000_00000000_00000000_00000000#32, []⟩ = .ok .wrst ∧
    decodeFrame ⟨0b00110001_00000000_00000001_00000011#32, []⟩ = .ok (.wobs 259#16) ∧
    decodeFrame ⟨0b00110010_00000000_00000000_00000000#32, []⟩ = .ok (.pbegin 0#16) ∧
    decodeFrame ⟨0b00110011_00000000_00000001_00000000#32, []⟩ = .ok (.pput 256#16) ∧
    decodeFrame ⟨0b00110100_00000000_00000000_00000000#32, []⟩ = .ok .pget ∧
    decodeFrame ⟨0b00110101_00000000_00000000_00000100#32, [0x09#8, 0x41#8, 0x00#8, 0x02#8]⟩ =
      .ok (.ubegin [0x09#8, 0x41#8, 0x00#8, 0x02#8]) ∧
    decodeFrame ⟨0b00110110_00000000_00000000_00000000#32, []⟩ = .ok .uget := by decide

/-- The illegal frames of V8.3, each rejected by name. -/
theorem test_decode_illegal :
    decodeFrame ⟨0x00000000#32, []⟩ = .error (.unknownOpcode 0x00#8) ∧
    decodeFrame ⟨0xFFFFFFFF#32, []⟩ = .error (.unknownOpcode 0xFF#8) ∧
    decodeFrame ⟨0x04000000#32, []⟩ = .error (.unknownOpcode 0x04#8) ∧
    decodeFrame ⟨0x15000000#32, []⟩ = .error (.unknownOpcode 0x15#8) ∧
    decodeFrame ⟨0x10010004#32, []⟩ = .error (.reservedField 0x01#8) ∧
    decodeFrame ⟨0x12000001#32, []⟩ = .error (.operandNotZero 1#16) ∧
    decodeFrame ⟨0x14000002#32, [0x41#8]⟩ = .error (.payloadLength 2 1) ∧
    decodeFrame ⟨0x10000004#32, [0x00#8]⟩ = .error (.payloadLength 0 1) ∧
    decodeFrame ⟨0x11010141#32, []⟩ = .error (.reservedField 0x01#8) := by decide

/-- Frames as bytes (V8.1), the end of a frame in a stream, and a stream that ends too soon. -/
theorem test_decode_transport :
    decodeBytes [0x03#8, 0x00#8, 0x00#8, 0x14#8, 0x61#8, 0x62#8, 0x63#8, 0x00#8] =
      .ok (.habsn [0x61#8, 0x62#8, 0x63#8], [0x00#8]) ∧
    decodeBytes [0x0f#8, 0x00#8, 0x00#8, 0x13#8] = .ok (.hrdd 15#16, []) ∧
    decodeBytes [0x03#8, 0x00#8, 0x00#8, 0x14#8, 0x61#8] = .error .truncated := by decide

/-- The opcode table's rows as numbers: HINIT 4, FOLD, and HABSN with a payload of zeros. -/
theorem test_decode_table_word :
    decodeTableWord 32 0x10000004 = some (.hinit 4#16) ∧
    decodeTableWord 32 0x20000000 = some .fold ∧
    decodeTableWord 32 0x14000002 = some (.habsn [0#8, 0#8]) ∧
    decodeTableWord 32 0x00000000 = none := by decide

/-! ## One step -/

/-- Example of R92, as the first frame after reset. -/
theorem test_step_runs_first_frame :
    stepped (State.reset.withFetchWord 32 0x10000004) = some (after (.hinit 4#16) State.reset) := by
  decide +kernel

/-- V8.3, the sixth row: E_ILLEGAL and nothing else. -/
theorem test_step_illegal_frame :
    stepped (presented 0x12000001#32 [] State.reset) =
      some { State.reset with err := 0x02#8, outbox := [⟨0x01#8, 0#8, 0#32, []⟩] } := by
  decide +kernel

/-- V8.1: the response to TCHK with a hit, and an E_SEQ response, as bytes. -/
theorem test_response_bytes :
    Response.toBytes ⟨0#8, 0x01#8, 1#32, []⟩ =
      [0x00#8, 0x00#8, 0x01#8, 0x00#8, 0x01#8, 0x00#8, 0x00#8, 0x00#8] ∧
    Response.toBytes ⟨0x03#8, 0#8, 0#32, []⟩ =
      [0x00#8, 0x00#8, 0x00#8, 0x03#8, 0x00#8, 0x00#8, 0x00#8, 0x00#8] := by decide

/-! ## System commands -/

/-- V8.2. -/
theorem test_rdreg_after_reset :
    (answer (.rdreg 0x00#16) State.reset).map Response.data = some 0x48464201#32 ∧
    (answer (.rdreg 0x01#16) State.reset).map Response.data = some 0x0410040C#32 ∧
    (answer (.rdreg 0x1C#16) State.reset).map Response.data = some 1#32 ∧
    answersErr (.rdreg 0x05#16) State.reset 2 = true := by decide

/-- The examples of R140 after `COORD "abc"`. -/
theorem test_rdreg_views :
    (answer (.rdreg 0x13#16) (after .fold hashedAbc)).map Response.data = some 0x0080002A#32 ∧
    (answer (.rdreg 0x12#16) (after .fold hashedAbc)).map Response.data = some 0x000007C2#32 ∧
    (answer (.rdreg 0x02#16) (after .fold hashedAbc)).map Response.data = some 0x00000006#32 := by
  decide +kernel

/-- The example of R141. -/
theorem test_clrerr :
    (answer .clrerr { State.reset with err := 0x08#8 }).map Response.data = some 0x08#32 ∧
    (after .clrerr { State.reset with err := 0x08#8 }).err = 0#8 := by decide

/-- The example of R142. -/
theorem test_srst :
    after .srst { unpacking 9 with table := [(84, 0x80#8)], err := 0x80#8 } =
      { State.reset with outbox := [⟨0#8, 0#8, 0#32, []⟩] } := by decide

/-! ## Hash unit -/

/-- The example of R92. -/
theorem test_hinit :
    (after (.hinit 4#16) State.reset).bc = 4 ∧ (after (.hinit 4#16) State.reset).hstate = .absorb ∧
    (answer (.hinit 4#16) State.reset).map Response.data = some 4#32 := by decide

/-- R92: no bucket, and more buckets than accumulators. -/
theorem test_hinit_range :
    answersErr (.hinit 0#16) State.reset 2 = true ∧
    answersErr (.hinit 5#16) State.reset 2 = true := by decide

/-- The example of R93, and V1.5 (a byte of 0x80 is zero-extended). -/
theorem test_habs :
    (after (.habs 0x41#16) (hashing 1)).acc.a0 = 0x00010050#32 ∧
    (after (.habs 0x41#16) (after (.habs 0x41#16) (hashing 1))).acc.a0 = 0x04134983#32 ∧
    absorb 0#32 0x80#8 = 0x00020882#32 := by decide

/-- V8.4, first two rows: the operand check comes before the sequence check. -/
theorem test_habs_errors :
    answersErr (.habs 0x141#16) State.reset 2 = true ∧
    answersErr (.habs 0x41#16) State.reset 3 = true := by decide

/-- The example of R94: "abc" over four lanes. -/
theorem test_habsn :
    (after (.habsn [0x61#8, 0x62#8, 0x63#8]) (hashing 4)).lane = 3 ∧
    (after (.habsn [0x61#8, 0x62#8, 0x63#8]) (hashing 4)).acc =
      ⟨absorb 0#32 0x61#8, absorb 0#32 0x62#8, absorb 0#32 0x63#8, 0#32⟩ := by decide

/-- R94: no byte is legal and changes nothing; no open hash is E_SEQ. -/
theorem test_habsn_empty :
    (after (.habsn []) (hashing 2)).lane = 0 ∧ answersErr (.habsn []) (hashing 2) 0 = true ∧
    answersErr (.habsn []) State.reset 3 = true := by decide

/-- The example of R95, and V1.13. -/
theorem test_hfin :
    (after .hfin { hashing 1 with acc := ⟨0x00010050#32, 0#32, 0#32, 0#32⟩ }).acc.a0 = 0x820103F0#32 ∧
    finalize 0xFFFFFFFF#32 = 0xFFE40008#32 ∧ answersErr .hfin hashedA 3 = true := by decide

/-- The example of R96. -/
theorem test_hrdd :
    (answer (.hrdd 0#16) hashedA).map Response.data = some 0x82#32 ∧
    (answer (.hrdd 1#16) hashedA).map Response.data = some 0xF2#32 ∧
    (answer (.hrdd 3#16) hashedA).map Response.data = some 0x2F#32 := by decide

/-- V8.4: HRDD checks the sequence first; index `4*BC` is out of range. -/
theorem test_hrdd_errors :
    answersErr (.hrdd 99#16) State.reset 3 = true ∧ answersErr (.hrdd 4#16) hashedA 2 = true := by
  decide

/-! ## Index unit -/

/-- The example of R104 (V3.3). -/
theorem test_fold :
    (after .fold hashedAbc).h1 = 0xEE61DCC2#32 ∧ (after .fold hashedAbc).n1 = 12#4 ∧
    (after .fold hashedAbc).widx = 42#8 ∧ (after .fold hashedAbc).bmask = 0x0080#16 ∧
    (answer .fold hashedAbc).map Response.data = some 0x0080002A#32 := by decide +kernel

/-- V3.22 and V8.4: a fold of synthetic accumulators; a hash of one bucket. -/
theorem test_fold_synthetic :
    (after .fold { hashedAbc with
      acc := ⟨0x12345678#32, 0x9ABCDEF0#32, 0x0F1E2D3C#32, 0x4B5A6978#32⟩ }).widx = 197#8 ∧
    answersErr .fold hashedA 3 = true := by decide +kernel

/-- V4.1, V4.5 and V4.7. -/
theorem test_tadd :
    (after .tadd (at_ 42#8 0x0080#16 [])).table = [(84, 0x80#8)] ∧
    (after .tadd (at_ 144#8 0x8000#16 [(84, 0x80#8)])).table = [(84, 0x80#8), (289, 0x80#8)] ∧
    answersErr .tadd State.reset 3 = true := by decide

/-- V4.3, V4.4 and V4.7. -/
theorem test_tchk :
    answer .tchk (at_ 42#8 0x0080#16 [(84, 0x80#8)]) = some ⟨0#8, 0x01#8, 1#32, []⟩ ∧
    answer .tchk (at_ 42#8 0x0040#16 [(84, 0x80#8)]) = some ⟨0#8, 0x00#8, 0#32, []⟩ ∧
    (after .tchk (at_ 42#8 0x0080#16 [(84, 0x80#8)])).hit = true ∧
    answersErr .tchk State.reset 3 = true := by decide

/-- V4.18. -/
theorem test_tclr :
    after .tclr (at_ 42#8 0x0080#16 [(84, 0x80#8)]) =
      { at_ 42#8 0x0080#16 [] with outbox := [⟨0#8, 0#8, 0#32, []⟩] } := by decide

/-- V4.8 at byte 84, and V4.10. -/
theorem test_tget :
    (answer (.tget 86#16) (at_ 42#8 0x0080#16 [(84, 0x80#8)])).map
      (fun r => (r.flags, r.data, r.rpayload.drop 83)) =
        some (0x02#8, 86#32, [0x00#8, 0x80#8, 0x00#8]) ∧
    answer (.tget 0#16) State.reset = some ⟨0#8, 0x02#8, 0#32, []⟩ := by decide +kernel

/-- V4.12 and V4.14. -/
theorem test_tset :
    (after (.tset [0xff#8, 0x01#8, 0x80#8]) State.reset).table =
      [(0, 0xff#8), (1, 0x01#8), (2, 0x80#8)] ∧
    (after (.tset [0x00#8]) (at_ 0#8 0#16 [(0, 0xff#8), (1, 0xf1#8)])).table = [(1, 0xf1#8)] := by
  decide

/-- V4.13. -/
theorem test_tmrg :
    (after (.tmrg [0x00#8, 0xf0#8, 0x0f#8, 0x01#8])
      (at_ 0#8 0#16 [(0, 0xff#8), (1, 0x01#8), (2, 0x80#8)])).table =
      [(0, 0xff#8), (1, 0xf1#8), (2, 0x8f#8), (3, 0x01#8)] := by decide

/-! ## Pack unit -/

/-- The example of R121. -/
theorem test_wrst : (after .wrst { State.reset with maxc := 259#16 }).maxc = 0#16 := by decide

/-- V5.1: the maximum stays, and grows. -/
theorem test_wobs :
    (after (.wobs 258#16) { State.reset with maxc := 259#16 }).maxc = 259#16 ∧
    (answer (.wobs 259#16) { State.reset with maxc := 256#16 }).map Response.data = some 259#32 := by
  decide

/-- The example of R123, and V8.4. -/
theorem test_pbegin :
    (after (.pbegin 0#16) { State.reset with maxc := 259#16 }).pw = 9#5 ∧
    (after (.pbegin 0#16) { State.reset with maxc := 259#16 }).pbuf = [(0, 0x09#8)] ∧
    (answer (.pbegin 0#16) State.reset).map Response.data = some 1#32 ∧
    answersErr (.pbegin 17#16) State.reset 2 = true := by decide

/-- The example of R124: two codes of 9 bits. -/
theorem test_pput :
    (after (.pput 65#16) (packing 9)).pbuf = [(0, 0x09#8), (1, 0x41#8)] ∧
    (after (.pput 256#16) (after (.pput 65#16) (packing 9))).pbuf =
      [(0, 0x09#8), (1, 0x41#8), (3, 0x02#8)] ∧
    (after (.pput 256#16) (after (.pput 65#16) (packing 9))).plen = 4 := by decide +kernel

/-- V8.4: sequence, range before overflow, overflow. -/
theorem test_pput_errors :
    answersErr (.pput 65535#16) State.reset 3 = true ∧
    answersErr (.pput 8#16) { packing 3 with pcur := 8184#14, plen := 1024 } 4 = true ∧
    answersErr (.pput 1#16) { packing 16 with pcur := 8176#14, plen := 1023 } 5 = true := by decide

/-- The example of R125, and `P_IDLE`. -/
theorem test_pget :
    answer .pget (unpacking 0) =
      some ⟨0#8, 0#8, 4#32, [0x09#8, 0x41#8, 0x00#8, 0x02#8]⟩ ∧
    answersErr .pget State.reset 3 = true := by decide

/-- The example of R126. -/
theorem test_ubegin :
    after (.ubegin [0x09#8, 0x41#8, 0x00#8, 0x02#8]) State.reset =
      { unpacking 0 with outbox := [⟨0#8, 0#8, 2#32, []⟩] } := by decide

/-- V7.2.1, V7.2.3 and V7.2.4. -/
theorem test_ubegin_errors :
    answersErr (.ubegin []) State.reset 6 = true ∧ answersErr (.ubegin [0x00#8]) State.reset 6 = true ∧
    answersErr (.ubegin [0x11#8, 0x00#8, 0x00#8, 0x00#8]) State.reset 6 = true := by decide

/-- The example of R127. -/
theorem test_uget :
    (answer .uget (unpacking 0)).map Response.data = some 65#32 ∧
    (answer .uget (unpacking 9)).map Response.data = some 256#32 ∧
    answersErr .uget (unpacking 18) 7 = true := by decide +kernel

/-! ## The host's dictionary coder and the assembler -/

/-- V6.1 and V6.4. -/
theorem test_dictionary_codes :
    dictionaryCodes (List.replicate 20 0x41#8) = [65, 256, 257, 258, 259, 259] ∧
    dictionaryCodes [0x41#8, 0x42#8, 0x41#8, 0x42#8, 0x41#8, 0x42#8, 0x41#8] = [65, 66, 256, 258] := by
  decide +kernel

/-- V7.2.12 to V7.2.15, V7.2.17 and V7.2.18, on the codes. -/
theorem test_dictionary_decode :
    decodeCodes [65, 256] 3 = .ok [0x41#8, 0x41#8, 0x41#8] ∧
    decodeCodes [65, 256] 2 = .error .overshoot ∧ decodeCodes [65, 256] 1 = .ok [0x41#8] ∧
    decodeCodes [65, 256] 4 = .error .tooShort ∧ decodeCodes [65, 258] 3 = .error .unresolvable ∧
    decodeCodes [256] 1 = .error .firstCode := by decide +kernel

/-- V5.6.6: "AB". -/
theorem test_compress :
    (compress State.reset [0x41#8, 0x42#8]).map (fun r => r.2) = some [0x07#8, 0x41#8, 0x21#8] := by
  decide +kernel

/-- V7.2.1, V7.2.5 and V7.2.8. -/
theorem test_decompress :
    (decompress State.reset [] 0).1 = .error .header ∧
    (decompress State.reset [0x09#8] 0).1 = .ok [] ∧
    (decompress State.reset [0x08#8, 0x41#8] 1).1 = .ok [0x41#8] := by decide +kernel

/-- V8.1 through R82's syntax. -/
theorem test_assembler :
    assembleLine "HABS 0x41".toList = .frame ⟨0x11000041#32, []⟩ ∧
    assembleLine "HABSN \"abc\"".toList = .frame ⟨0x14000003#32, [0x61#8, 0x62#8, 0x63#8]⟩ ∧
    assembleLine "TSET [ff 01 80] ; image".toList =
      .frame ⟨0x25000003#32, [0xff#8, 0x01#8, 0x80#8]⟩ ∧
    assembleLine "RDREG COORD".toList = .frame ⟨0x01000013#32, []⟩ := by decide +kernel

/-- Assumption log 13: blanks outside and inside the bracketed list. -/
theorem test_assembler_blanks :
    assembleLine "  HABSN 2 ,[8 2]".toList = .malformed ∧
    assembleLine "  HABSN 2 ,[82f2]".toList = .frame ⟨0x14000002#32, [0x82#8, 0xf2#8]⟩ ∧
    assembleLine "HABSN, [82 f2]".toList = .malformed ∧
    assembleLine "HFIN; done".toList = .frame ⟨0x12000000#32, []⟩ := by decide +kernel

/-! ## Witnesses: values that meet each statement's hypotheses -/

theorem witness_DecodeOfEncodeIsTheCommand :
    (Instr.habsn []).wellFormed = true ∧
    (Instr.tset (List.replicate 65535 0#8)).wellFormed = true := by
  refine ⟨by decide, ?_⟩
  show decide ((List.replicate 65535 0#8).length < 65536) = true
  rw [List.length_replicate]; decide

theorem witness_EncodeOfDecodeIsTheFrame :
    decodeFrame ⟨0x25000001#32, [0xff#8]⟩ = .ok (.tset [0xff#8]) := by decide

theorem witness_EveryOpcodeRowDecodesToItsCommand :
    ([] : List Byte).length = (0#16).toNat ∧
    (List.replicate 65535 0#8).length = (65535#16).toNat := by
  refine ⟨rfl, ?_⟩
  rw [List.length_replicate]; decide

/-- A frame that fails each of the four checks of R77, and one that fails none. -/
theorem witness_IllegalFrameRaisesEIllegal :
    (presented 0xFF000000#32 [] State.reset).pending = [⟨0xFF000000#32, []⟩] ∧
    ¬ LegalFrame ⟨0xFF000000#32, []⟩ ∧ ¬ LegalFrame ⟨0x10010004#32, []⟩ ∧
    ¬ LegalFrame ⟨0x12000001#32, []⟩ ∧ ¬ LegalFrame ⟨0x14000002#32, [0x41#8]⟩ ∧
    LegalFrame ⟨0x14000002#32, [0x41#8, 0x42#8]⟩ := by
  unfold LegalFrame; decide

theorem witness_ByteTransportIsLittleEndian :
    (Instr.ubegin [0x09#8, 0x41#8]).wellFormed = true := by decide

theorem witness_StepRunsTheDecodedCommand :
    (presented 0x36000000#32 [] (unpacking 0)).pending = [⟨0x36000000#32, []⟩] ∧
    decodeFrame ⟨0x36000000#32, []⟩ = .ok .uget := by decide

theorem witness_StepWithoutFrameChangesNothing : State.reset.pending = [] := rfl

theorem witness_EveryFrameGetsOneResponse :
    ({ State.reset with pending := [⟨0x20000000#32, []⟩, ⟨0#32, []⟩] } : State).pending =
      ⟨0x20000000#32, []⟩ :: [⟨0#32, []⟩] := rfl

/-- A command that fails, one that succeeds, and an illegal frame. -/
theorem witness_ErrorSetsItsStickyBitAndNothingElse :
    exec .fold State.reset = .next (after .fold State.reset) ∧
    answersErr .fold State.reset 3 = true ∧
    exec .wrst State.reset = .next (after .wrst State.reset) ∧ answersErr .wrst State.reset 0 = true ∧
    Instr.wrst ≠ .clrerr ∧ Instr.wrst ≠ .srst ∧
    (presented 0#32 [] State.reset).pending = [⟨0#32, []⟩] ∧
    decodeFrame ⟨0#32, []⟩ = .error (.unknownOpcode 0#8) :=
  ⟨exec_after (by decide +kernel), by decide, exec_after (by decide +kernel), by decide, by decide, by decide, rfl, by decide⟩

/-- Responses with HIT, with LENMIS and with neither; bit 2 and bit 7. -/
theorem witness_ResponseFlagsAndPayloads :
    exec .tchk (at_ 42#8 0x0080#16 [(84, 0x80#8)]) =
      .next (after .tchk (at_ 42#8 0x0080#16 [(84, 0x80#8)])) ∧
    answer .tchk (at_ 42#8 0x0080#16 [(84, 0x80#8)]) = some ⟨0#8, 0x01#8, 1#32, []⟩ ∧
    exec (.tget 1#16) State.reset = .next (after (.tget 1#16) State.reset) ∧
    answer (.tget 1#16) State.reset = some ⟨0#8, 0x02#8, 1#32, [0#8]⟩ ∧ 2 ≤ 2 ∧ 2 ≤ 7 :=
  ⟨exec_after (by decide +kernel), by decide, exec_after (by decide +kernel), by decide, by decide, by decide⟩

/-- The invariants of a hash finalised, of a buffer being packed and of a buffer being unpacked. -/
theorem inv_hashedAbc (fs : List Frame) : Inv { hashedAbc with pending := fs } where
  lane_lt := by simp [hashedAbc]
  bc_zero_iff := by simp [hashedAbc]
  acc_zero := by intro i h; have := i.isLt; simp [hashedAbc] at h; omega
  nibbles := by simp only [hashedAbc, State.reset]; decide
  widx_eq := by simp [hashedAbc, State.reset]
  widx_le := by simp [hashedAbc, State.reset]
  bmask_eq := .inr ⟨rfl, rfl⟩
  ivalid_final := by intro h; cases h
  ivalid_fold := by intro h; cases h
  pw_le := by simp [hashedAbc, State.reset]
  pw_zero_iff := by simp [hashedAbc, State.reset]
  idle_empty := by simp [hashedAbc, State.reset]
  header := by intro h; exact absurd rfl h
  pack_len := by intro h; cases h
  pack_zero := by intro h; cases h
  unpack_len := by intro h; cases h
  cursor_multiple := by simp [hashedAbc, State.reset]
  pbuf_zero := by simp [hashedAbc, State.reset]
  err_bit0 := by simp [hashedAbc, State.reset]
  table_wf := rfl
  pbuf_wf := rfl

theorem inv_packing (fs : List Frame) : Inv { packing 9 with pending := fs } where
  lane_lt := by simp [packing, State.reset]
  bc_zero_iff := by simp [packing, State.reset]
  acc_zero := by intro i _; exact (by decide : ∀ i : Fin 4, accGet State.reset.acc i = 0#32) i
  nibbles := by simp only [packing, State.reset]; decide
  widx_eq := by simp [packing, State.reset]
  widx_le := by simp [packing, State.reset]
  bmask_eq := .inr ⟨rfl, rfl⟩
  ivalid_final := by intro h; cases h
  ivalid_fold := by intro h; cases h
  pw_le := by simp [packing]
  pw_zero_iff := by simp [packing]
  idle_empty := by intro h; cases h
  header := by intro _; rfl
  pack_len := by intro _; simp [packing, State.reset]
  pack_zero := by
    intro _ p _
    simp only [packing, payloadBit, memRead]
    rw [if_neg (by omega)]
    simp
  unpack_len := by intro h; cases h
  cursor_multiple := by simp [packing, State.reset]
  pbuf_zero := by
    intro j h
    have : 1 ≤ j := h
    simp only [packing, memRead]
    rw [if_neg (by omega)]
  err_bit0 := by simp [packing, State.reset]
  table_wf := rfl
  pbuf_wf := by simp [packing, memWf, memWfFrom]

theorem inv_unpacking (cur : Nat) (h9 : 9 ∣ cur) (h24 : cur ≤ 24) : Inv (unpacking cur) where
  lane_lt := by simp [unpacking, State.reset]
  bc_zero_iff := by simp [unpacking, State.reset]
  acc_zero := by intro i _; exact (by decide : ∀ i : Fin 4, accGet State.reset.acc i = 0#32) i
  nibbles := by simp only [unpacking, State.reset]; decide
  widx_eq := by simp [unpacking, State.reset]
  widx_le := by simp [unpacking, State.reset]
  bmask_eq := .inr ⟨rfl, rfl⟩
  ivalid_final := by intro h; cases h
  ivalid_fold := by intro h; cases h
  pw_le := by simp [unpacking]
  pw_zero_iff := by simp [unpacking]
  idle_empty := by intro h; cases h
  header := by intro _; rfl
  pack_len := by intro h; cases h
  pack_zero := by intro h; cases h
  unpack_len := by
    intro _
    have e : (unpacking cur).pcur.toNat = cur := by
      simp only [unpacking, BitVec.toNat_ofNat]; omega
    rw [e]
    exact ⟨by simp [unpacking], by simpa [unpacking] using h24⟩
  cursor_multiple := by
    have e : (unpacking cur).pcur.toNat = cur := by
      simp only [unpacking, BitVec.toNat_ofNat]; omega
    rw [e]; exact h9
  pbuf_zero := by
    intro j h
    have : 4 ≤ j := h
    simp only [unpacking, memRead]
    rw [if_neg (by omega), if_neg (by omega), if_neg (by omega)]
  err_bit0 := by simp [unpacking, State.reset]
  table_wf := rfl
  pbuf_wf := by simp [unpacking, memWf, memWfFrom]

/-- A step of FOLD and a step of PPUT from legal states. -/
theorem witness_EveryStepKeepsTheInvariants :
    Inv (presented 0x20000000#32 [] hashedAbc) ∧
    (stepped (presented 0x20000000#32 [] hashedAbc)).isSome = true ∧
    Inv (presented 0x330001FF#32 [] (packing 9)) ∧
    (stepped (presented 0x330001FF#32 [] (packing 9))).isSome = true :=
  ⟨inv_hashedAbc _, by decide +kernel, inv_packing _, by decide +kernel⟩

/-- The first and last register of R39's table, and numbers beside it. -/
theorem witness_RdregReadsEveryRegister :
    ((0x00#16).toNat, 0x48464201#32) ∈ registerTable State.reset ∧
    ((0x1D#16).toNat, 0#32) ∈ registerTable State.reset ∧
    (∀ v, ((0x05#16).toNat, v) ∉ registerTable State.reset) ∧
    (∀ v, ((0x1E#16).toNat, v) ∉ registerTable State.reset) := by
  have h5 : (0x05#16).toNat ∉ (registerTable State.reset).map Prod.fst := by decide
  have h1e : (0x1E#16).toNat ∉ (registerTable State.reset).map Prod.fst := by decide
  exact ⟨by decide, by decide, fun v h => h5 (List.mem_map_of_mem (f := Prod.fst) h),
    fun v h => h1e (List.mem_map_of_mem (f := Prod.fst) h)⟩

theorem witness_HinitStartsAHash :
    1 ≤ (1 : Fin 5).val ∧ 1 ≤ (4 : Fin 5).val ∧
    ((0#16).toNat = 0 ∨ 4 < (0#16).toNat) ∧ ((5#16).toNat = 0 ∨ 4 < (5#16).toNat) := by decide

theorem witness_HabsAbsorbsOneByte :
    ((hashing 1).hstate = .absorb ∧ 1 ≤ (hashing 1).bc.val) ∧ (1 : Fin 4) ≠ (hashing 1).lane ∧
    255 < (256#16).toNat ∧ (255#16).toNat ≤ 255 ∧ State.reset.hstate ≠ .absorb := by decide

theorem witness_HabsnIsItsHabsInARow :
    ([] : List Byte).length = (0#16).toNat ∧ (hashing 4).hstate = .absorb ∧
    hashedA.hstate ≠ .absorb := by decide

theorem witness_HfinFinalisesEveryBucket :
    (hashing 1).hstate = .absorb ∧ hashedA.hstate ≠ .absorb := by decide

theorem witness_HrddReadsADigestByte :
    (hashedA.hstate = .final ∧ (0 : Fin 4).val < hashedA.bc.val) ∧
    (hashedAbc.hstate = .final ∧ (3 : Fin 4).val < hashedAbc.bc.val) ∧
    (hashing 4).hstate ≠ .final ∧
    (hashedA.hstate = .final ∧ 4 * hashedA.bc.val ≤ (4#16).toNat) := by decide

theorem witness_WholeBufferHashContract :
    1 ≤ (1 : Fin 5).val ∧ (0 : Fin 4).val < (1 : Fin 5).val ∧ 1 ≤ (4 : Fin 5).val ∧
    (3 : Fin 4).val < (4 : Fin 5).val := by decide

theorem witness_FoldDerivesTheCoordinate :
    (hashedAbc.hstate = .final ∧ hashedAbc.bc.val = 4) ∧
    ((hashing 4).hstate ≠ .final ∨ (hashing 4).bc.val ≠ 4) ∧
    (hashedA.hstate ≠ .final ∨ hashedA.bc.val ≠ 4) := by decide

theorem witness_TableWordsAreLittleEndian : 0 < 16 ∧ 15 < 16 := by decide

theorem witness_TaddSetsTheCoordinateBit :
    (at_ 240#8 0x8000#16 []).ivalid = true ∧ 479 ≠ 2 * (240#8).toNat ∧ 479 ≠ 2 * (240#8).toNat + 1 ∧
    State.reset.ivalid = false := by decide

theorem witness_TchkTestsTheCoordinateBit :
    ((at_ 240#8 0x8000#16 [(481, 0x80#8)]).ivalid = true ∧
      tableWord [(481, 0x80#8)] (240#8).toNat &&& 0x8000#16 ≠ 0#16) ∧
    ((at_ 240#8 0x4000#16 [(481, 0x80#8)]).ivalid = true ∧
      tableWord [(481, 0x80#8)] (240#8).toNat &&& 0x4000#16 = 0#16) ∧
    State.reset.ivalid = false := by decide

theorem witness_TclrZeroesTheTable :
    Instr.tmrg [0x01#8] ≠ .tclr ∧ (∀ p, Instr.tmrg [0x01#8] ≠ .tset p) ∧
    Instr.tmrg [0x01#8] ≠ .srst ∧
    exec (.tmrg [0x01#8]) (at_ 0#8 0#16 [(1, 0x80#8)]) =
      .next (after (.tmrg [0x01#8]) (at_ 0#8 0#16 [(1, 0x80#8)])) ∧
    (tableWord (at_ 0#8 0#16 [(1, 0x80#8)]).table 0).getLsbD 15 = true :=
  ⟨by decide, (by intro p h; cases h), by decide, exec_after (by decide +kernel), by decide⟩

theorem witness_TgetAnswersTheRawImage :
    0 < min (1#16).toNat 512 ∧ 511 < min (65535#16).toNat 512 := by decide

theorem witness_TsetOverwritesTheRawImage :
    ([] : List Byte).length = (0#16).toNat ∧ (List.replicate 512 0#8).length = (512#16).toNat := by
  refine ⟨rfl, ?_⟩
  rw [List.length_replicate]; decide

theorem witness_TmrgUnitesTheRawImage :
    ([] : List Byte).length = (0#16).toNat ∧ (List.replicate 512 0#8).length = (512#16).toNat := by
  refine ⟨rfl, ?_⟩
  rw [List.length_replicate]; decide

theorem witness_MergeThenReadIsTheUnion : (List.replicate 512 0xAA#8).length = 512 ∧ 511 < 512 := by
  rw [List.length_replicate]; decide

theorem witness_TableWritesAreIdempotent :
    memWf 512 (at_ 42#8 0x0080#16 [(84, 0x40#8)]).table = true ∧
    exec .tadd (at_ 42#8 0x0080#16 [(84, 0x40#8)]) =
      .next (after .tadd (at_ 42#8 0x0080#16 [(84, 0x40#8)])) ∧
    exec .tadd (after .tadd (at_ 42#8 0x0080#16 [(84, 0x40#8)])) =
      .next (after .tadd (after .tadd (at_ 42#8 0x0080#16 [(84, 0x40#8)]))) :=
  ⟨by decide, exec_after (by decide +kernel), exec_after (by decide +kernel)⟩

theorem witness_SetTableBitsStaySet :
    clearsTable (.tmrg [0x01#8]) = false ∧
    (runCommands [.tmrg [0x01#8]] (at_ 0#8 0#16 [(1, 0x80#8)])).isSome = true ∧
    (tableWord (at_ 0#8 0#16 [(1, 0x80#8)]).table 0).getLsbD 15 = true := by decide

theorem witness_NoFalseNegatives :
    (∀ i ∈ [Instr.wrst, .tmrg [0x01#8]], clearsTable i = false) ∧
    ((runCommands (addProgram [0x61#8]) State.reset).bind
      (runCommands [.wrst, .tmrg [0x01#8]])).isSome = true := by decide +kernel

theorem witness_WidthIsTheBitLength : 1 ≤ 1 ∧ 1 ≤ 65535 := by decide

theorem witness_PbeginStartsAPackedBuffer :
    (0#16).toNat ≤ 16 ∧ (16#16).toNat ≤ 16 ∧ 16 < (17#16).toNat := by decide

/-- A buffer of width `w` with one byte left. -/
def fullBuffer (w : Nat) : State := { packing w with pcur := 8176#14, plen := 1023 }

/-- Boundaries of R124: the widest code, the last byte of the buffer, one bit more. -/
theorem witness_PputAppendsACode :
    ((packing 9).pmode = .pack ∧ (511#16).toNat < 2 ^ (packing 9).pw.toNat ∧
      1 + ((packing 9).pcur.toNat + (packing 9).pw.toNat + 7) / 8 ≤ 1024) ∧
    ((fullBuffer 8).pmode = .pack ∧ (255#16).toNat < 2 ^ (fullBuffer 8).pw.toNat ∧
      1 + ((fullBuffer 8).pcur.toNat + (fullBuffer 8).pw.toNat + 7) / 8 ≤ 1024) ∧
    (unpacking 0).pmode ≠ .pack ∧
    ((packing 9).pmode = .pack ∧ 2 ^ (packing 9).pw.toNat ≤ (512#16).toNat) ∧
    ((fullBuffer 16).pmode = .pack ∧ (1#16).toNat < 2 ^ (fullBuffer 16).pw.toNat ∧
      1024 < 1 + ((fullBuffer 16).pcur.toNat + (fullBuffer 16).pw.toNat + 7) / 8) := by
  decide +kernel

theorem witness_PgetAnswersThePackedBuffer :
    (packing 9).pmode ≠ .idle ∧ 0 < (packing 9).plen.val ∧ State.reset.pmode = .idle := by decide

/-- Boundaries of R126: widths 1 and 16, one byte and 1024 bytes, one byte more, widths 0 and 17. -/
theorem witness_UbeginLoadsAPackedBuffer :
    (1 ≤ [0x01#8].length ∧ [0x01#8].length ≤ 1024 ∧ 1 ≤ ([0x01#8].getD 0 0#8).toNat ∧
      ([0x01#8].getD 0 0#8).toNat ≤ 16) ∧
    (0x10#8 :: List.replicate 1023 0#8).length = 1024 ∧
    1024 < (List.replicate 1025 0#8).length ∧ ([0x00#8].getD 0 0#8).toNat = 0 ∧
    16 < ([0x11#8].getD 0 0#8).toNat := by
  refine ⟨by decide, ?_, ?_, by decide, by decide⟩
  · rw [List.length_cons, List.length_replicate]
  · rw [List.length_replicate]; decide

theorem witness_UgetTakesTheNextCode :
    ((unpacking 9).pmode = .unpack ∧ (unpacking 9).pw.toNat ≤ 16 ∧
      (unpacking 9).pcur.toNat + (unpacking 9).pw.toNat ≤ 8 * ((unpacking 9).plen.val - 1)) ∧
    (packing 9).pmode ≠ .unpack ∧
    ((unpacking 18).pmode = .unpack ∧
      8 * ((unpacking 18).plen.val - 1) <
        (unpacking 18).pcur.toNat + (unpacking 18).pw.toNat) := by decide

/-- No code at all, and 1023 codes of 8 bits, which fill the buffer to its last byte; for the
automatic width no code, codes of 9 bits, and the same 1023 codes. -/
theorem witness_PackContract :
    (1 ≤ 1 ∧ 1 ≤ 16 ∧ (∀ c ∈ ([] : List Half), c.toNat < 2 ^ 1) ∧
      1 + (1 * ([] : List Half).length + 7) / 8 ≤ 1024) ∧
    (1 ≤ 8 ∧ 8 ≤ 16 ∧ (∀ c ∈ List.replicate 1023 255#16, c.toNat < 2 ^ 8) ∧
      1 + (8 * (List.replicate 1023 255#16).length + 7) / 8 ≤ 1024) ∧
    (1 + (max 1 (Nat.size (largestCode [])) * ([] : List Half).length + 7) / 8 ≤ 1024 ∧
      max 1 (Nat.size (largestCode [65#16, 256#16])) = 9 ∧
      1 + (max 1 (Nat.size (largestCode [65#16, 256#16])) * [65#16, 256#16].length + 7) / 8 ≤ 1024 ∧
      1 + (max 1 (Nat.size (largestCode (List.replicate 1023 255#16)))
        * (List.replicate 1023 255#16).length + 7) / 8 ≤ 1024) := by
  refine ⟨⟨by decide, by decide, by simp, by decide⟩, ⟨by decide, by decide, ?_, ?_⟩,
    by decide +kernel, by decide +kernel, by decide +kernel, by decide +kernel⟩
  · intro c hc; rw [List.eq_of_mem_replicate hc]; decide
  · rw [List.length_replicate]

/-- V5.5.7: three codes of 3 bits in two payload bytes, of which five can be delivered. -/
theorem witness_UnpackContract :
    (1 ≤ [0x03#8, 0xd5#8, 0x01#8].length ∧ [0x03#8, 0xd5#8, 0x01#8].length ≤ 1024 ∧
      3 = ([0x03#8, 0xd5#8, 0x01#8].getD 0 0#8).toNat ∧
      5 = 8 * ([0x03#8, 0xd5#8, 0x01#8].length - 1) / 3) ∧
    IsPackedForm 3 [5#16, 2#16, 7#16] [0x03#8, 0xd5#8, 0x01#8] ∧
    (∀ c ∈ [5#16, 2#16, 7#16], c.toNat < 2 ^ 3) ∧
    (1 ≤ [0x10#8].length ∧ 16 = ([0x10#8].getD 0 0#8).toNat ∧ 0 = 8 * ([0x10#8].length - 1) / 16) ∧
    (0x10#8 :: List.replicate 1023 0#8).length = 1024 := by
  refine ⟨by decide, by unfold IsPackedForm; decide, by simp, by decide, ?_⟩
  rw [List.length_cons, List.length_replicate]

theorem witness_UnpackOfPackIsTheCodes :
    1 ≤ 16 ∧ 16 ≤ 16 ∧ (∀ c ∈ [65535#16, 1#16], c.toNat < 2 ^ 16) ∧
    1 + (16 * [65535#16, 1#16].length + 7) / 8 ≤ 1024 :=
  ⟨by decide, by decide, by simp, by decide⟩

theorem witness_PackedBytesDependOnTheCodesAlone :
    (runCommands (packProgram [65#16]) State.reset).isSome = true ∧
    (runCommands (packProgram [65#16]) (unpacking 9)).isSome = true := by decide +kernel

/-- Two codes left, one code left, none left. -/
theorem witness_UremCountsTheCodesLeft :
    (Inv (unpacking 0) ∧ (unpacking 0).pmode = .unpack ∧ unpackRemaining (unpacking 0) ≠ 0) ∧
    (Inv (unpacking 9) ∧ unpackRemaining (unpacking 9) ≠ 0) ∧
    (Inv (unpacking 18) ∧ unpackRemaining (unpacking 18) = 0) :=
  ⟨⟨inv_unpacking 0 (by decide) (by decide), by decide, by decide⟩,
    ⟨inv_unpacking 9 (by decide) (by decide), by decide⟩,
    ⟨inv_unpacking 18 (by decide) (by decide), by decide⟩⟩

theorem witness_ReadCommandsFrame :
    exec (.rdreg 5#16) State.reset = .next (after (.rdreg 5#16) State.reset) ∧
    exec (.hrdd 3#16) hashedA = .next (after (.hrdd 3#16) hashedA) ∧
    exec (.tget 512#16) State.reset = .next (after (.tget 512#16) State.reset) ∧
    exec .pget (packing 9) = .next (after .pget (packing 9)) := 
  ⟨exec_after (by decide +kernel), exec_after (by decide +kernel), exec_after (by decide +kernel),
    exec_after (by decide +kernel)⟩

theorem witness_HashUnitCommandsFrame :
    exec (.hinit 4#16) hashedA = .next (after (.hinit 4#16) hashedA) ∧
    exec (.habs 255#16) (hashing 1) = .next (after (.habs 255#16) (hashing 1)) ∧
    exec (.habsn []) (hashing 1) = .next (after (.habsn []) (hashing 1)) ∧
    exec .hfin (hashing 1) = .next (after .hfin (hashing 1)) ∧
    (∀ n, Instr.hfin ≠ .hinit n) := 
  ⟨exec_after (by decide +kernel), exec_after (by decide +kernel), exec_after (by decide +kernel),
    exec_after (by decide +kernel), by intro n h; cases h⟩

theorem witness_IndexUnitCommandsFrame :
    exec .fold hashedAbc = .next (after .fold hashedAbc) ∧
    exec .tchk (at_ 0#8 1#16 []) = .next (after .tchk (at_ 0#8 1#16 [])) ∧
    exec .tadd (at_ 0#8 1#16 []) = .next (after .tadd (at_ 0#8 1#16 [])) ∧
    exec .tclr (at_ 0#8 1#16 []) = .next (after .tclr (at_ 0#8 1#16 [])) ∧
    exec (.tset [0x01#8]) State.reset = .next (after (.tset [0x01#8]) State.reset) ∧
    exec (.tmrg [0x01#8]) State.reset = .next (after (.tmrg [0x01#8]) State.reset) ∧
    min [0x01#8].length 512 ≤ 1 := 
  ⟨exec_after (by decide +kernel), exec_after (by decide +kernel), exec_after (by decide +kernel),
    exec_after (by decide +kernel), exec_after (by decide +kernel), exec_after (by decide +kernel), by decide⟩

theorem witness_PackUnitCommandsFrame :
    exec .wrst State.reset = .next (after .wrst State.reset) ∧
    exec (.wobs 1#16) State.reset = .next (after (.wobs 1#16) State.reset) ∧
    exec (.pbegin 16#16) State.reset = .next (after (.pbegin 16#16) State.reset) ∧
    exec (.ubegin [0x01#8]) State.reset = .next (after (.ubegin [0x01#8]) State.reset) ∧
    exec (.pput 511#16) (packing 9) = .next (after (.pput 511#16) (packing 9)) ∧
    (0 < 1 + (packing 9).pcur.toNat / 8 ∧
      1 + ((packing 9).pcur.toNat + (packing 9).pw.toNat + 7) / 8 ≤ 3) ∧
    exec .uget (unpacking 9) = .next (after .uget (unpacking 9)) :=
  ⟨exec_after (by decide +kernel), exec_after (by decide +kernel), exec_after (by decide +kernel),
    exec_after (by decide +kernel), exec_after (by decide +kernel), by decide, exec_after (by decide +kernel)⟩

theorem witness_IvalidIsSetByFoldAndClearedByHinitAndSrst :
    (exec .fold hashedAbc = .next (after .fold hashedAbc) ∧ answersErr .fold hashedAbc 0 = true) ∧
    (exec (.hinit 1#16) hashedAbc = .next (after (.hinit 1#16) hashedAbc) ∧
      answersErr (.hinit 1#16) hashedAbc 0 = true) ∧
    exec .srst hashedAbc = .next (after .srst hashedAbc) ∧
    (exec (.hinit 0#16) hashedAbc = .next (after (.hinit 0#16) hashedAbc) ∧
      answersErr (.hinit 0#16) hashedAbc 2 = true) ∧
    (Instr.wrst ≠ .fold ∧ (∀ n, Instr.wrst ≠ .hinit n) ∧ Instr.wrst ≠ .srst) :=
  ⟨⟨exec_after (by decide +kernel), by decide +kernel⟩, ⟨exec_after (by decide +kernel), by decide⟩,
    exec_after (by decide +kernel), ⟨exec_after (by decide +kernel), by decide⟩, by decide,
    (by intro n h; cases h), by decide⟩

theorem witness_DecompressOfCompress :
    State.reset.pending = [] ∧ (compress State.reset [0x41#8, 0x41#8, 0x41#8]).isSome = true ∧
    (compress State.reset []).isSome = true := by decide +kernel

theorem witness_TableImagesFitThePackUnit :
    State.reset.pending = [] ∧ ([] : List Byte).length ≤ 512 ∧
    (List.replicate 512 0#8).length ≤ 512 := by
  refine ⟨rfl, by decide, ?_⟩
  rw [List.length_replicate]

theorem witness_DecompressReturnsTheExpectedLength :
    (decompress State.reset [0x08#8, 0x41#8, 0x42#8] 2).1 = .ok [0x41#8, 0x42#8] := by
  decide +kernel

theorem witness_FailedImportLeavesTheTable :
    State.reset.pending = [] ∧ (importTable State.reset []).1 = .error .header ∧
    (mergeTable State.reset [0x09#8]).1 = .error .tooShort := by decide +kernel

end Sys2Proof.Tests
end

section
/-!
PROOFS. A command always completes: it answers a next state, keeps the frames presented and adds one
response (`00_scope.md` R3, `60_exceptions.md` R170). Then one step, by what the oldest frame is.
-/

namespace Sys2Proof.Machine

/-! ## Every command completes -/

/-- The outcome of a command begun in `s` is a next state with the same frames presented and one
response more. -/
def Completes (s : State) (o : Result) : Prop :=
  ∃ t r, o = .next t ∧ t.pending = s.pending ∧ t.outbox = s.outbox ++ [r]

theorem Completes.raise (e : ErrorCode) (s : State) : Completes s (raise e s) :=
  ⟨_, errorResponse e, rfl, rfl, rfl⟩

theorem Completes.respondWith {s u : State} {d : Word} {f : Byte} {p : List Byte}
    (hp : u.pending = s.pending) (ho : u.outbox = s.outbox) : Completes s (respondWith u d f p) :=
  ⟨_, okResponse d f p, rfl, hp, by rw [State.emit_outbox, ho]⟩

theorem Completes.respond {s u : State} {d : Word} (hp : u.pending = s.pending)
    (ho : u.outbox = s.outbox) : Completes s (respond u d) :=
  .respondWith hp ho

theorem Completes.ite {s : State} {c : Prop} [Decidable c] {a b : Result} (ha : Completes s a)
    (hb : Completes s b) : Completes s (if c then a else b) := by
  split
  · exact ha
  · exact hb

theorem execRdreg_completes (imm : Half) (s : State) : Completes s (execRdreg imm s) := by
  unfold execRdreg
  cases regOfNumber imm.toNat with
  | none => exact .raise _ _
  | some r => exact .respond rfl rfl

theorem execUbegin_completes (p : List Byte) (s : State) : Completes s (execUbegin p s) := by
  unfold execUbegin
  refine .ite (.raise _ _) ?_
  cases p with
  | nil => exact .raise _ _
  | cons header codes => exact .ite (.raise _ _) (.respond rfl rfl)

/-- R170: whatever the command and the state, the command completes. -/
theorem exec_completes (i : Instr) (s : State) : Completes s (exec i s) := by
  cases i with
  | rdreg imm => exact execRdreg_completes imm s
  | clrerr => exact .respond rfl rfl
  | srst => exact .respond rfl rfl
  | hinit imm => exact .ite (.raise _ _) (.respond rfl rfl)
  | habs imm => exact .ite (.raise _ _) (.ite (.raise _ _) (.respond rfl rfl))
  | hfin => exact .ite (.raise _ _) (.respond rfl rfl)
  | hrdd imm => exact .ite (.raise _ _) (.ite (.raise _ _) (.respond rfl rfl))
  | habsn p => exact .ite (.raise _ _) (.respond rfl rfl)
  | fold => exact .ite (.raise _ _) (.respond rfl rfl)
  | tadd => exact .ite (.raise _ _) (.respond rfl rfl)
  | tchk => exact .ite (.raise _ _) (.respondWith rfl rfl)
  | tclr => exact .respond rfl rfl
  | tget imm => exact .respondWith rfl rfl
  | tset p => exact .respondWith rfl rfl
  | tmrg p => exact .respondWith rfl rfl
  | wrst => exact .respond rfl rfl
  | wobs imm => exact .respond rfl rfl
  | pbegin imm => exact .ite (.raise _ _) (.respond rfl rfl)
  | pput imm => exact .ite (.raise _ _) (.ite (.raise _ _) (.ite (.raise _ _) (.respond rfl rfl)))
  | pget => exact .ite (.raise _ _) (.respondWith rfl rfl)
  | ubegin p => exact execUbegin_completes p s
  | uget => exact .ite (.raise _ _) (.ite (.raise _ _) (.respond rfl rfl))

/-! ## One step -/

theorem step_of_no_frame {s : State} (h : s.pending = []) : step s = .next s := by
  simp [step, fetchFrame, h, idleStep]

theorem step_of_decode_ok {s : State} {f : Frame} {rest : List Frame} {i : Instr}
    (h : s.pending = f :: rest) (hd : decodeFrame f = .ok i) :
    step s = exec i { s with pending := rest } := by
  simp [step, fetchFrame, h, hd]

theorem step_of_decode_error {s : State} {f : Frame} {rest : List Frame} {why : DecodeError}
    (h : s.pending = f :: rest) (hd : decodeFrame f = .error why) :
    step s = raise .illegal { s with pending := rest } := by
  simp [step, fetchFrame, h, hd, rejectFrame]

/-- R3, R170: a step with a frame presented completes, legal frame or not. -/
theorem step_completes {s : State} {f : Frame} {rest : List Frame} (h : s.pending = f :: rest) :
    Completes { s with pending := rest } (step s) := by
  cases hd : decodeFrame f with
  | ok i => rw [step_of_decode_ok h hd]; exact exec_completes i _
  | error why => rw [step_of_decode_error h hd]; exact .raise _ _

/-- Settles O8: the equation of `step` for a legal frame. -/
theorem stepRunsTheDecodedCommand : Obligations.StepRunsTheDecodedCommand :=
  fun _ _ _ _ => step_of_decode_ok

/-- Settles O9: the equation of `step` for no frame. -/
theorem stepWithoutFrameChangesNothing : Obligations.StepWithoutFrameChangesNothing :=
  fun _ => step_of_no_frame

/-- Settles O10: every command completes, and so does the answer to an illegal frame. -/
theorem everyFrameGetsOneResponse : Obligations.EveryFrameGetsOneResponse :=
  fun _ _ _ => step_completes

end Sys2Proof.Machine
end

section
/-!
PROOFS. Runs whose every response is a success (`SafeRun`), command by command, and the host's
transactions that perform them (`00_scope.md` R3, R14).
-/

namespace Sys2Proof

/-- Every command's `imm` is an operand or 0 (R75). -/
theorem Instr.immFree_or_imm_eq_zero (i : Instr) : i.op.immFree = true ∨ i.imm = 0#16 := by
  cases i <;> simp [Instr.op, Op.immFree, Instr.imm]

/-- The decoder reads a well-formed command back from its frame (R70, R72, R75). -/
theorem decodeFrame_encode {i : Instr} (h : i.wellFormed = true) : decodeFrame (encode i) = .ok i := by
  rw [encode, decodeFrame_commandWord i.immFree_or_imm_eq_zero (payload_length_of_wellFormed h),
    toInstr_parts]

end Sys2Proof

namespace Sys2Proof.Machine

/-! ## Runs of successful commands -/

theorem SafeRun.nil (s : State) : SafeRun [] s s [] := by simp [SafeRun, runCommands]

/-- A successful command, then a run of successful commands. -/
theorem SafeRun.cons {i : Instr} {is : List Instr} {s u t : State} {r : Response} {rs : List Response}
    (he : exec i s = .next u) (ho : u.outbox = s.outbox ++ [r]) (hr : r.err = 0#8)
    (h : SafeRun is u t rs) : SafeRun (i :: is) s t (r :: rs) := by
  obtain ⟨hrun, hout, hlen, hok⟩ := h
  refine ⟨?_, ?_, ?_, ?_⟩
  · rw [runCommands, he]; exact hrun
  · rw [hout, ho, List.append_assoc, List.singleton_append]
  · rw [List.length_cons, List.length_cons, hlen]
  · exact List.forall_mem_cons.mpr ⟨hr, hok⟩

/-- A command that responds, then a run of successful commands. -/
theorem SafeRun.cons_of_respondWith {i : Instr} {is : List Instr} {s u t : State} {d : Word} {f : Byte}
    {p : List Byte} {rs : List Response} (he : exec i s = respondWith u d f p)
    (ho : u.outbox = s.outbox) (h : SafeRun is (u.emit (okResponse d f p)) t rs) :
    SafeRun (i :: is) s t (okResponse d f p :: rs) :=
  .cons he (by rw [State.emit_outbox, ho]) rfl h

theorem runCommands_append (is js : List Instr) (s : State) :
    runCommands (is ++ js) s = (runCommands is s).bind (runCommands js) := by
  induction is generalizing s with
  | nil => rfl
  | cons i is ih =>
    obtain ⟨u, _, he, _, _⟩ := exec_completes i s
    simp only [List.cons_append, runCommands, he, ih]

/-- One run of successful commands after another. -/
theorem SafeRun.append {is js : List Instr} {s u t : State} {rs qs : List Response}
    (h : SafeRun is s u rs) (h' : SafeRun js u t qs) : SafeRun (is ++ js) s t (rs ++ qs) := by
  obtain ⟨hrun, hout, hlen, hok⟩ := h
  obtain ⟨hrun', hout', hlen', hok'⟩ := h'
  refine ⟨?_, ?_, ?_, ?_⟩
  · rw [runCommands_append, hrun, Option.bind_some, hrun']
  · rw [hout', hout, List.append_assoc]
  · rw [List.length_append, List.length_append, hlen, hlen']
  · exact List.forall_mem_append.mpr ⟨hok, hok'⟩

theorem SafeRun.allOk {is : List Instr} {s t : State} {rs : List Response} (h : SafeRun is s t rs) :
    allOk rs = true := by
  obtain ⟨_, _, _, hok⟩ := h
  simpa [Machine.allOk] using hok

/-! ## The host's transactions -/

/-- A transaction with no other frame outstanding executes its command and returns its response. -/
theorem transact_encode {i : Instr} {s t : State} {r : Response} (hw : i.wellFormed = true)
    (hs : s.pending = []) (he : exec i s = .next t) (ho : t.outbox = s.outbox ++ [r]) :
    transact s (encode i) = some (t, r) := by
  have hp : (presentFrame s (encode i)).pending = [encode i] := by simp [presentFrame, hs]
  have hback : { presentFrame s (encode i) with pending := [] } = s := by rw [← hs]; rfl
  have hstep : step (presentFrame s (encode i)) = .next t := by
    rw [step_of_decode_ok hp (decodeFrame_encode hw), hback, he]
  simp [transact, hstep, ho]

/-- The host's transactions with no other frame outstanding always complete: they run the commands,
and return the responses the run adds. -/
theorem transactAll_completes {is : List Instr} {s : State} (hw : ∀ i ∈ is, i.wellFormed = true)
    (hs : s.pending = []) :
    ∃ t rs, transactAll is s = some (t, rs) ∧ runCommands is s = some t ∧
      t.outbox = s.outbox ++ rs := by
  induction is generalizing s with
  | nil => exact ⟨s, [], rfl, rfl, by rw [List.append_nil]⟩
  | cons i is ih =>
    obtain ⟨hwi, hwis⟩ := List.forall_mem_cons.mp hw
    obtain ⟨u, r, he, hu, ho⟩ := exec_completes i s
    obtain ⟨t, rs, hall, hrun, hout⟩ := ih hwis (hu.trans hs)
    refine ⟨t, r :: rs, ?_, ?_, ?_⟩
    · simp only [transactAll, transact_encode hwi hs he ho, hall]
    · simp only [runCommands, he, hrun]
    · rw [hout, ho, List.append_assoc, List.singleton_append]

/-- The host performs a run of successful commands by transactions, with the same responses. -/
theorem SafeRun.transactAll_eq {is : List Instr} {s t : State} {rs : List Response}
    (h : SafeRun is s t rs) (hw : ∀ i ∈ is, i.wellFormed = true) (hs : s.pending = []) :
    transactAll is s = some (t, rs) := by
  obtain ⟨hrun, hout, _, _⟩ := h
  obtain ⟨t', rs', hall, hrun', hout'⟩ := transactAll_completes hw hs
  obtain rfl : t' = t := Option.some.inj (hrun'.symm.trans hrun)
  rw [hall, List.append_cancel_left (hout'.symm.trans hout)]

end Sys2Proof.Machine
end

section
/-!
PROOFS. Packing on the pack unit (`43_pack_unpack.md` R120 to R125, R128): the WOBS pass finds the
largest code, its width fits every code, and the PPUT pass then fills exactly the bytes the codes' bits
need. No command of the program fails while those bytes fit the pack buffer.
-/

namespace Sys2Proof.Machine

open Sys2Proof.Statements

/-! ## The largest code and its width -/

theorem foldl_max_toNat_lt_iff (codes : List Half) (m n : Nat) :
    codes.foldl (fun a c => max a c.toNat) m < n ↔ m < n ∧ ∀ c ∈ codes, c.toNat < n := by
  induction codes generalizing m with
  | nil => simp
  | cons c cs ih => rw [List.foldl_cons, ih, Nat.max_lt, List.forall_mem_cons, and_assoc]

theorem largestCode_lt_iff (codes : List Half) (n : Nat) :
    largestCode codes < n ↔ 0 < n ∧ ∀ c ∈ codes, c.toNat < n :=
  foldl_max_toNat_lt_iff codes 0 n

theorem lt_two_pow_codeWidth (m : Nat) : m < 2 ^ codeWidth m :=
  (bitlen_le_iff m _).mp (Nat.le_max_right 1 _)

theorem codeWidth_le_iff {m w : Nat} (hw : 1 ≤ w) : codeWidth m ≤ w ↔ m < 2 ^ w := by
  rw [codeWidth, Nat.max_le, bitlen_le_iff]
  exact and_iff_right hw

/-- Every code fits the width selected for the largest (R120). -/
theorem lt_two_pow_codeWidth_largestCode {codes : List Half} {c : Half} (hc : c ∈ codes) :
    c.toNat < 2 ^ codeWidth (largestCode codes) :=
  ((largestCode_lt_iff codes _).mp (lt_two_pow_codeWidth _)).2 c hc

theorem maxCode_toNat (m c : Half) : (maxCode m c).toNat = max m.toNat c.toNat := by
  unfold maxCode
  split <;> omega

/-! ## The WOBS pass (R121, R122) -/

/-- Observing codes succeeds and leaves the largest of them, and of the maximum before, in MAXC. -/
theorem safeRun_map_wobs (codes : List Half) (s : State) :
    ∃ t rs, SafeRun (codes.map .wobs) s t rs ∧
      t.maxc.toNat = codes.foldl (fun a c => max a c.toNat) s.maxc.toNat := by
  induction codes generalizing s with
  | nil => exact ⟨s, [], .nil s, rfl⟩
  | cons c cs ih =>
    obtain ⟨t, rs, hrun, hmax⟩ := ih
      (({ s with maxc := maxCode s.maxc c } : State).emit
        (okResponse ((maxCode s.maxc c).setWidth 32) 0#8 []))
    refine ⟨t, _, .cons_of_respondWith rfl rfl hrun, ?_⟩
    rw [hmax, State.emit_maxc, maxCode_toNat, List.foldl_cons]

/-! ## PBEGIN (R123) -/

/-- The state in which the pack unit holds an empty packed buffer of width `w`. -/
def beginPack (w : Nat) (s : State) : State :=
  { s with
    pw := BitVec.ofNat 5 w
    pbuf := memWrite [] 0 (BitVec.ofNat 8 w)
    plen := 1
    pcur := 0#14
    pmode := .pack }

theorem execPbegin_auto (s : State) : execPbegin 0#16 s =
    respond (beginPack (codeWidth s.maxc.toNat) s) (BitVec.ofNat 32 (codeWidth s.maxc.toNat)) := rfl

theorem beginPack_pw_toNat {w : Nat} (hw : w ≤ 16) (s : State) : (beginPack w s).pw.toNat = w := by
  rw [beginPack, BitVec.toNat_ofNat]
  omega

/-! ## The PPUT pass (R124) -/

/-- The state in which the code `c` has been appended to the packed buffer. -/
def putCode (c : Half) (s : State) : State :=
  { s with
    pbuf := putCodeBits s.pbuf s.pcur.toNat c s.pw.toNat
    pcur := BitVec.ofNat 14 (s.pcur.toNat + s.pw.toNat)
    plen := Fin.ofNat 1025 (packedLength (s.pcur.toNat + s.pw.toNat)) }

theorem execPput_of_fits {c : Half} {s : State} (hp : s.pmode = .pack) (hc : c.toNat < 2 ^ s.pw.toNat)
    (hfit : packedLength (s.pcur.toNat + s.pw.toNat) ≤ 1024) : execPput c s =
      respond (putCode c s) (BitVec.ofNat 32 (packedLength (s.pcur.toNat + s.pw.toNat))) := by
  rw [execPput, if_neg (not_not.mpr hp), if_neg (by omega),
    if_neg (by rw [Config.pbufBytes_eq]; omega)]
  rfl

theorem putCode_pcur_toNat {c : Half} {s : State}
    (hfit : packedLength (s.pcur.toNat + s.pw.toNat) ≤ 1024) :
    (putCode c s).pcur.toNat = s.pcur.toNat + s.pw.toNat := by
  rw [packedLength_eq] at hfit
  rw [putCode, BitVec.toNat_ofNat]
  omega

theorem putCode_plen_val {c : Half} {s : State}
    (hfit : packedLength (s.pcur.toNat + s.pw.toNat) ≤ 1024) :
    (putCode c s).plen.val = packedLength (s.pcur.toNat + s.pw.toNat) :=
  Nat.mod_eq_of_lt (by omega)

/-- Appending codes that fit the width succeeds while the bytes their bits need fit the pack buffer, and
leaves that many bytes in it. -/
theorem safeRun_map_pput {codes : List Half} {s : State} {w cur : Nat} (hmode : s.pmode = .pack)
    (hpw : s.pw.toNat = w) (hcur : s.pcur.toNat = cur) (hlen : s.plen.val = packedLength cur)
    (hc : ∀ c ∈ codes, c.toNat < 2 ^ w) (hfit : packedLength (cur + w * codes.length) ≤ 1024) :
    ∃ t rs, SafeRun (codes.map .pput) s t rs ∧ t.pmode = .pack ∧
      t.plen.val = packedLength (cur + w * codes.length) := by
  induction codes generalizing s cur with
  | nil => exact ⟨s, [], .nil s, hmode, hlen⟩
  | cons c cs ih =>
    obtain ⟨hcc, hcs⟩ := List.forall_mem_cons.mp hc
    have hbits : cur + w * (c :: cs).length = cur + w + w * cs.length := by
      rw [List.length_cons, Nat.mul_succ]; omega
    rw [hbits] at hfit ⊢
    have hone : packedLength (cur + w) ≤ 1024 := by
      rw [packedLength_eq] at hfit ⊢; omega
    rw [← hpw, ← hcur] at hone
    obtain ⟨t, rs, hrun, htmode, htlen⟩ := ih (cur := cur + w)
      (s := (putCode c s).emit
        (okResponse (BitVec.ofNat 32 (packedLength (s.pcur.toNat + s.pw.toNat))) 0#8 []))
      hmode hpw (by rw [State.emit_pcur, putCode_pcur_toNat hone, hpw, hcur])
      (by rw [State.emit_plen, putCode_plen_val hone, hpw, hcur]) hcs hfit
    exact ⟨t, _, .cons_of_respondWith (execPput_of_fits hmode (hpw ▸ hcc) hone) rfl hrun,
      htmode, htlen⟩

/-! ## PGET (R125) and the whole program (R128) -/

theorem execPget_of_not_idle {s : State} (h : s.pmode ≠ .idle) : execPget s =
    respondWith s (BitVec.ofNat 32 s.plen.val) 0#8 (memReadBytes s.pbuf 0 s.plen.val) :=
  if_neg h

/-- After a packed buffer of width `w` has been begun: the PPUT pass and PGET succeed if the packed form
of the codes fits, and PGET answers as many bytes as R128 gives. -/
theorem safeRun_pputs_pget {codes : List Half} {w : Nat} (hw : w ≤ 16)
    (hc : ∀ c ∈ codes, c.toNat < 2 ^ w) (hfit : packedLength (w * codes.length) ≤ 1024) (s : State)
    (r : Response) :
    ∃ t rs packed, SafeRun (codes.map .pput ++ [.pget]) ((beginPack w s).emit r) t rs ∧
      lastPayload rs = some packed ∧ packed.length = packedLength (w * codes.length) := by
  rw [← Nat.zero_add (w * _)] at hfit ⊢
  obtain ⟨u, rs, hrun, hmode, hlen⟩ := safeRun_map_pput (s := (beginPack w s).emit r) (cur := 0)
    rfl (beginPack_pw_toNat hw s) rfl rfl hc hfit
  have hpget : exec .pget u = respondWith u (BitVec.ofNat 32 u.plen.val) 0#8
      (memReadBytes u.pbuf 0 u.plen.val) := execPget_of_not_idle (by simp [hmode])
  refine ⟨_, _, memReadBytes u.pbuf 0 u.plen.val,
    hrun.append (.cons_of_respondWith hpget rfl (.nil _)), ?_, ?_⟩
  · simp [lastPayload]
  · rw [memReadBytes_length, hlen]

/-- The payload of the last response is that of the last part of a run. -/
theorem lastPayload_append {rs qs : List Response} {p : List Byte} (h : lastPayload qs = some p) :
    lastPayload (rs ++ qs) = some p := by
  rw [lastPayload, Option.map_eq_some_iff] at h ⊢
  obtain ⟨r, hr, hp⟩ := h
  exact ⟨r, List.mem_getLast?_append_of_mem_getLast? hr, hp⟩

/-- PACK of codes whose packed form fits the pack buffer succeeds, and its last response carries as many
bytes as R128 gives. -/
theorem safeRun_packProgram {codes : List Half}
    (hfit : packedLength (codeWidth (largestCode codes) * codes.length) ≤ 1024) (s : State) :
    ∃ t rs packed, SafeRun (packProgram codes) s t rs ∧ lastPayload rs = some packed ∧
      packed.length = packedLength (codeWidth (largestCode codes) * codes.length) := by
  obtain ⟨u, rs, hwobs, hmax⟩ := safeRun_map_wobs codes
    (({ s with maxc := 0#16 } : State).emit (okResponse 0#32 0#8 []))
  have hwidth : codeWidth u.maxc.toNat = codeWidth (largestCode codes) := congrArg codeWidth hmax
  rw [← hwidth] at hfit ⊢
  obtain ⟨t, qs, packed, hpack, hlast, hlen⟩ := safeRun_pputs_pget (codeWidth_le_sixteen u.maxc)
    (fun c hc => hwidth ▸ lt_two_pow_codeWidth_largestCode hc) hfit u
    (okResponse (BitVec.ofNat 32 (codeWidth u.maxc.toNat)) 0#8 [])
  refine ⟨t, _, packed, .cons_of_respondWith rfl rfl
    (hwobs.append (.cons_of_respondWith (execPbegin_auto u) rfl hpack)), ?_, hlen⟩
  exact lastPayload_append (rs := [_]) (lastPayload_append (lastPayload_append (rs := [_]) hlast))

end Sys2Proof.Machine
end

section
/-!
PROOFS. The dictionary coder (`45_host_dictionary_coder.md`): how many codes an input gives and how large
they are (R152), and that `compress` completes whenever those codes fit the pack unit (R153, R208).
-/

namespace Sys2Proof.Machine

open Sys2Proof.Statements

/-! ## The codes of an input (R152) -/

theorem dictCode_lt {added : List (List Byte)} {w : List Byte} {k : Nat} (h : dictCode added w = some k) :
    k < 256 + added.length := by
  unfold dictCode at h
  split at h
  · next b => cases h; have := b.isLt; omega
  · obtain ⟨j, hj, rfl⟩ := Option.map_eq_some_iff.mp h
    have := (List.findIdx?_eq_some_iff_findIdx_eq.mp hj).1
    omega

theorem lt_of_mem_emitCode {added : List (List Byte)} {w : List Byte} {k : Nat}
    (h : k ∈ emitCode added w) : k < 256 + added.length := by
  unfold emitCode at h
  split at h
  · cases h
  · exact dictCode_lt (Option.mem_toList.mp h)

theorem emitCode_length_le (added : List (List Byte)) (w : List Byte) :
    (emitCode added w).length ≤ if w = [] then 0 else 1 := by
  unfold emitCode
  split
  · exact Nat.le_refl 0
  · cases dictCode added w <;> simp

/-- Each byte read adds at most one entry, so no code reaches `256` plus the entries and the bytes. -/
theorem lt_of_mem_encodeFrom {added : List (List Byte)} {w rest : List Byte} {k : Nat}
    (h : k ∈ encodeFrom added w rest) : k < 256 + added.length + rest.length := by
  induction rest generalizing added w with
  | nil => exact lt_of_mem_emitCode h
  | cons c rest ih =>
    rw [List.length_cons]
    unfold encodeFrom at h
    split at h
    · have := ih h; omega
    · rcases List.mem_append.mp h with h | h
      · have := lt_of_mem_emitCode h; omega
      · have := ih h; rw [List.length_append, List.length_singleton] at this; omega

/-- At most one code per byte read, and one more for a string already matched. -/
theorem encodeFrom_length_le (added : List (List Byte)) (w rest : List Byte) :
    (encodeFrom added w rest).length ≤ (if w = [] then 0 else 1) + rest.length := by
  induction rest generalizing added w with
  | nil => exact emitCode_length_le added w
  | cons c rest ih =>
    rw [List.length_cons]
    unfold encodeFrom
    split
    · have := ih added (w ++ [c])
      rw [if_neg (by simp)] at this
      omega
    · have := ih (added ++ [w ++ [c]]) [c]
      rw [if_neg (by simp)] at this
      have := emitCode_length_le added w
      rw [List.length_append]
      omega

theorem lt_of_mem_dictionaryCodes {x : List Byte} {k : Nat} (h : k ∈ dictionaryCodes x) :
    k < 256 + x.length :=
  lt_of_mem_encodeFrom h

theorem dictionaryCodes_length_le (x : List Byte) : (dictionaryCodes x).length ≤ x.length :=
  (encodeFrom_length_le [] [] x).trans_eq (Nat.zero_add _)

/-! ## compress (R153) -/

theorem wellFormed_of_mem_packProgram {codes : List Half} {i : Instr} (h : i ∈ packProgram codes) :
    i.wellFormed = true := by
  simp only [packProgram, List.mem_cons, List.mem_append, List.mem_map, List.not_mem_nil, or_false] at h
  rcases h with rfl | ⟨_, _, rfl⟩ | rfl | ⟨_, _, rfl⟩ | rfl <;> rfl

/-- The codes of `x` as the 16-bit operands `compress` gives to WOBS and PPUT. -/
def operandCodes (x : List Byte) : List Half := (dictionaryCodes x).map (BitVec.ofNat 16)

/-- The payload bits of the packed form of `x`'s codes at the automatic width. -/
def compressedBits (x : List Byte) : Nat :=
  codeWidth (largestCode (operandCodes x)) * (operandCodes x).length

/-- `compress` completes for every input whose codes fit 16 bits and whose packed form fits the pack
buffer, and its packed bytes are as many as R153 gives. -/
theorem compress_of_fits {s : State} {x : List Byte} (hs : s.pending = [])
    (h16 : ∀ k ∈ dictionaryCodes x, k ≤ 65535) (hfit : packedLength (compressedBits x) ≤ 1024) :
    ∃ t packed, compress s x = some (t, packed) ∧
      packed.length = packedLength (compressedBits x) := by
  obtain ⟨t, rs, packed, hrun, hlast, hlen⟩ := safeRun_packProgram hfit s
  obtain ⟨r, hr, rfl⟩ := Option.map_eq_some_iff.mp hlast
  have hany : (dictionaryCodes x).any (fun c => decide (65535 < c)) = false := by
    simpa using h16
  have hall := hrun.transactAll_eq (fun _ => wellFormed_of_mem_packProgram) hs
  rw [operandCodes] at hall
  refine ⟨t, r.rpayload, ?_, hlen⟩
  simp [compress, hany, hall, hrun.allOk, hr]

/-- The codes of at most 512 bytes are below 1024, so ten bits hold each (R8). -/
theorem codeWidth_largestCode_le_ten {x : List Byte} (hx : x.length ≤ 512) :
    codeWidth (largestCode (operandCodes x)) ≤ 10 := by
  rw [codeWidth_le_iff (by decide), largestCode_lt_iff]
  refine ⟨by decide, List.forall_mem_map.mpr fun k hk => ?_⟩
  have := lt_of_mem_dictionaryCodes hk
  rw [BitVec.toNat_ofNat]
  omega

/-- At most 512 codes of at most ten bits each (R8). -/
theorem compressedBits_le {x : List Byte} (hx : x.length ≤ 512) : compressedBits x ≤ 10 * 512 :=
  Nat.mul_le_mul (codeWidth_largestCode_le_ten hx)
    (by rw [operandCodes, List.length_map]; exact (dictionaryCodes_length_le x).trans hx)

/-- Settles O58: 5120 bits need 640 bytes, behind one header byte. -/
theorem tableImagesFitThePackUnit : Obligations.TableImagesFitThePackUnit := by
  intro s x hs hx
  have hlen : packedLength (compressedBits x) ≤ 641 := by
    have := compressedBits_le hx
    rw [packedLength_eq]
    omega
  have h16 : ∀ k ∈ dictionaryCodes x, k ≤ 65535 := fun k hk => by
    have := lt_of_mem_dictionaryCodes hk
    omega
  obtain ⟨t, packed, hcompress, hpacked⟩ := compress_of_fits hs h16 (by omega)
  exact ⟨t, packed, hcompress, by omega⟩

end Sys2Proof.Machine
end

section
/-!
PROOFS. What a command answers, said once for every command: either one of its checks (R182) refuses it
and an error is taken (R183), or all pass and it has its effect. Later proofs about one state element
then look at the effects alone.
-/

namespace Sys2Proof.Machine

/-- Every check of the command passes in state `s`, so that it succeeds (R172 to R178). -/
def Accepts (s : State) : Instr → Prop
  | .rdreg n => regOfNumber n.toNat ≠ none
  | .hinit n => 1 ≤ n.toNat ∧ n.toNat ≤ 4
  | .habs b => b.toNat ≤ 255 ∧ s.hstate = .absorb
  | .hfin | .habsn _ => s.hstate = .absorb
  | .hrdd j => s.hstate = .final ∧ j.toNat < 4 * s.bc.val
  | .fold => s.hstate = .final ∧ s.bc.val = 4
  | .tadd | .tchk => s.ivalid = true
  | .pbegin w => w.toNat ≤ 16
  | .pput c => s.pmode = .pack ∧ c.toNat < 2 ^ s.pw.toNat ∧
      packedLength (s.pcur.toNat + s.pw.toNat) ≤ 1024
  | .pget => s.pmode ≠ .idle
  | .ubegin p => p.length ≤ 1024 ∧ 1 ≤ (p.getD 0 0#8).toNat ∧ (p.getD 0 0#8).toNat ≤ 16
  | .uget => s.pmode = .unpack ∧ s.pcur.toNat + s.pw.toNat ≤ 8 * (s.plen.val - 1)
  | .clrerr | .srst | .tclr | .tget _ | .tset _ | .tmrg _ | .wrst | .wobs _ => True

/-- The state in which a hash of bucket count `n` has been started (R92). -/
def startHash (n : Nat) (s : State) : State :=
  { s with bc := Fin.ofNat 5 n, acc := accZero, lane := 0, hstate := .absorb, ivalid := false }

/-- The state in which a packed buffer has been loaded (R126). -/
def loadPacked (p : List Byte) (s : State) : State :=
  { s with
    pbuf := memWriteBytes [] 0 p
    plen := Fin.ofNat 1025 p.length
    pw := (p.getD 0 0#8).setWidth 5
    pcur := 0#14
    pmode := .unpack }

/-- The state a command that succeeds leaves, before its response is returned. -/
def effect (s : State) : Instr → State
  | .clrerr => { s with err := 0#8 }
  | .srst => { State.reset with pending := s.pending, outbox := s.outbox }
  | .hinit n => startHash n.toNat s
  | .habs b => absorbInto s [b.extractLsb 7 0]
  | .habsn p => absorbInto s p
  | .hfin => { s with acc := accMapBelow s.bc.val finalize s.acc, hstate := .final }
  | .fold => foldInto s
  | .tadd => { s with
      table := tableSetWord s.table s.widx.toNat (tableWord s.table s.widx.toNat ||| s.bmask) }
  | .tchk => { s with hit := hitFlag (tableWord s.table s.widx.toNat) s.bmask }
  | .tclr => { s with table := [] }
  | .tset p => { s with table := memWriteBytes s.table 0 (p.take (clampLength p.length)) }
  | .tmrg p => { s with table := memOrBytes s.table 0 (p.take (clampLength p.length)) }
  | .wrst => { s with maxc := 0#16 }
  | .wobs c => { s with maxc := maxCode s.maxc c }
  | .pbegin w => beginPack (beginWidth w s.maxc) s
  | .pput c => putCode c s
  | .ubegin p => loadPacked p s
  | .uget => { s with pcur := BitVec.ofNat 14 (s.pcur.toNat + s.pw.toNat) }
  | .rdreg _ | .hrdd _ | .tget _ | .pget => s

/-- The next states the command can answer in state `s`: an error taken, or its effect and a successful
response. -/
inductive Answers (s : State) (i : Instr) : State → Prop
  | failed (e : ErrorCode) (hn : ¬ Accepts s i) : Answers s i (s.withError e)
  | succeeded (d : Word) (f : Byte) (p : List Byte) (ha : Accepts s i) :
      Answers s i ((effect s i).emit (okResponse d f p))

theorem execUbegin_answers {p : List Byte} {s t : State} (h : execUbegin p s = .next t) :
    Answers s (.ubegin p) t := by
  obtain ⟨hl, rfl⟩ | ⟨-, rfl, rfl⟩ | ⟨w, codes, rfl, -, hw, rfl⟩ | ⟨w, codes, rfl, hl, h1, h16, rfl⟩ :=
    execUbegin_next h
  · exact .failed _ fun ⟨hl', _⟩ => by omega
  · exact .failed _ fun ⟨_, h1, _⟩ => absurd h1 (by decide)
  · exact .failed _ fun ⟨_, h1, h16⟩ => by simp only [List.getD_cons_zero] at h1 h16; omega
  · exact .succeeded _ _ _ ⟨hl, h1, h16⟩

/-- Every next state a command answers is one of those two. -/
theorem exec_answers {i : Instr} {s t : State} (h : exec i s = .next t) : Answers s i t := by
  cases i with
  | rdreg n =>
    obtain ⟨hr, rfl⟩ | ⟨r, hr, rfl⟩ := execRdreg_next h
    · exact .failed _ fun ha => ha hr
    · exact .succeeded _ _ _ (by simp [Accepts, hr])
  | clrerr => obtain rfl := execClrerr_next h; exact .succeeded _ _ _ trivial
  | srst => obtain rfl := execSrst_next h; exact .succeeded _ _ _ trivial
  | hinit n =>
    obtain ⟨hn, rfl⟩ | ⟨h1, h4, rfl⟩ := execHinit_next h
    · exact .failed _ fun ⟨h1, h4⟩ => by omega
    · exact .succeeded _ _ _ ⟨h1, h4⟩
  | habs b =>
    obtain ⟨hb, rfl⟩ | ⟨-, hs, rfl⟩ | ⟨hb, hs, rfl⟩ := execHabs_next h
    · exact .failed _ fun ⟨hb', _⟩ => by omega
    · exact .failed _ fun ⟨_, hs'⟩ => hs hs'
    · exact .succeeded _ _ _ ⟨hb, hs⟩
  | hfin =>
    obtain ⟨hs, rfl⟩ | ⟨hs, rfl⟩ := execHfin_next h
    · exact .failed _ hs
    · exact .succeeded _ _ _ hs
  | hrdd j =>
    obtain ⟨hs, rfl⟩ | ⟨-, hj, rfl⟩ | ⟨hs, hj, rfl⟩ := execHrdd_next h
    · exact .failed _ fun ⟨hs', _⟩ => hs hs'
    · exact .failed _ fun ⟨_, hj'⟩ => by omega
    · exact .succeeded _ _ _ ⟨hs, hj⟩
  | habsn p =>
    obtain ⟨hs, rfl⟩ | ⟨hs, rfl⟩ := execHabsn_next h
    · exact .failed _ hs
    · exact .succeeded _ _ _ hs
  | fold =>
    obtain ⟨hs, rfl⟩ | ⟨hs, hb, rfl⟩ := execFold_next h
    · exact .failed _ fun ⟨hs', hb'⟩ => hs.elim (· hs') (· hb')
    · exact .succeeded _ _ _ ⟨hs, hb⟩
  | tadd =>
    obtain ⟨hv, rfl⟩ | ⟨hv, rfl⟩ := execTadd_next h
    · exact .failed _ (by simp [Accepts, hv])
    · exact .succeeded _ _ _ hv
  | tchk =>
    obtain ⟨hv, rfl⟩ | ⟨hv, _, rfl, rfl⟩ := execTchk_next h
    · exact .failed _ (by simp [Accepts, hv])
    · exact .succeeded _ _ _ hv
  | tclr => obtain rfl := execTclr_next h; exact .succeeded _ _ _ trivial
  | tget n => obtain rfl := execTget_next h; exact .succeeded _ _ _ trivial
  | tset p => obtain rfl := execTset_next h; exact .succeeded _ _ _ trivial
  | tmrg p => obtain rfl := execTmrg_next h; exact .succeeded _ _ _ trivial
  | wrst => obtain rfl := execWrst_next h; exact .succeeded _ _ _ trivial
  | wobs c => obtain rfl := execWobs_next h; exact .succeeded _ _ _ trivial
  | pbegin w =>
    obtain ⟨hw, rfl⟩ | ⟨hw, _, rfl, rfl⟩ := execPbegin_next h
    · exact .failed _ (Nat.not_le.mpr hw)
    · exact .succeeded _ _ _ hw
  | pput c =>
    obtain ⟨hm, rfl⟩ | ⟨-, hc, rfl⟩ | ⟨-, -, hl, rfl⟩ | ⟨hm, hc, hl, rfl⟩ := execPput_next h
    · exact .failed _ fun ⟨hm', _⟩ => hm hm'
    · exact .failed _ fun ⟨_, hc', _⟩ => by omega
    · exact .failed _ fun ⟨_, _, hl'⟩ => by omega
    · exact .succeeded _ _ _ ⟨hm, hc, hl⟩
  | pget =>
    obtain ⟨hm, rfl⟩ | ⟨hm, rfl⟩ := execPget_next h
    · exact .failed _ fun ha => ha hm
    · exact .succeeded _ _ _ hm
  | ubegin p => exact execUbegin_answers h
  | uget =>
    obtain ⟨hm, rfl⟩ | ⟨-, hc, rfl⟩ | ⟨hm, hc, rfl⟩ := execUget_next h
    · exact .failed _ fun ⟨hm', _⟩ => hm hm'
    · exact .failed _ fun ⟨_, hc'⟩ => by omega
    · exact .succeeded _ _ _ ⟨hm, hc⟩

/-- No effect touches the responses given before (R14). -/
@[simp] theorem effect_outbox (s : State) (i : Instr) : (effect s i).outbox = s.outbox := by
  cases i <;> rfl

end Sys2Proof.Machine
end

section
/-!
PROOFS. Reset (`10_state.md` R47) and the invariants of R46: they hold after reset, an error keeps them, and
so does the effect of every command that passes its checks, unit by unit.
-/

namespace Sys2Proof.Machine

open Sys2Proof.Statements

variable {s : State}

/-! ## Reset (R47) -/

theorem tableWord_nil (w : Nat) : tableWord [] w = 0#16 := by
  rw [tableWord, memRead_nil, memRead_nil]
  rfl

theorem hasResetValues_reset : HasResetValues State.reset :=
  ⟨accGet_accZero, rfl, rfl, rfl, rfl, rfl, rfl, rfl, rfl, rfl, rfl, rfl, rfl, tableWord_nil, rfl,
    rfl, rfl, memRead_nil, rfl, rfl, rfl⟩

theorem inv_reset : Inv State.reset where
  lane_lt := by decide
  bc_zero_iff := by decide
  acc_zero := fun i _ => accGet_accZero i
  nibbles := by decide
  widx_eq := by decide
  widx_le := by decide
  bmask_eq := .inr ⟨rfl, rfl⟩
  ivalid_final := nofun
  ivalid_fold := nofun
  pw_le := by decide
  pw_zero_iff := by decide
  idle_empty := fun _ => ⟨rfl, rfl⟩
  header := fun h => absurd rfl h
  pack_len := nofun
  pack_zero := nofun
  unpack_len := nofun
  cursor_multiple := Nat.dvd_refl 0
  pbuf_zero := fun j _ => memRead_nil j
  err_bit0 := by decide
  table_wf := rfl
  pbuf_wf := rfl

/-! ## The two lists of the host, and errors -/

theorem Inv.withPending (h : Inv s) (fs : List Frame) : Inv { s with pending := fs } := { h with }

theorem Inv.emit (h : Inv s) (r : Response) : Inv (s.emit r) := { h with }

/-- No error has code 0, so none sets `ERR[0]` (R171). -/
theorem getLsbD_stickyError_zero (err : Byte) (e : ErrorCode) :
    (stickyError err e).getLsbD 0 = err.getLsbD 0 := by
  have := errorCodeNumber_range e
  simp [stickyError, show 0 < errorCodeNumber e by omega]

theorem Inv.withError (h : Inv s) (e : ErrorCode) : Inv (s.withError e) :=
  { h with err_bit0 := (getLsbD_stickyError_zero s.err e).trans h.err_bit0 }

/-! ## The hash unit (R92 to R95) -/

theorem absorbBytes_lane_lt {bc : Fin 5} {h : AccFile × Fin 4} (hl : h.2.val < bc.val) (bs : List Byte) :
    (absorbBytes bc h bs).2.val < bc.val := by
  induction bs generalizing h with
  | nil => exact hl
  | cons b bs ih => exact ih (nextLane_lt bc h.2 (by omega))

/-- Absorbing writes only accumulators below the bucket count (R93). -/
theorem accGet_absorbBytes_of_ge {bc : Fin 5} {h : AccFile × Fin 4} {i : Fin 4} (hl : h.2.val < bc.val)
    (hi : bc.val ≤ i.val) (bs : List Byte) : accGet (absorbBytes bc h bs).1 i = accGet h.1 i := by
  induction bs generalizing h with
  | nil => rfl
  | cons b bs ih =>
    have hne : i ≠ h.2 := fun hil => by rw [hil] at hi; omega
    rw [absorbBytes_cons, ih (nextLane_lt bc h.2 (by omega)), absorbByte, accGet_accSet, if_neg hne]

/-- The lane of an open hash is one of its buckets. -/
theorem Inv.lane_lt_of_absorb (h : Inv s) (hs : s.hstate = .absorb) : s.lane.val < s.bc.val := by
  have hbc : s.bc.val ≠ 0 := fun h0 => by simp [h.bc_zero_iff.mp h0] at hs
  have := h.lane_lt
  omega

/-- A successful HINIT clears IVALID and the digest with it, so no coordinate is left to be of it. -/
theorem Inv.afterHinit (h : Inv s) {n : Nat} (h1 : 1 ≤ n) (h4 : n ≤ 4) : Inv (startHash n s) :=
  { h with
    lane_lt := by simp [startHash]
    bc_zero_iff := by simp [startHash]; omega
    acc_zero := fun i _ => accGet_accZero i
    bmask_eq := h.bmask_eq.imp id fun ⟨hb, _⟩ => ⟨hb, rfl⟩
    ivalid_final := nofun
    ivalid_fold := nofun }

/-- What HABS, HABSN and HFIN may do to an open hash, over which no coordinate is valid (R28). -/
theorem Inv.setHash (h : Inv s) (hs : s.hstate = .absorb) {f : AccFile} {lane : Fin 4} {st : HState}
    (hst : st ≠ .idle) (hl : lane.val < s.bc.val)
    (hz : ∀ i : Fin 4, s.bc.val ≤ i.val → accGet f i = 0#32) :
    Inv { s with acc := f, lane := lane, hstate := st } :=
  have hiv : s.ivalid ≠ true := fun hv => by simp [(h.ivalid_final hv).1] at hs
  { h with
    lane_lt := Nat.lt_of_lt_of_le hl (Nat.le_max_left _ _)
    bc_zero_iff := iff_of_false (Nat.ne_zero_of_lt hl) hst
    acc_zero := hz
    ivalid_final := fun hv => absurd hv hiv
    ivalid_fold := fun hv => absurd hv hiv }

theorem Inv.afterAbsorb (h : Inv s) (hs : s.hstate = .absorb) (bs : List Byte) : Inv (absorbInto s bs) :=
  have hl := h.lane_lt_of_absorb hs
  h.setHash hs (by simp [hs]) (absorbBytes_lane_lt hl bs) fun i hi =>
    (accGet_absorbBytes_of_ge hl hi bs).trans (h.acc_zero i hi)

theorem Inv.afterHfin (h : Inv s) (hs : s.hstate = .absorb) :
    Inv { s with acc := accMapBelow s.bc.val finalize s.acc, hstate := .final } :=
  h.setHash hs (by decide) (h.lane_lt_of_absorb hs) fun i hi => by
    rw [accGet_accMapBelow, if_neg (by omega), h.acc_zero i hi]

/-! ## The index unit (R104 to R110) -/

theorem Inv.afterFold (h : Inv s) (hs : s.hstate = .final) (hb : s.bc.val = 4) : Inv (foldInto s) :=
  { h with
    nibbles := ⟨rfl, rfl, rfl⟩
    widx_eq := wordIndex_toNat _ _
    widx_le := by
      have h0 := (foldInto s).n0.isLt
      have h1 := (foldInto s).n1.isLt
      rw [foldInto_widx, wordIndex_toNat]
      omega
    bmask_eq := .inl (bitMask_toNat _)
    ivalid_final := fun _ => ⟨hs, hb⟩
    ivalid_fold := fun _ => ⟨rfl, rfl⟩ }

theorem Inv.withTable (h : Inv s) {m : Mem} (hm : memWf 512 m = true) : Inv { s with table := m } :=
  { h with table_wf := hm }

theorem length_take_clampLength_le (p : List Byte) : 0 + (p.take (clampLength p.length)).length ≤ 512 := by
  rw [List.length_take, clampLength, Config.tableBytes_eq]
  omega

/-! ## The pack unit (R123 to R127) -/

theorem one_le_beginWidth (w maxc : Half) : 1 ≤ beginWidth w maxc := by
  unfold beginWidth
  split
  · exact one_le_codeWidth _
  · next hw => exact Nat.pos_of_ne_zero fun h0 => hw (BitVec.eq_of_toNat_eq h0)

theorem beginWidth_le {w : Half} (hw : w.toNat ≤ 16) (maxc : Half) : beginWidth w maxc ≤ 16 := by
  unfold beginWidth
  split
  · exact codeWidth_le_sixteen maxc
  · exact hw

theorem Inv.afterPbegin (h : Inv s) {w : Nat} (h1 : 1 ≤ w) (h16 : w ≤ 16) : Inv (beginPack w s) :=
  have hpw := beginPack_pw_toNat h16 s
  have hzero : ∀ j, 1 ≤ j → memRead (beginPack w s).pbuf j = 0#8 := fun j hj =>
    (memRead_memWrite_of_ne [] _ (by omega)).trans (memRead_nil j)
  { h with
    pw_le := by omega
    pw_zero_iff := iff_of_false (by omega) nofun
    idle_empty := nofun
    header := fun _ => by
      rw [hpw, beginPack, memRead_memWrite_self, BitVec.toNat_ofNat]
      omega
    pack_len := fun _ => by simp [beginPack]
    pack_zero := fun _ p _ => by rw [payloadBit, hzero _ (by omega), BitVec.getLsbD_zero]
    unpack_len := nofun
    cursor_multiple := Nat.dvd_zero _
    pbuf_zero := hzero
    pbuf_wf := memWf_memWrite _ (by decide) (memWf_nil _) }

/-- The code's bits end at the new cursor, and its bytes at the new length (R124). -/
theorem Inv.afterPput (h : Inv s) (hm : s.pmode = .pack) {c : Half}
    (hfit : packedLength (s.pcur.toNat + s.pw.toNat) ≤ 1024) : Inv (putCode c s) :=
  have hcur := putCode_pcur_toNat (c := c) hfit
  have hlen := putCode_plen_val (c := c) hfit
  have hold := h.pack_len hm
  { h with
    idle_empty := fun hi => absurd (hi.symm.trans hm) (by decide)
    header := fun hi => (congrArg BitVec.toNat (memRead_putCodeBits_header ..)).trans (h.header hi)
    pack_len := fun _ => by rw [hcur, hlen, packedLength_eq]
    pack_zero := fun _ p hp => by
      rw [hcur] at hp
      rw [putCode, payloadBit_putCodeBits, if_neg (by omega), h.pack_zero hm p (by omega)]
    unpack_len := fun hu => absurd (hu.symm.trans hm) (by decide)
    cursor_multiple := by rw [hcur]; exact Nat.dvd_add h.cursor_multiple (Nat.dvd_refl _)
    pbuf_zero := fun j hj => by
      rw [hlen, packedLength_eq] at hj
      rw [putCode, memRead_putCodeBits_of_ge _ _ _ _ _ hj, h.pbuf_zero j (by omega)]
    pbuf_wf := memWf_putCodeBits c hfit h.pbuf_wf }

theorem Inv.afterUbegin (h : Inv s) {p : List Byte} (hl : p.length ≤ 1024) (h1 : 1 ≤ (p.getD 0 0#8).toNat)
    (h16 : (p.getD 0 0#8).toNat ≤ 16) : Inv (loadPacked p s) :=
  have hpw : (loadPacked p s).pw.toNat = (p.getD 0 0#8).toNat := by
    rw [loadPacked, BitVec.toNat_setWidth]
    omega
  have hlen : (loadPacked p s).plen.val = p.length := Nat.mod_eq_of_lt (by omega)
  have hread : ∀ j, memRead (loadPacked p s).pbuf j = p.getD j 0#8 := fun j => by
    rw [loadPacked, memRead_memWriteBytes]
    split
    · rfl
    · rw [memRead_nil, List.getD_eq_default _ _ (by omega)]
  have hne : p.length ≠ 0 := fun h0 => by
    rw [List.getD_eq_default _ _ (by omega)] at h1
    exact absurd h1 (by decide)
  { h with
    pw_le := by omega
    pw_zero_iff := iff_of_false (by omega) nofun
    idle_empty := nofun
    header := fun _ => by rw [hread, hpw]
    pack_len := nofun
    pack_zero := nofun
    unpack_len := fun _ => ⟨by omega, Nat.zero_le _⟩
    cursor_multiple := Nat.dvd_zero _
    pbuf_zero := fun j hj => by rw [hread, List.getD_eq_default _ _ (by omega)]
    pbuf_wf := memWf_memWriteBytes (by omega) (memWf_nil _) }

/-- The cursor stays within the 14 bits of PCUR, whose buffer has at most 1024 bytes (R36). -/
theorem advance_pcur_toNat {s : State} (hfit : s.pcur.toNat + s.pw.toNat ≤ 8 * (s.plen.val - 1)) :
    (BitVec.ofNat 14 (s.pcur.toNat + s.pw.toNat)).toNat = s.pcur.toNat + s.pw.toNat := by
  have := s.plen.isLt
  rw [BitVec.toNat_ofNat]
  omega

theorem Inv.afterUget (h : Inv s) (hm : s.pmode = .unpack)
    (hfit : s.pcur.toNat + s.pw.toNat ≤ 8 * (s.plen.val - 1)) :
    Inv { s with pcur := BitVec.ofNat 14 (s.pcur.toNat + s.pw.toNat) } :=
  have hcur := advance_pcur_toNat hfit
  { h with
    idle_empty := fun hi => absurd (hi.symm.trans hm) (by decide)
    pack_len := fun hp => absurd (hp.symm.trans hm) (by decide)
    pack_zero := fun hp => absurd (hp.symm.trans hm) (by decide)
    unpack_len := fun _ => ⟨(h.unpack_len hm).1, by rw [hcur]; exact hfit⟩
    cursor_multiple := by rw [hcur]; exact Nat.dvd_add h.cursor_multiple (Nat.dvd_refl _) }

/-! ## Every command and every step -/

theorem Inv.afterEffect (h : Inv s) {i : Instr} (ha : Accepts s i) : Inv (effect s i) := by
  cases i with
  | rdreg | hrdd | tget | pget => exact h
  | clrerr => exact { h with err_bit0 := BitVec.getLsbD_zero }
  | srst => exact { inv_reset with }
  | hinit n =>
    obtain ⟨h1, h4⟩ := ha
    exact h.afterHinit h1 h4
  | habs b =>
    obtain ⟨-, hs⟩ := ha
    exact h.afterAbsorb hs _
  | habsn p => exact h.afterAbsorb ha p
  | hfin => exact h.afterHfin ha
  | fold =>
    obtain ⟨hs, hb⟩ := ha
    exact h.afterFold hs hb
  | tadd => exact h.withTable (memWf_tableSetWord _ (Nat.lt_of_le_of_lt h.widx_le (by decide)) h.table_wf)
  | tchk | wrst | wobs => exact { h with }
  | tclr => exact h.withTable (memWf_nil _)
  | tset p => exact h.withTable (memWf_memWriteBytes (length_take_clampLength_le p) h.table_wf)
  | tmrg p => exact h.withTable (memWf_memOrBytes (length_take_clampLength_le p) h.table_wf)
  | pbegin w => exact h.afterPbegin (one_le_beginWidth w s.maxc) (beginWidth_le ha s.maxc)
  | pput c =>
    obtain ⟨hm, -, hfit⟩ := ha
    exact h.afterPput hm hfit
  | ubegin p =>
    obtain ⟨hl, h1, h16⟩ := ha
    exact h.afterUbegin hl h1 h16
  | uget =>
    obtain ⟨hm, hfit⟩ := ha
    exact h.afterUget hm hfit

/-- R46: a command keeps the invariants, whether it succeeds or fails. -/
theorem Inv.afterExec {i : Instr} {t : State} (h : Inv s) (he : exec i s = .next t) : Inv t := by
  cases exec_answers he with
  | failed e => exact h.withError e
  | succeeded d f p ha => exact (h.afterEffect ha).emit _

/-- Settles O15: an idle step changes nothing, and a step with a frame executes its command or takes
E_ILLEGAL. -/
theorem everyStepKeepsTheInvariants : Obligations.EveryStepKeepsTheInvariants := by
  intro s t h hstep
  obtain ⟨-, rfl⟩ | ⟨_, rest, _, -, -, he⟩ | ⟨_, rest, _, -, -, rfl⟩ := step_next hstep
  · exact h
  · exact (h.withPending rest).afterExec he
  · exact (h.withPending rest).withError .illegal

/-- Settles O14: the invariants of the reset state, field by field. -/
theorem resetStateIsLegal : Obligations.ResetStateIsLegal := inv_reset

/-- Settles O13: SRST leaves the reset state but for the two lists of the host. -/
theorem resetValues : Obligations.ResetValues :=
  ⟨hasResetValues_reset, fun _ => ⟨_, rfl, hasResetValues_reset⟩⟩

end Sys2Proof.Machine
end

section
/-!
PROOFS. What commands do to single state elements (`10_state.md`): IVALID (R28), the bits of the table (R30)
and the codes UGET can still deliver (R38 b).
-/

namespace Sys2Proof.Machine

open Sys2Proof.Statements

/-! ## IVALID (R28) -/

theorem effect_ivalid {i : Instr} (s : State) (hf : i ≠ .fold) (hh : ∀ n, i ≠ .hinit n) (hs : i ≠ .srst) :
    (effect s i).ivalid = s.ivalid := by
  cases i with
  | fold => exact absurd rfl hf
  | hinit n => exact absurd rfl (hh n)
  | srst => exact absurd rfl hs
  | _ => rfl

/-- Settles O55: an error leaves IVALID, SRST never takes one, and an effect moves IVALID in the three
commands named alone. -/
theorem ivalidIsSetByFoldAndClearedByHinitAndSrst :
    Obligations.IvalidIsSetByFoldAndClearedByHinitAndSrst := by
  intro i s t h
  cases exec_answers h with
  | failed e hn =>
    have herr := errorResponse_err_ne_zero e
    exact ⟨errorResponse e, rfl, fun _ h0 => absurd h0 herr, fun _ h0 => absurd h0 herr,
      fun hi => absurd (hi ▸ trivial) hn, fun _ => rfl⟩
  | succeeded d f p _ =>
    refine ⟨okResponse d f p, by rw [State.emit_outbox, effect_outbox], ?_, ?_, ?_, ?_⟩
    · rintro rfl _; rfl
    · rintro ⟨n, rfl⟩ _; rfl
    · rintro rfl; rfl
    · rintro (⟨hf, hh, hs⟩ | h0)
      · exact effect_ivalid s hf hh hs
      · exact absurd rfl h0

/-! ## The bits of the table (R30, R112) -/

/-- A block OR clears no table bit. -/
theorem getLsbD_tableWord_memOrBytes {m : Mem} {w b : Nat} (a : Nat) (bs : List Byte)
    (h : (tableWord m w).getLsbD b = true) : (tableWord (memOrBytes m a bs) w).getLsbD b = true := by
  have hbyte : ∀ x i, (memRead m x).getLsbD i = true → (memRead (memOrBytes m a bs) x).getLsbD i = true := by
    intro x i hx
    rw [memRead_memOrBytes]
    split
    · rw [BitVec.getLsbD_or, hx, Bool.true_or]
    · exact hx
  rw [tableWord, BitVec.getLsbD_append] at h ⊢
  split at h
  · next hb => rw [if_pos hb]; exact hbyte _ _ h
  · next hb => rw [if_neg hb]; exact hbyte _ _ h

/-- A word ORed into a table word clears no table bit. -/
theorem getLsbD_tableWord_tableSetWord_or {m : Mem} {w b : Nat} (x : Nat) (mask : Half)
    (h : (tableWord m w).getLsbD b = true) :
    (tableWord (tableSetWord m x (tableWord m x ||| mask)) w).getLsbD b = true := by
  rw [tableWord_tableSetWord]
  split
  · next hw => rw [← hw, BitVec.getLsbD_or, h, Bool.true_or]
  · exact h

/-- Of the commands that do not clear the table only TADD and TMRG write it, and both by OR. -/
theorem effect_keeps_tableBit {i : Instr} {s : State} {w b : Nat} (hi : clearsTable i = false)
    (h : (tableWord s.table w).getLsbD b = true) :
    (tableWord (effect s i).table w).getLsbD b = true := by
  cases i with
  | tclr | tset | srst => cases hi
  | tadd => exact getLsbD_tableWord_tableSetWord_or _ _ h
  | tmrg p => exact getLsbD_tableWord_memOrBytes _ _ h
  | _ => exact h

theorem exec_keeps_tableBit {i : Instr} {s t : State} {w b : Nat} (hi : clearsTable i = false)
    (he : exec i s = .next t) (h : (tableWord s.table w).getLsbD b = true) :
    (tableWord t.table w).getLsbD b = true := by
  cases exec_answers he with
  | failed e => exact h
  | succeeded d f p => exact effect_keeps_tableBit hi h

/-- Settles O36, by induction on the commands. -/
theorem setTableBitsStaySet : Obligations.SetTableBitsStaySet := by
  intro is
  induction is with
  | nil =>
    rintro s t - hrun w b h
    cases hrun
    exact h
  | cons i is ih =>
    intro s t hc hrun w b h
    obtain ⟨hi, his⟩ := List.forall_mem_cons.mp hc
    obtain ⟨u, _, he, -, -⟩ := exec_completes i s
    rw [runCommands, he] at hrun
    exact ih u t his hrun w b (exec_keeps_tableBit hi he h)

/-! ## The codes left in a packed buffer (R38 b, R127) -/

theorem withError_eq_afterError (s : State) (e : ErrorCode) :
    s.withError e = afterError s (errorCodeNumber e) := by
  cases e <;> rfl

theorem unpackRemaining_of_unpack {s : State} (h : s.pmode = .unpack) :
    unpackRemaining s = (8 * (s.plen.val - 1) - s.pcur.toNat) / s.pw.toNat := by
  simp only [unpackRemaining, h]

theorem Inv.pw_pos_of_unpack {s : State} (h : Inv s) (hm : s.pmode = .unpack) : 0 < s.pw.toNat :=
  Nat.pos_of_ne_zero fun h0 => by simp [h.pw_zero_iff.mp h0] at hm

/-- No code is left exactly if UGET's check fails: fewer than PW bits remain. -/
theorem unpackRemaining_eq_zero_iff {s : State} (h : Inv s) (hm : s.pmode = .unpack) :
    unpackRemaining s = 0 ↔ 8 * (s.plen.val - 1) < s.pcur.toNat + s.pw.toNat := by
  have := h.pw_pos_of_unpack hm
  rw [unpackRemaining_of_unpack hm, Nat.div_eq_zero_iff]
  omega

/-- Settles O50: taking a code takes PW bits from those left, so one from their quotient by PW. -/
theorem uremCountsTheCodesLeft : Obligations.UremCountsTheCodesLeft := by
  intro s h hm
  have hzero := unpackRemaining_eq_zero_iff h hm
  obtain ⟨t, _, he, -, -⟩ := exec_completes .uget s
  obtain ⟨hm', rfl⟩ | ⟨-, hend, rfl⟩ | ⟨-, hfit, rfl⟩ := execUget_next he
  · exact absurd hm hm'
  · exact ⟨fun _ => by rw [he, withError_eq_afterError]; rfl, fun hne => absurd (hzero.mpr hend) hne⟩
  · refine ⟨fun h0 => absurd (hzero.mp h0) (by omega), fun _ => ⟨_, he, rfl, ?_⟩⟩
    have hleft : s.pw.toNat ≤ 8 * (s.plen.val - 1) - s.pcur.toNat := by omega
    rw [unpackRemaining_of_unpack hm, unpackRemaining_of_unpack (by exact hm), State.emit_pcur,
      advance_pcur_toNat hfit, ← Nat.sub_sub]
    exact (Nat.div_eq_sub_div (h.pw_pos_of_unpack hm) hleft).symm

end Sys2Proof.Machine
end

section
/-!
PROOFS. The memory rules (`20_memory.md`): the two views of the table (R51), the four table writes issued twice
in a row (R57), and the frame of each unit's commands, what they leave unchanged when they answer a next state
(R54, R55, R59).
-/

namespace Sys2Proof.Machine

/-! ## A table word and its two bytes (R51) -/

theorem tableWord_toNat (m : Mem) (w : Nat) :
    (tableWord m w).toNat = (memRead m (2 * w)).toNat + 256 * (memRead m (2 * w + 1)).toNat := by
  rw [tableWord, BitVec.toNat_append, ← Nat.shiftLeft_add_eq_or_of_lt (memRead m (2 * w)).isLt,
    Nat.shiftLeft_eq]
  omega

theorem getLsbD_tableWord {m : Mem} {w b : Nat} (hb : b < 16) :
    (tableWord m w).getLsbD b = (memRead m (2 * w + b / 8)).getLsbD (b % 8) := by
  rw [tableWord, BitVec.getLsbD_append]
  split
  · next h => rw [Nat.div_eq_of_lt h, Nat.mod_eq_of_lt h, Nat.add_zero]
  · next h => rw [show b / 8 = 1 by omega, show b % 8 = b - 8 by omega]

/-- Settles O27: the word is the high byte appended to the low byte, read as a number and bit by bit. -/
theorem tableWordsAreLittleEndian : Obligations.TableWordsAreLittleEndian :=
  fun m w => ⟨tableWord_toNat m w, fun _ => getLsbD_tableWord⟩

/-! ## Table writes issued twice in a row (R57) -/

/-- A bit of ERR that is set stays set when its error is taken again (R37). -/
theorem stickyError_stickyError (err : Byte) (e : ErrorCode) :
    stickyError (stickyError err e) e = stickyError err e := by
  rw [stickyError, stickyError, BitVec.or_assoc, BitVec.or_self]

theorem tableSetWord_tableSetWord {t : Mem} {w : Nat} (v : Half) (hw : w < 256)
    (ht : memWf 512 t = true) : tableSetWord (tableSetWord t w v) w v = tableSetWord t w v := by
  have hwf := memWf_tableSetWord v hw ht
  refine mem_ext (memWf_tableSetWord v hw hwf) hwf fun a => ?_
  simp only [tableSetWord, memRead_memWrite]
  split_ifs <;> rfl

theorem tableSetWord_or_twice {t : Mem} {w : Nat} (mask : Half) (hw : w < 256)
    (ht : memWf 512 t = true) :
    tableSetWord (tableSetWord t w (tableWord t w ||| mask)) w
        (tableWord (tableSetWord t w (tableWord t w ||| mask)) w ||| mask) =
      tableSetWord t w (tableWord t w ||| mask) := by
  rw [tableWord_tableSetWord, if_pos rfl, BitVec.or_assoc, BitVec.or_self,
    tableSetWord_tableSetWord _ hw ht]

theorem memWriteBytes_memWriteBytes {size a : Nat} {m : Mem} {bs : List Byte} (ha : a + bs.length ≤ size)
    (hm : memWf size m = true) :
    memWriteBytes (memWriteBytes m a bs) a bs = memWriteBytes m a bs := by
  have hwf := memWf_memWriteBytes ha hm
  refine mem_ext (memWf_memWriteBytes ha hwf) hwf fun x => ?_
  simp only [memRead_memWriteBytes]
  split_ifs <;> rfl

theorem memOrBytes_memOrBytes {size a : Nat} {m : Mem} {bs : List Byte} (ha : a + bs.length ≤ size)
    (hm : memWf size m = true) : memOrBytes (memOrBytes m a bs) a bs = memOrBytes m a bs := by
  have hwf := memWf_memOrBytes ha hm
  refine mem_ext (memWf_memOrBytes ha hwf) hwf fun x => ?_
  simp only [memRead_memOrBytes]
  split_ifs
  · rw [BitVec.or_assoc, BitVec.or_self]
  · rfl

/-- TADD leaves IVALID, so the second TADD succeeds or fails as the first did. -/
theorem execTadd_twice {s t u : State} (hwf : memWf 512 s.table = true) (ht : execTadd s = .next t)
    (hu : execTadd t = .next u) : u = { t with outbox := u.outbox } := by
  obtain ⟨hv, rfl⟩ | ⟨hv, rfl⟩ := execTadd_next ht
  · obtain ⟨-, rfl⟩ | ⟨hv', -⟩ := execTadd_next hu
    · simp only [State.withError, stickyError_stickyError]
    · exact absurd (hv.symm.trans hv') (by decide)
  · obtain ⟨hv', -⟩ | ⟨-, rfl⟩ := execTadd_next hu
    · exact absurd (hv.symm.trans hv') (by decide)
    · simp only [State.emit, tableSetWord_or_twice s.bmask s.widx.isLt hwf]

/-- Settles O35, command by command: what the first one wrote is written again. -/
theorem tableWritesAreIdempotent : Obligations.TableWritesAreIdempotent := by
  rintro i s t u hwf (rfl | rfl | ⟨p, rfl⟩ | ⟨p, rfl⟩) ht hu
  · exact execTadd_twice hwf ht hu
  · obtain rfl := execTclr_next ht
    obtain rfl := execTclr_next hu
    rfl
  · obtain rfl := execTmrg_next ht
    obtain rfl := execTmrg_next hu
    simp only [State.emit, memOrBytes_memOrBytes (length_take_clampLength_le p) hwf]
  · obtain rfl := execTset_next ht
    obtain rfl := execTset_next hu
    simp only [State.emit, memWriteBytes_memWriteBytes (length_take_clampLength_le p) hwf]

/-! ## What a block write leaves unchanged (R59) -/

theorem memRead_memWriteBytes_of_ge (m : Mem) {a x : Nat} {bs : List Byte} (h : a + bs.length ≤ x) :
    memRead (memWriteBytes m a bs) x = memRead m x := by
  rw [memRead_memWriteBytes, if_neg (by omega)]

theorem memRead_memOrBytes_of_ge (m : Mem) {a x : Nat} {bs : List Byte} (h : a + bs.length ≤ x) :
    memRead (memOrBytes m a bs) x = memRead m x := by
  rw [memRead_memOrBytes, if_neg (by omega)]

/-- A raw command moves `min(len, TABLE_BYTES)` bytes (R59). -/
theorem length_take_clampLength (p : List Byte) :
    (p.take (clampLength p.length)).length = min p.length 512 := by
  rw [List.length_take, clampLength, Config.tableBytes_eq]
  omega

/-! ## Frames (R55): an error writes ERR alone (R183), an effect the elements its rule names -/

theorem effect_of_read {i : Instr} (s : State)
    (hi : (∃ n, i = .rdreg n) ∨ (∃ n, i = .hrdd n) ∨ (∃ n, i = .tget n) ∨ i = .pget) :
    effect s i = s := by
  obtain ⟨n, rfl⟩ | ⟨n, rfl⟩ | ⟨n, rfl⟩ | rfl := hi <;> rfl

/-- Settles O51: a read has no effect, so it leaves its response or an error alone. -/
theorem readCommandsFrame : Obligations.ReadCommandsFrame := by
  intro i s t hi h
  cases exec_answers h with
  | failed => exact ⟨rfl, fun _ => rfl, fun _ => rfl⟩
  | succeeded =>
    rw [effect_of_read s hi]
    exact ⟨rfl, fun _ => rfl, fun _ => rfl⟩

/-- Settles O52: HINIT writes BC and IVALID, the other three leave both. -/
theorem hashUnitCommandsFrame : Obligations.HashUnitCommandsFrame := by
  intro i s t hi h
  cases exec_answers h with
  | failed => exact ⟨rfl, fun _ => ⟨rfl, rfl⟩, fun _ => rfl, fun _ => rfl⟩
  | succeeded =>
    obtain ⟨n, rfl⟩ | hi := hi
    · exact ⟨rfl, fun hn => absurd rfl (hn n), fun _ => rfl, fun _ => rfl⟩
    · obtain ⟨b, rfl⟩ | ⟨p, rfl⟩ | rfl := hi <;>
        exact ⟨rfl, fun _ => ⟨rfl, rfl⟩, fun _ => rfl, fun _ => rfl⟩

/-- Settles O53: what each effect writes, and the table bytes a write does not reach. -/
theorem indexUnitCommandsFrame : Obligations.IndexUnitCommandsFrame := by
  intro s t
  refine ⟨fun h => ?fold, fun h => ?tchk, fun h => ?tadd, fun h => ?tclr, fun p h => ?tset,
    fun p h => ?tmrg⟩
  case fold | tchk | tclr => cases exec_answers h with | failed | succeeded => rfl
  case tadd =>
    cases exec_answers h with
    | failed => exact ⟨rfl, fun _ _ _ => rfl⟩
    | succeeded => exact ⟨rfl, fun _ h0 h1 => memRead_tableSetWord_of_ne s.table _ h0 h1⟩
  case tset =>
    cases exec_answers h with
    | failed => exact ⟨rfl, fun _ _ => rfl⟩
    | succeeded =>
      exact ⟨rfl, fun _ ha =>
        memRead_memWriteBytes_of_ge s.table (by rwa [Nat.zero_add, length_take_clampLength])⟩
  case tmrg =>
    cases exec_answers h with
    | failed => exact ⟨rfl, fun _ _ => rfl⟩
    | succeeded =>
      exact ⟨rfl, fun _ ha =>
        memRead_memOrBytes_of_ge s.table (by rwa [Nat.zero_add, length_take_clampLength])⟩

/-- Settles O54: what each effect writes, and the pack buffer's bytes a code's bits do not lie in. -/
theorem packUnitCommandsFrame : Obligations.PackUnitCommandsFrame := by
  intro s t
  refine ⟨fun i hi h => ?width, fun i hi h => ?start, fun c h => ?pput, fun h => ?uget⟩
  case width =>
    obtain rfl | ⟨c, rfl⟩ := hi
    · cases exec_answers h with | failed | succeeded => rfl
    · cases exec_answers h with | failed | succeeded => rfl
  case start =>
    obtain ⟨w, rfl⟩ | ⟨p, rfl⟩ := hi
    · cases exec_answers h with | failed | succeeded => rfl
    · cases exec_answers h with | failed | succeeded => rfl
  case pput =>
    cases exec_answers h with
    | failed => exact ⟨rfl, fun _ _ => rfl⟩
    | succeeded =>
      refine ⟨rfl, fun a ha => ?_⟩
      obtain hbefore | hbeyond := ha
      · exact memRead_putCodeBits_of_lt s.pbuf _ c _ a hbefore
      · exact memRead_putCodeBits_of_ge s.pbuf _ c _ a hbeyond
  case uget => cases exec_answers h with | failed | succeeded => rfl

end Sys2Proof.Machine
end

section
/-!
PROOFS. The encoding (`30_encoding.md`): the decoder accepts exactly the frames of R77 and reads each opcode
row's command from it (R72, R75), the encoder gives the frame back, and a byte transport carries both words
and payloads in the order of R78.
-/

namespace Sys2Proof

open Sys2Proof.Machine Sys2Proof.Statements

/-! ## What the decoder accepts (R77) -/

/-- Settles O1: the encoder writes the fields that the decoder's checks and its table read. -/
theorem decodeOfEncodeIsTheCommand : Obligations.DecodeOfEncodeIsTheCommand :=
  fun _ => decodeFrame_encode

/-- A frame passes the four checks of R77 for the command name `o`. -/
structure Frame.LegalFor (f : Frame) (o : Op) : Prop where
  opcode : o.code = f.op
  reserved : f.rsv = 0#8
  operand : o.immFree = true ∨ f.imm = 0#16
  length : f.payload.length = o.payloadLength f.imm

/-- A frame that is legal for a command is that command's word and payload. -/
theorem Frame.LegalFor.eq_mk {f : Frame} {o : Op} (h : f.LegalFor o) :
    f = ⟨commandWord o.code f.imm, f.payload⟩ := by
  rw [h.opcode, Frame.op, Frame.imm, commandWord_fields h.reserved]

/-- The decoder reads from a frame the command whose checks it passes, and no other. -/
theorem decodeFrame_eq_ok_iff {f : Frame} {i : Instr} :
    decodeFrame f = .ok i ↔ ∃ o, f.LegalFor o ∧ i = o.toInstr f.imm f.payload := by
  constructor
  · intro h
    unfold decodeFrame at h
    split at h
    · cases h
    · next o ho =>
      split at h
      · cases h
      · next hr =>
        split at h
        · cases h
        · next hi =>
          split at h
          · cases h
          · next hl =>
            rw [not_and_or, Bool.not_eq_false, not_not] at hi
            exact ⟨o, ⟨opOfCode_eq_some ho, not_not.mp hr, hi, not_not.mp hl⟩, (Except.ok.inj h).symm⟩
  · rintro ⟨o, h, rfl⟩
    conv_lhs => rw [h.eq_mk]
    exact decodeFrame_commandWord h.operand h.length

/-! ## The encoder after the decoder -/

theorem toInstr_imm {o : Op} {imm : Half} {p : List Byte} (hi : o.immFree = true ∨ imm = 0#16)
    (hp : p.length = o.payloadLength imm) : (o.toInstr imm p).imm = imm := by
  cases o <;> simp_all [Op.toInstr, Instr.imm, Op.immFree, Op.payloadLength, Op.hasPayload]

theorem toInstr_payload {o : Op} {imm : Half} {p : List Byte} (hp : p.length = o.payloadLength imm) :
    (o.toInstr imm p).payload = p := by
  cases o <;> simp_all [Op.toInstr, Instr.payload, Op.payloadLength, Op.hasPayload]

theorem toInstr_wellFormed {o : Op} {imm : Half} {p : List Byte} (hp : p.length = o.payloadLength imm) :
    (o.toInstr imm p).wellFormed = true := by
  have := imm.isLt
  cases o <;> simp_all [Op.toInstr, Instr.wellFormed, payloadFits, Op.payloadLength, Op.hasPayload]

/-- Settles O2: a frame that decodes is the word and payload of the command it is legal for. -/
theorem encodeOfDecodeIsTheFrame : Obligations.EncodeOfDecodeIsTheFrame := by
  intro f i hd
  obtain ⟨o, h, rfl⟩ := decodeFrame_eq_ok_iff.mp hd
  refine ⟨toInstr_wellFormed h.length, ?_⟩
  rw [encode, op_toInstr, toInstr_imm h.operand h.length, toInstr_payload h.length, ← h.eq_mk]

/-! ## The opcode rows (R75) -/

/-- `{op, 0x00, imm}` is the row's match word with the operand ORed in (R75, R82). -/
theorem matchWord_or (o : Op) (imm : Half) : o.matchWord ||| imm.setWidth 32 = commandWord o.code imm := by
  apply BitVec.eq_of_getLsbD_eq
  intro k hk
  simp only [Op.matchWord, commandWord, BitVec.getLsbD_or, BitVec.getLsbD_setWidth, BitVec.getLsbD_append]
  by_cases h16 : k < 16
  · simp [h16, hk, show k < 8 + 16 by omega]
  · simp [h16, BitVec.getLsbD_of_ge imm k (by omega)]

/-- A row whose `imm` is free, its opcode over any operand. -/
theorem decodeFrame_row {o : Op} {imm : Half} {p : List Byte} (hi : o.immFree = true)
    (hp : p.length = o.payloadLength imm) :
    decodeFrame ⟨o.matchWord ||| imm.setWidth 32, p⟩ = .ok (o.toInstr imm p) := by
  rw [matchWord_or]
  exact decodeFrame_commandWord (.inl hi) hp

/-- A row whose `imm` must be 0. -/
theorem decodeFrame_matchWord {o : Op} (hp : o.hasPayload = false) :
    decodeFrame ⟨o.matchWord, []⟩ = .ok (o.toInstr 0#16 []) :=
  decodeFrame_commandWord (.inr rfl) (by simp [Op.payloadLength, hp])

/-- Settles O3, row by row. -/
theorem everyOpcodeRowDecodesToItsCommand : Obligations.EveryOpcodeRowDecodesToItsCommand := by
  intro imm p hp
  exact ⟨decodeFrame_row (o := .rdreg) rfl rfl, decodeFrame_matchWord (o := .clrerr) rfl,
    decodeFrame_matchWord (o := .srst) rfl, decodeFrame_row (o := .hinit) rfl rfl,
    decodeFrame_row (o := .habs) rfl rfl, decodeFrame_matchWord (o := .hfin) rfl,
    decodeFrame_row (o := .hrdd) rfl rfl, decodeFrame_row (o := .habsn) rfl hp,
    decodeFrame_matchWord (o := .fold) rfl, decodeFrame_matchWord (o := .tadd) rfl,
    decodeFrame_matchWord (o := .tchk) rfl, decodeFrame_matchWord (o := .tclr) rfl,
    decodeFrame_row (o := .tget) rfl rfl, decodeFrame_row (o := .tset) rfl hp,
    decodeFrame_row (o := .tmrg) rfl hp, decodeFrame_matchWord (o := .wrst) rfl,
    decodeFrame_row (o := .wobs) rfl rfl, decodeFrame_row (o := .pbegin) rfl rfl,
    decodeFrame_row (o := .pput) rfl rfl, decodeFrame_matchWord (o := .pget) rfl,
    decodeFrame_row (o := .ubegin) rfl hp, decodeFrame_matchWord (o := .uget) rfl⟩

/-- Settles O4: six frames, decoded. -/
theorem specifiedWordsDecode : Obligations.SpecifiedWordsDecode := by
  unfold Obligations.SpecifiedWordsDecode
  decide

/-! ## Legal frames, by the numbers of their fields (R77) -/

theorem Frame.op_toNat (f : Frame) : f.op.toNat = f.cw.toNat / 2 ^ 24 := by
  have := f.cw.isLt
  simp only [Frame.op, BitVec.extractLsb_toNat, Nat.shiftRight_eq_div_pow]
  omega

theorem Frame.rsv_toNat (f : Frame) : f.rsv.toNat = f.cw.toNat / 2 ^ 16 % 256 := by
  simp only [Frame.rsv, BitVec.extractLsb_toNat, Nat.shiftRight_eq_div_pow]

theorem Frame.imm_toNat (f : Frame) : f.imm.toNat = f.cw.toNat % 2 ^ 16 := by
  simp only [Frame.imm, BitVec.extractLsb_toNat, Nat.shiftRight_zero]

theorem mem_opcodes_iff {b : Byte} : b.toNat ∈ opcodes ↔ ∃ o : Op, o.code = b := by
  have hrows : opcodes = allOps.map (fun o => o.code.toNat) := rfl
  have hall (o : Op) : o ∈ allOps := by cases o <;> decide
  simp only [hrows, List.mem_map, hall, true_and, BitVec.toNat_inj]

theorem code_mem_opcodesWithoutOperand_iff (o : Op) :
    o.code.toNat ∈ opcodesWithoutOperand ↔ o.immFree = false := by
  cases o <;> decide

theorem code_mem_opcodesWithPayload_iff (o : Op) :
    o.code.toNat ∈ opcodesWithPayload ↔ o.hasPayload = true := by
  cases o <;> decide

/-- The checks after the opcode's, by numbers and by the lists of opcodes in which R75 and R72 give them. -/
theorem Frame.legalFor_iff {f : Frame} {o : Op} (ho : o.code = f.op) :
    f.LegalFor o ↔ f.rsv.toNat = 0 ∧ (f.op.toNat ∈ opcodesWithoutOperand → f.imm.toNat = 0) ∧
      f.payload.length = if f.op.toNat ∈ opcodesWithPayload then f.imm.toNat else 0 := by
  have hrsv : f.rsv.toNat = 0 ↔ f.rsv = 0#8 := (BitVec.toNat_eq (y := 0#8)).symm
  have himm : f.imm.toNat = 0 ↔ f.imm = 0#16 := (BitVec.toNat_eq (y := 0#16)).symm
  rw [hrsv, himm, ← ho, code_mem_opcodesWithoutOperand_iff, imp_iff_not_or, Bool.not_eq_false]
  simp only [code_mem_opcodesWithPayload_iff]
  exact ⟨fun ⟨_, hr, hi, hl⟩ => ⟨hr, hi, hl⟩, fun ⟨hr, hi, hl⟩ => ⟨ho, hr, hi, hl⟩⟩

/-- `LegalFrame` says that the frame is legal for some command (R77). -/
theorem legalFrame_iff {f : Frame} : LegalFrame f ↔ ∃ o, f.LegalFor o := by
  rw [LegalFrame, ← f.op_toNat, ← f.rsv_toNat, ← f.imm_toNat, mem_opcodes_iff]
  constructor
  · rintro ⟨⟨o, ho⟩, hchecks⟩
    exact ⟨o, (Frame.legalFor_iff ho).mpr hchecks⟩
  · rintro ⟨o, h⟩
    exact ⟨⟨o, h.opcode⟩, (Frame.legalFor_iff h.opcode).mp h⟩

/-- Settles O5: both sides say that the frame passes the checks of some command. -/
theorem framesThatDecodeAreTheLegalOnes : Obligations.FramesThatDecodeAreTheLegalOnes := by
  intro f
  simp only [decodeFrame_eq_ok_iff, legalFrame_iff]
  constructor
  · rintro ⟨_, o, h, -⟩
    exact ⟨o, h⟩
  · rintro ⟨o, h⟩
    exact ⟨_, o, h, rfl⟩

/-- Settles O6: an illegal frame decodes to an error, which the step answers with E_ILLEGAL. -/
theorem illegalFrameRaisesEIllegal : Obligations.IllegalFrameRaisesEIllegal := by
  intro s f rest hs hf
  cases hd : decodeFrame f with
  | ok i => exact absurd ((framesThatDecodeAreTheLegalOnes f).mp ⟨i, hd⟩) hf
  | error why =>
    rw [step_of_decode_error hs hd, raise, withError_eq_afterError]
    rfl

/-! ## The byte transport (R78) -/

/-- The four bytes of a word, least significant first, are its digits in base 256. -/
theorem bytesOfWord_toNat (w : Word) : ∃ b0 b1 b2 b3 : Byte, bytesOfWord w = [b0, b1, b2, b3] ∧
    w.toNat = b0.toNat + 2 ^ 8 * b1.toNat + 2 ^ 16 * b2.toNat + 2 ^ 24 * b3.toNat := by
  refine ⟨_, _, _, _, rfl, ?_⟩
  have := w.isLt
  simp only [BitVec.extractLsb_toNat, Nat.shiftRight_eq_div_pow]
  omega

/-- The transport's decoder finds the end of a frame whose payload is as long as its word says (R70). -/
theorem frameOfBytes_toBytes_append {f : Frame} (h : f.payload.length = transportPayloadLength f.cw)
    (rest : List Byte) : frameOfBytes (f.toBytes ++ rest) = .ok (f, rest) := by
  simp [Frame.toBytes, bytesOfWord, frameOfBytes, wordOfBytes_bytesOfWord, ← h]

theorem transportPayloadLength_commandWord (o : Op) (imm : Half) :
    transportPayloadLength (commandWord o.code imm) = o.payloadLength imm := by
  simp [transportPayloadLength, opOfCode_code]

/-- A well-formed command is read back from any stream its frame begins. -/
theorem decodeBytes_encode_append {i : Instr} (h : i.wellFormed = true) (rest : List Byte) :
    decodeBytes ((encode i).toBytes ++ rest) = .ok (i, rest) := by
  have hlen : (encode i).payload.length = transportPayloadLength (encode i).cw := by
    rw [encode, transportPayloadLength_commandWord, payload_length_of_wellFormed h]
  simp only [decodeBytes, frameOfBytes_toBytes_append hlen, decodeFrame_encode h]

/-- Settles O7: the digits of each word, and the stream's decoder on an encoded command. -/
theorem byteTransportIsLittleEndian : Obligations.ByteTransportIsLittleEndian := by
  refine ⟨fun f => ?frame, fun r => ?response, fun i rest h => decodeBytes_encode_append h rest, rfl⟩
  case frame =>
    obtain ⟨b0, b1, b2, b3, hb, hn⟩ := bytesOfWord_toNat f.cw
    exact ⟨b0, b1, b2, b3, by rw [Frame.toBytes, hb]; rfl, hn⟩
  case response =>
    obtain ⟨b0, b1, b2, b3, hb, hn⟩ := bytesOfWord_toNat r.rw0
    obtain ⟨c0, c1, c2, c3, hc, hm⟩ := bytesOfWord_toNat r.rw1
    exact ⟨b0, b1, b2, b3, c0, c1, c2, c3, by rw [Response.toBytes, hb, hc]; rfl, hn, hm⟩

end Sys2Proof
end

section
/-!
PROOFS. The responses of commands (`30_encoding.md` R73, R74): a command that its checks accept succeeds, and
its response carries the flags and the payload given here; a command that fails carries neither.
-/

namespace Sys2Proof.Machine

/-- The flags in the response of a command that succeeds (R74). -/
def answerFlags (s : State) : Instr → Byte
  | .tchk => responseFlags (hitFlag (tableWord s.table s.widx.toNat) s.bmask) false
  | .tget n => responseFlags false (lenMismatch n.toNat)
  | .tset p | .tmrg p => responseFlags false (lenMismatch p.length)
  | _ => 0#8

/-- The payload in the response of a command that succeeds (R73). -/
def answerPayload (s : State) : Instr → List Byte
  | .tget n => memReadBytes s.table 0 (clampLength n.toNat)
  | .pget => memReadBytes s.pbuf 0 s.plen.val
  | _ => []

/-- A command that its checks accept has its effect and answers those flags and that payload. -/
theorem exec_of_accepts {s : State} {i : Instr} (h : Accepts s i) : ∃ d, exec i s =
    respondWith (effect s i) d (answerFlags s i) (answerPayload s i) := by
  cases i with
  | clrerr | srst | tclr | tget | tset | tmrg | wrst | wobs => exact ⟨_, rfl⟩
  | rdreg n =>
    obtain ⟨r, hr⟩ := Option.ne_none_iff_exists'.mp h
    exact ⟨readReg s r, by rw [exec, execRdreg, hr]; rfl⟩
  | hinit n =>
    obtain ⟨h1, h4⟩ := h
    exact ⟨_, if_neg (by rw [Config.nacc_eq]; omega)⟩
  | habs b =>
    obtain ⟨hb, hs⟩ := h
    exact ⟨_, (if_neg (by omega)).trans (if_neg (not_not.mpr hs))⟩
  | hfin | habsn => exact ⟨_, if_neg (not_not.mpr h)⟩
  | hrdd j =>
    obtain ⟨hs, hj⟩ := h
    exact ⟨_, (if_neg (not_not.mpr hs)).trans (if_neg (by omega))⟩
  | fold =>
    obtain ⟨hs, hb⟩ := h
    exact ⟨_, if_neg (by simp [hs, hb])⟩
  | tadd | tchk => exact ⟨_, if_neg (by rw [show s.ivalid = true from h]; decide)⟩
  | pbegin w => exact ⟨_, if_neg (Nat.not_lt.mpr h)⟩
  | pput c =>
    obtain ⟨hm, hc, hl⟩ := h
    exact ⟨_, execPput_of_fits hm hc hl⟩
  | pget => exact ⟨_, execPget_of_not_idle h⟩
  | ubegin p =>
    obtain ⟨hl, h1, h16⟩ := h
    cases p with
    | nil => exact absurd h1 (by decide)
    | cons w codes =>
      rw [List.getD_cons_zero] at h1 h16
      exact ⟨_, (if_neg (Nat.not_lt.mpr hl)).trans (if_neg (by rw [Config.cw_eq]; omega))⟩
  | uget =>
    obtain ⟨hm, hc⟩ := h
    exact ⟨_, (if_neg (not_not.mpr hm)).trans (if_neg (by omega))⟩

/-! ## The bits of the flags field (R74) -/

theorem responseFlags_getLsbD_zero (hit mis : Bool) : (responseFlags hit mis).getLsbD 0 = hit := by
  cases hit <;> cases mis <;> rfl

theorem responseFlags_getLsbD_one (hit mis : Bool) : (responseFlags hit mis).getLsbD 1 = mis := by
  cases hit <;> cases mis <;> rfl

theorem responseFlags_getLsbD_of_two_le (hit mis : Bool) {b : Nat} (hb : 2 ≤ b) :
    (responseFlags hit mis).getLsbD b = false := by
  rw [responseFlags, BitVec.getLsbD_append, if_neg (by omega), BitVec.getLsbD_zero]

theorem answerFlags_hit_iff {s : State} {i : Instr} : (answerFlags s i).getLsbD 0 = true ↔
    i = .tchk ∧ tableWord s.table s.widx.toNat &&& s.bmask ≠ 0#16 := by
  cases i with
  | tchk => rw [answerFlags, responseFlags_getLsbD_zero]; simp [hitFlag]
  | tget | tset | tmrg => rw [answerFlags, responseFlags_getLsbD_zero]; simp
  | _ => simp [answerFlags]

theorem answerFlags_lenMismatch_iff {s : State} {i : Instr} : (answerFlags s i).getLsbD 1 = true ↔
    (∃ n, i = .tget n ∧ n.toNat ≠ 512) ∨ (∃ p, i = .tset p ∧ p.length ≠ 512) ∨
      (∃ p, i = .tmrg p ∧ p.length ≠ 512) := by
  cases i with
  | tchk => rw [answerFlags, responseFlags_getLsbD_one]; simp
  | tget | tset | tmrg => rw [answerFlags, responseFlags_getLsbD_one]; simp [lenMismatch]
  | _ => simp [answerFlags]

theorem answerFlags_getLsbD_of_two_le (s : State) (i : Instr) {b : Nat} (hb : 2 ≤ b) :
    (answerFlags s i).getLsbD b = false := by
  cases i with
  | tchk | tget | tset | tmrg => exact responseFlags_getLsbD_of_two_le _ _ hb
  | _ => exact BitVec.getLsbD_zero

theorem answerPayload_ne_nil {s : State} {i : Instr} (h : answerPayload s i ≠ []) :
    (∃ n, i = .tget n) ∨ i = .pget := by
  cases i with
  | tget n => exact .inl ⟨n, rfl⟩
  | pget => exact .inr rfl
  | _ => exact absurd rfl h

/-- Settles O12: an error response has no flag and no payload, a success those of its command; TGET, TSET
and TMRG, which report a length, have no check to fail. -/
theorem responseFlagsAndPayloads : Obligations.ResponseFlagsAndPayloads := by
  intro i s t h
  cases exec_answers h with
  | failed e hn =>
    have hclear (b : Nat) : (errorResponse e).flags.getLsbD b = false := BitVec.getLsbD_zero
    refine ⟨errorResponse e, rfl, ?hit, ?mismatch, fun b _ => hclear b, fun h0 => absurd rfl h0,
      fun hp => absurd rfl hp⟩
    case hit =>
      exact iff_of_false (ne_true_of_eq_false (hclear 0)) fun ⟨_, h0, _⟩ => errorResponse_err_ne_zero e h0
    case mismatch =>
      refine iff_of_false (ne_true_of_eq_false (hclear 1)) ?_
      rintro (⟨n, rfl, -⟩ | ⟨p, rfl, -⟩ | ⟨p, rfl, -⟩) <;> exact hn trivial
  | succeeded d f p ha =>
    obtain ⟨d', he⟩ := exec_of_accepts ha
    refine ⟨okResponse d' (answerFlags s i) (answerPayload s i), ?_, ?hit, answerFlags_lenMismatch_iff,
      fun _ => answerFlags_getLsbD_of_two_le s i, fun _ => rfl, answerPayload_ne_nil⟩
    · rw [respondWith_next (he.symm.trans h), State.emit_outbox, effect_outbox]
    case hit => rw [okResponse_flags, answerFlags_hit_iff, okResponse_err, eq_self, true_and]

end Sys2Proof.Machine
end

section
/-!
PROOFS. The hash unit (`41_bucket_hash.md`): its arithmetic (R90, R91), each of its five commands (R92 to
R96), and the hash of a whole buffer (R97).
-/

namespace Sys2Proof.Machine

open Sys2Proof.Statements

/-! ## Frames and errors, as the statements write them -/

/-- The Encoding line of a command's rule, from its row of R75. -/
theorem isFrameOf_row {o : Op} {imm : Half} {p : List Byte} (hi : o.immFree = true ∨ imm = 0#16)
    (hp : p.length = o.payloadLength imm) : IsFrameOf o.code.toNat imm p (o.toInstr imm p) := by
  rw [IsFrameOf, ← commandWord_eq_ofNat]
  exact decodeFrame_commandWord hi hp

theorem raise_eq_afterError (e : ErrorCode) (s : State) :
    raise e s = .next (afterError s (errorCodeNumber e)) :=
  congrArg _ (withError_eq_afterError s e)

/-! ## ABSORB and FINAL (R90, R91) -/

/-- Settles O19: a 32-bit sum and left shift wrap at 2^32, a right shift is a division. -/
theorem absorbAndFinalArithmetic : Obligations.AbsorbAndFinalArithmetic := by
  refine ⟨fun a b => ?absorb, fun a => ?final⟩
  case absorb =>
    have hb : (b.setWidth 32).toNat = b.toNat := BitVec.toNat_setWidth_of_le (by decide)
    simp only [absorb, BitVec.toNat_xor, BitVec.toNat_ushiftRight, BitVec.toNat_add,
      BitVec.toNat_shiftLeft, Nat.shiftLeft_eq, Nat.shiftRight_eq_div_pow, hb]
  case final =>
    simp only [finalize, BitVec.toNat_xor, BitVec.toNat_ushiftRight, BitVec.toNat_add,
      BitVec.toNat_shiftLeft, Nat.shiftLeft_eq, Nat.shiftRight_eq_div_pow]

/-! ## HINIT (R92) -/

theorem startHash_bc (bc : Fin 5) (s : State) : (startHash bc.val s).bc = bc :=
  Fin.ext (Nat.mod_eq_of_lt bc.isLt)

theorem execHinit_of_bucketCount {bc : Fin 5} (h : 1 ≤ bc.val) (s : State) :
    execHinit (BitVec.ofNat 16 bc.val) s = respond (startHash bc.val s) (BitVec.ofNat 32 bc.val) := by
  have hbc := bc.isLt
  have hn : (BitVec.ofNat 16 bc.val).toNat = bc.val := Nat.mod_eq_of_lt (by omega)
  have hd : (BitVec.ofNat 16 bc.val).setWidth 32 = BitVec.ofNat 32 bc.val := by
    rw [← BitVec.ofNat_toNat, hn]
  rw [execHinit, hn, hd, if_neg (by rw [Config.nacc_eq]; omega)]
  rfl

/-- Settles O20: the two checks of the bucket count, and the state of a hash just started. -/
theorem hinitStartsAHash : Obligations.HinitStartsAHash := by
  refine fun s => ⟨fun imm => isFrameOf_row (o := .hinit) (.inl rfl) rfl, fun bc hbc => ?start,
    fun imm himm => ?operand⟩
  case start =>
    rw [exec, execHinit_of_bucketCount hbc]
    simp only [startHash, Fin.ofNat_val_eq_self]
    rfl
  case operand =>
    exact (if_pos (by rw [Config.nacc_eq]; omega)).trans (raise_eq_afterError .operand s)

/-! ## HABS (R93) -/

/-- The operand `imm[7:0]` of a byte written as `imm` is the byte. -/
theorem extractLsb_ofNat_toNat (b : Byte) : (BitVec.ofNat 16 b.toNat).extractLsb 7 0 = b := by
  apply BitVec.eq_of_toNat_eq
  have := b.isLt
  rw [BitVec.extractLsb_toNat, BitVec.toNat_ofNat]
  omega

theorem execHabs_of_absorb {s : State} (hs : s.hstate = .absorb) (b : Byte) :
    execHabs (BitVec.ofNat 16 b.toNat) s = respond (absorbInto s [b]) 0#32 := by
  have hb := b.isLt
  rw [execHabs, if_neg (by rw [BitVec.toNat_ofNat]; omega), if_neg (not_not.mpr hs),
    extractLsb_ofNat_toNat]

theorem execHabs_of_not_absorb {s : State} {imm : Half} (h : imm.toNat ≤ 255) (hs : s.hstate ≠ .absorb) :
    execHabs imm s = raise .seq s := by
  rw [execHabs, if_neg (by omega), if_pos hs]

/-- Settles O21: absorbing one byte writes accumulator LANE alone. -/
theorem habsAbsorbsOneByte : Obligations.HabsAbsorbsOneByte := by
  refine fun s => ⟨fun imm => isFrameOf_row (o := .habs) (.inl rfl) rfl, fun b hs hbc => ?absorb,
    fun imm himm => (if_pos himm).trans (raise_eq_afterError .operand s), fun imm himm hs => ?seq⟩
  case absorb =>
    have hacc (i : Fin 4) : accGet (absorbInto s [b]).acc i =
        if i = s.lane then absorb (accGet s.acc s.lane) b else accGet s.acc i :=
      accGet_accSet s.acc s.lane i _
    exact ⟨_, execHabs_of_absorb hs b, (hacc s.lane).trans (if_pos rfl),
      fun i hi => (hacc i).trans (if_neg hi), nextLane_val s.bc s.lane hbc, rfl⟩
  case seq => exact (execHabs_of_not_absorb himm hs).trans (raise_eq_afterError .seq s)

/-! ## HABSN (R94) -/

theorem execHabsn_of_absorb {s : State} (hs : s.hstate = .absorb) (p : List Byte) :
    execHabsn p s = respond (absorbInto s p) 0#32 :=
  if_neg (not_not.mpr hs)

/-- HABS of one byte after another leaves the accumulators and the lane as absorbing them all does. -/
theorem runCommands_map_habs {s : State} (hs : s.hstate = .absorb) (p : List Byte) :
    ∃ rs, runCommands (p.map (fun b => .habs (BitVec.ofNat 16 b.toNat))) s =
      some { absorbInto s p with outbox := rs } := by
  induction p generalizing s with
  | nil => exact ⟨s.outbox, rfl⟩
  | cons b p ih =>
    obtain ⟨rs, hrun⟩ := ih (s := (absorbInto s [b]).emit (okResponse 0#32 0#8 [])) hs
    refine ⟨rs, ?_⟩
    rw [List.map_cons, runCommands, exec, execHabs_of_absorb hs]
    exact hrun

/-- Absorbing in two parts, a response returned in between, is absorbing the concatenation. -/
theorem absorbInto_emit_absorbInto (s : State) (r : Response) (p q : List Byte) :
    absorbInto ((absorbInto s p).emit r) q = (absorbInto s (p ++ q)).emit r := by
  simp only [absorbInto, State.emit, absorbBytes_append]

/-- Settles O22: by induction on the bytes, and by the fold over a concatenation. -/
theorem habsnIsItsHabsInARow : Obligations.HabsnIsItsHabsInARow := by
  refine fun s => ⟨fun imm p hp => isFrameOf_row (o := .habsn) (.inl rfl) hp,
    fun hs => ⟨fun p => ?row, fun p q => ?two⟩,
    fun hs p => (if_pos hs).trans (raise_eq_afterError .seq s)⟩
  case row =>
    obtain ⟨rs, hrun⟩ := runCommands_map_habs hs p
    exact ⟨_, hrun, execHabsn_of_absorb hs p⟩
  case two =>
    refine ⟨_, _, execHabsn_of_absorb hs p, execHabsn_of_absorb (by exact hs) q, ?_⟩
    rw [absorbInto_emit_absorbInto]
    exact execHabsn_of_absorb hs (p ++ q)

/-! ## HFIN (R95) -/

/-- The state in which the accumulators of the hash have been finalised (R95). -/
def finishHash (s : State) : State :=
  { s with acc := accMapBelow s.bc.val finalize s.acc, hstate := .final }

theorem execHfin_of_absorb {s : State} (hs : s.hstate = .absorb) :
    execHfin s = respond (finishHash s) 0#32 :=
  if_neg (not_not.mpr hs)

/-- Settles O23: FINAL is applied to the accumulators below BC. -/
theorem hfinFinalisesEveryBucket : Obligations.HfinFinalisesEveryBucket :=
  fun s => ⟨isFrameOf_row (o := .hfin) (.inr rfl) rfl,
    fun hs => ⟨_, execHfin_of_absorb hs, accGet_accMapBelow s.bc.val finalize s.acc, rfl⟩,
    fun hs => (if_pos hs).trans (raise_eq_afterError .seq s)⟩

/-! ## HRDD (R96) -/

/-- A byte of a word as a digit in base 256. -/
theorem wordByte_setWidth (v : Word) (b : Nat) :
    (wordByte v b).setWidth 32 = BitVec.ofNat 32 (v.toNat / 256 ^ b % 256) := by
  rw [← BitVec.ofNat_toNat, wordByte, BitVec.toNat_setWidth, BitVec.toNat_ushiftRight,
    Nat.shiftRight_eq_div_pow, Nat.pow_mul]

theorem digestByte_eq (f : AccFile) (a b : Fin 4) :
    digestByte f (4 * a.val + b.val) = wordByte (accGet f a) b.val := by
  have ha : Fin.ofNat 4 ((4 * a.val + b.val) / 4) = a := by
    rw [show (4 * a.val + b.val) / 4 = a.val by omega, Fin.ofNat_val_eq_self]
  rw [digestByte, ha, show (4 * a.val + b.val) % 4 = b.val by omega]

theorem execHrdd_of_final {s : State} {j : Half} (hs : s.hstate = .final) (hj : j.toNat < 4 * s.bc.val) :
    execHrdd j s = respond s ((digestByte s.acc j.toNat).setWidth 32) := by
  rw [execHrdd, if_neg (not_not.mpr hs), if_neg (by omega)]

/-- Settles O24: the index `4a + b` is byte `b` of accumulator `a`. -/
theorem hrddReadsADigestByte : Obligations.HrddReadsADigestByte := by
  refine fun s => ⟨fun imm => isFrameOf_row (o := .hrdd) (.inl rfl) rfl, fun hs a b ha => ?read,
    fun hs imm => (if_pos hs).trans (raise_eq_afterError .seq s), fun hs imm himm => ?operand⟩
  case read =>
    have hj : (BitVec.ofNat 16 (4 * a.val + b.val)).toNat = 4 * a.val + b.val :=
      Nat.mod_eq_of_lt (by omega)
    rw [exec, execHrdd_of_final hs (by omega), hj, digestByte_eq, wordByte_setWidth]
    rfl
  case operand =>
    exact (if_neg (not_not.mpr hs)).trans ((if_pos himm).trans (raise_eq_afterError .operand s))

/-! ## The hash of a whole buffer (R97) -/

/-- The last byte of a buffer goes to the bucket its position gives. -/
theorem bucketBytes_concat (bc a : Nat) (buf : List Byte) (b : Byte) :
    bucketBytes bc a (buf ++ [b]) =
      bucketBytes bc a buf ++ if buf.length % bc = a then [b] else [] := by
  have hold : ∀ i ∈ (List.range buf.length).filter (fun i => i % bc == a),
      (buf ++ [b]).getD i 0#8 = buf.getD i 0#8 := fun i hi =>
    List.getD_append _ _ _ _ (List.mem_range.mp (List.mem_of_mem_filter hi))
  rw [bucketBytes, List.length_append, List.length_singleton, List.range_succ, List.filter_append,
    List.map_append, List.map_congr_left hold, ← bucketBytes]
  congr 1
  split <;> simp [*]

/-- The lane after a buffer that begins at lane 0. -/
theorem absorbBytes_lane_val {bc : Fin 5} (hbc : 1 ≤ bc.val) (f : AccFile) (buf : List Byte) :
    (absorbBytes bc (f, 0) buf).2.val = buf.length % bc.val := by
  induction buf using List.reverseRecOn with
  | nil => exact (Nat.zero_mod _).symm
  | append_singleton buf b ih =>
    rw [absorbBytes_append, absorbBytes_cons, absorbBytes_nil, absorbByte, nextLane_val _ _ hbc, ih,
      Nat.mod_add_mod, List.length_append, List.length_singleton]

/-- Each accumulator absorbs exactly the bytes of its bucket, in order. -/
theorem accGet_absorbBytes {bc : Fin 5} (hbc : 1 ≤ bc.val) (f : AccFile) (a : Fin 4) (buf : List Byte) :
    accGet (absorbBytes bc (f, 0) buf).1 a = (bucketBytes bc.val a.val buf).foldl absorb (accGet f a) := by
  induction buf using List.reverseRecOn with
  | nil => rfl
  | append_singleton buf b ih =>
    have hlane : a = (absorbBytes bc (f, 0) buf).2 ↔ buf.length % bc.val = a.val := by
      rw [← absorbBytes_lane_val hbc f buf, Fin.ext_iff, eq_comm]
    rw [absorbBytes_append, absorbBytes_cons, absorbBytes_nil, absorbByte, accGet_accSet,
      bucketBytes_concat, List.foldl_append, ← ih]
    by_cases ha : a = (absorbBytes bc (f, 0) buf).2
    · rw [if_pos ha, if_pos (hlane.mp ha), ← ha]; rfl
    · rw [if_neg ha, if_neg (mt hlane.mpr ha)]; rfl

/-- The state `HINIT bc; HABSN buf; HFIN` leaves, but for the responses. -/
def hashBuffer (bc : Fin 5) (buf : List Byte) (s : State) : State :=
  finishHash (absorbInto (startHash bc.val s) buf)

/-- The three commands succeed in any state. -/
theorem safeRun_hashBuffer {bc : Fin 5} (hbc : 1 ≤ bc.val) (buf : List Byte) (s : State) :
    ∃ os rs, SafeRun [.hinit (BitVec.ofNat 16 bc.val), .habsn buf, .hfin] s
      { hashBuffer bc buf s with outbox := os } rs :=
  ⟨_, _, .cons_of_respondWith (execHinit_of_bucketCount hbc s) rfl
    (.cons_of_respondWith (execHabsn_of_absorb rfl buf) rfl
      (.cons_of_respondWith (execHfin_of_absorb rfl) rfl (.nil _)))⟩

theorem hashBuffer_bc (bc : Fin 5) (buf : List Byte) (s : State) : (hashBuffer bc buf s).bc = bc :=
  startHash_bc bc s

theorem hashBuffer_lane_val {bc : Fin 5} (hbc : 1 ≤ bc.val) (buf : List Byte) (s : State) :
    (hashBuffer bc buf s).lane.val = buf.length % bc.val := by
  have hlane : (hashBuffer bc buf s).lane = (absorbBytes bc (accZero, 0) buf).2 := by
    simp only [hashBuffer, finishHash, absorbInto_lane, startHash_bc]
    rfl
  rw [hlane, absorbBytes_lane_val hbc]

/-- The accumulators after the whole-buffer hash: the buckets' hashes, and 0 at and above BC. -/
theorem accGet_hashBuffer {bc : Fin 5} (hbc : 1 ≤ bc.val) (buf : List Byte) (s : State) (a : Fin 4) :
    accGet (hashBuffer bc buf s).acc a =
      if a.val < bc.val then finalize ((bucketBytes bc.val a.val buf).foldl absorb 0#32) else 0#32 := by
  have hacc : (hashBuffer bc buf s).acc =
      accMapBelow bc.val finalize (absorbBytes bc (accZero, 0) buf).1 := by
    simp only [hashBuffer, finishHash, absorbInto_acc, absorbInto_bc, startHash_bc]
    rfl
  rw [hacc, accGet_accMapBelow]
  split
  · rw [accGet_absorbBytes hbc, accGet_accZero]
  · rw [accGet_absorbBytes_of_ge (by exact hbc) (by omega), accGet_accZero]

/-- The document's fixture: twenty bytes 0x41 in one bucket (R97). -/
theorem hash_twenty_0x41 : finalize ((List.replicate 20 0x41#8).foldl absorb 0#32) = 0x2F63F282#32 := by
  decide

/-- Settles O25: the run's final state, accumulator by accumulator, and HRDD on it. -/
theorem wholeBufferHashContract : Obligations.WholeBufferHashContract := by
  refine ⟨fun s buf bc hbc => ?_, hash_twenty_0x41⟩
  obtain ⟨os, rs, hrun⟩ := safeRun_hashBuffer hbc buf s
  have hbucket := hashBuffer_bc bc buf s
  refine ⟨_, rs, hrun, rfl, hbucket, hashBuffer_lane_val hbc buf s, accGet_hashBuffer hbc buf s,
    fun a b ha => ?_⟩
  obtain ⟨-, hread, -, -⟩ := hrddReadsADigestByte { hashBuffer bc buf s with outbox := os }
  exact ⟨_, hread rfl a b (ha.trans_eq (congrArg Fin.val hbucket.symm)), rfl⟩

end Sys2Proof.Machine
end

section
/-!
PROOFS. The index unit (`42_fold_index_table.md`): the fold and the coordinate (R100 to R104), each of its
seven commands (R104 to R110), and what ADD and CHECK of one name do (R111, R112).
-/

namespace Sys2Proof.Machine

open Sys2Proof.Statements

/-! ## The fold and the coordinate (R100 to R103) -/

/-- Nibble `j` of a half as the spec's bit slice. -/
theorem halfNibble_eq (h : Word) (j : Nat) : halfNibble h j = (h >>> (4 * j)).setWidth 4 := by
  apply BitVec.eq_of_toNat_eq
  rw [halfNibble, BitVec.toNat_ofNat, BitVec.toNat_setWidth, BitVec.toNat_ushiftRight,
    Nat.shiftRight_eq_div_pow, Nat.pow_mul]

/-- The low eight nibbles of the folded value are those of `h0`, the high eight those of `h1` (R101). -/
theorem nibble_foldedValue (h0 h1 : Word) (i : Nat) : nibble (foldedValue h0 h1) i =
    if i < 8 then halfNibble h0 i else halfNibble h1 (i - 8) := by
  rw [halfNibble_eq, halfNibble_eq]
  apply BitVec.eq_of_getLsbD_eq
  intro b hb
  split
  · simp only [nibble, foldedValue, BitVec.getLsbD_setWidth, BitVec.getLsbD_ushiftRight,
      BitVec.getLsbD_append, if_pos (show 4 * i + b < 32 by omega)]
  · simp only [nibble, foldedValue, BitVec.getLsbD_setWidth, BitVec.getLsbD_ushiftRight,
      BitVec.getLsbD_append, if_neg (show ¬ 4 * i + b < 32 by omega),
      show 4 * i + b - 32 = 4 * (i - 8) + b by omega]

/-- The fold of all 16 nibbles, in terms of the nibbles of the halves (R102). -/
theorem nibbleSum_foldedValue (h0 h1 : Word) :
    nibbleSum (foldedValue h0 h1) 0 = nibbleSum0 h0 h1 ∧
    nibbleSum (foldedValue h0 h1) 1 = nibbleSum1 h0 h1 ∧
    nibbleSum (foldedValue h0 h1) 2 = nibbleSum2 h0 h1 := by
  simp [nibbleSum, nibbleFold, nibbleSum0, nibbleSum1, nibbleSum2, nibble_foldedValue]

theorem bitMask_eq_ofNat (n2 : BitVec 4) : bitMask n2 = BitVec.ofNat 16 (2 ^ n2.toNat) := by
  rw [← bitMask_toNat, BitVec.ofNat_toNat, BitVec.setWidth_eq]

/-- The COORD view as a number: BMASK in the upper half, WIDX in the lower (R39, R104). -/
theorem coordView_eq_ofNat (bmask : Half) (widx : Byte) :
    coordView bmask widx = BitVec.ofNat 32 (65536 * bmask.toNat + widx.toNat) := by
  apply BitVec.eq_of_toNat_eq
  have hw := widx.isLt
  have hm := bmask.isLt
  rw [coordView, BitVec.toNat_append, BitVec.toNat_append,
    ← Nat.shiftLeft_add_eq_or_of_lt hw, ← Nat.shiftLeft_add_eq_or_of_lt (by simp; omega)]
  simp only [BitVec.toNat_ofNat, Nat.shiftLeft_eq]
  omega

/-! ## FOLD (R104) -/

theorem execFold_of_final {s : State} (hs : s.hstate = .final) (hb : s.bc.val = 4) : execFold s =
    respond (foldInto s) (coordView (foldInto s).bmask (foldInto s).widx) :=
  if_neg (by simp [hs, hb])

/-- Settles O26: the coordinate by the nibbles of the halves, and its view as a number. -/
theorem foldDerivesTheCoordinate : Obligations.FoldDerivesTheCoordinate := by
  refine fun s => ⟨isFrameOf_row (o := .fold) (.inr rfl) rfl, fun hs hb => ?fold,
    fun h => (if_pos h).trans (raise_eq_afterError .seq s)⟩
  case fold =>
    obtain ⟨h0, h1, h2⟩ := nibbleSum_foldedValue (foldLow s.acc) (foldHigh s.acc)
    rw [exec, execFold_of_final hs hb, coordView_eq_ofNat, foldInto_widx, wordIndex_toNat,
      foldInto_bmask, bitMask_toNat]
    simp only [foldInto, h0, h1, h2, bitMask_eq_ofNat]
    rfl

/-! ## TADD (R105) and TCHK (R106) -/

theorem execTadd_of_ivalid {s : State} (hv : s.ivalid = true) : execTadd s =
    respond { s with
      table := tableSetWord s.table s.widx.toNat (tableWord s.table s.widx.toNat ||| s.bmask) } 0#32 :=
  if_neg (by simp [hv])

/-- Settles O28: the word written, read back, and the bytes a word write does not reach. -/
theorem taddSetsTheCoordinateBit : Obligations.TaddSetsTheCoordinateBit :=
  fun s => ⟨isFrameOf_row (o := .tadd) (.inr rfl) rfl,
    fun hv => ⟨_, execTadd_of_ivalid hv, (tableWord_tableSetWord _ _ _ _).trans (if_pos rfl),
      fun _ => memRead_tableSetWord_of_ne s.table _, rfl⟩,
    fun hv => (if_pos hv).trans (raise_eq_afterError .seq s)⟩

theorem execTchk_of_ivalid {s : State} {hit : Bool} (hv : s.ivalid = true)
    (hh : hitFlag (tableWord s.table s.widx.toNat) s.bmask = hit) : execTchk s =
    respondWith { s with hit := hit } ((BitVec.ofBool hit).setWidth 32) (responseFlags hit false) [] := by
  subst hh
  exact if_neg (by simp [hv])

/-- Settles O29: the three answers of the coordinate's test. -/
theorem tchkTestsTheCoordinateBit : Obligations.TchkTestsTheCoordinateBit :=
  fun s => ⟨isFrameOf_row (o := .tchk) (.inr rfl) rfl,
    fun hv hbit => execTchk_of_ivalid hv (decide_eq_true hbit),
    fun hv hbit => execTchk_of_ivalid hv (decide_eq_false (not_not.mpr hbit)),
    fun hv => (if_pos hv).trans (raise_eq_afterError .seq s)⟩

/-! ## TCLR (R107) -/

theorem clearsTable_eq_false {i : Instr} (hc : i ≠ .tclr) (ht : ∀ p, i ≠ .tset p) (hs : i ≠ .srst) :
    clearsTable i = false := by
  cases i with
  | tclr => exact absurd rfl hc
  | tset p => exact absurd rfl (ht p)
  | srst => exact absurd rfl hs
  | _ => rfl

/-- Settles O30: the empty list reads 0 everywhere, and no other command but TSET and SRST clears a bit. -/
theorem tclrZeroesTheTable : Obligations.TclrZeroesTheTable :=
  ⟨isFrameOf_row (o := .tclr) (.inr rfl) rfl, fun _ => ⟨_, rfl, memRead_nil, rfl⟩,
    fun _ _ _ hc ht hs he _ _ => exec_keeps_tableBit (clearsTable_eq_false hc ht hs) he⟩

/-! ## The raw image: TGET, TSET and TMRG (R108 to R110) -/

theorem clampLength_eq (n : Nat) : clampLength n = min n 512 := by
  rw [clampLength, Config.tableBytes_eq]

theorem responseFlags_lenMismatch (n : Nat) :
    responseFlags false (lenMismatch n) = if n = 512 then 0x00#8 else 0x02#8 := by
  rw [lenMismatch, Config.tableBytes_eq]
  split
  · next h => rw [decide_eq_false (not_not.mpr h)]; rfl
  · next h => rw [decide_eq_true h]; rfl

theorem execTget_eq (imm : Half) (s : State) : execTget imm s =
    respondWith s (BitVec.ofNat 32 (min imm.toNat 512)) (if imm.toNat = 512 then 0x00#8 else 0x02#8)
      (memReadBytes s.table 0 (min imm.toNat 512)) := by
  rw [execTget, clampLength_eq, responseFlags_lenMismatch]

/-- Settles O31: the payload is the block read from byte 0. -/
theorem tgetAnswersTheRawImage : Obligations.TgetAnswersTheRawImage := by
  refine fun s imm => ⟨isFrameOf_row (o := .tget) (.inl rfl) rfl, _, execTget_eq imm s, rfl, ?data, rfl,
    memReadBytes_length _ _ _, fun i hi => ?byte⟩
  case data => exact Nat.mod_eq_of_lt (by omega)
  case byte => rw [okResponse_rpayload, memReadBytes_getElem?, if_pos hi, Nat.zero_add]

/-- The bytes of a payload that fit the table (R59). -/
theorem getD_take_clampLength {p : List Byte} {i : Nat} (hi : i < min p.length 512) :
    (p.take (clampLength p.length)).getD i 0#8 = p.getD i 0#8 := by
  rw [List.getD_eq_getElem?_getD, List.getElem?_take_of_lt (by rwa [clampLength_eq]),
    List.getD_eq_getElem?_getD]

/-- The table after TSET, byte by byte (R109). -/
theorem memRead_memWriteBytes_take (m : Mem) (p : List Byte) (i : Nat) :
    memRead (memWriteBytes m 0 (p.take (clampLength p.length))) i =
      if i < min p.length 512 then p.getD i 0#8 else memRead m i := by
  rw [memRead_memWriteBytes, length_take_clampLength]
  simp only [Nat.zero_le, true_and, Nat.zero_add, Nat.sub_zero]
  split
  · next hi => rw [getD_take_clampLength hi]
  · rfl

/-- The table after TMRG, byte by byte (R110). -/
theorem memRead_memOrBytes_take (m : Mem) (p : List Byte) (i : Nat) :
    memRead (memOrBytes m 0 (p.take (clampLength p.length))) i =
      if i < min p.length 512 then memRead m i ||| p.getD i 0#8 else memRead m i := by
  rw [memRead_memOrBytes, length_take_clampLength]
  simp only [Nat.zero_le, true_and, Nat.zero_add, Nat.sub_zero]
  split
  · next hi => rw [getD_take_clampLength hi]
  · rfl

/-- Settles O32: a block write of the bytes that fit the table. -/
theorem tsetOverwritesTheRawImage : Obligations.TsetOverwritesTheRawImage := by
  refine ⟨fun _ _ hp => isFrameOf_row (o := .tset) (.inl rfl) hp, fun s p =>
    ⟨_, rfl, memRead_memWriteBytes_take s.table p, ?_⟩⟩
  rw [responseFlags_lenMismatch, clampLength_eq]
  rfl

/-- Settles O33: a block OR of the bytes that fit the table. -/
theorem tmrgUnitesTheRawImage : Obligations.TmrgUnitesTheRawImage := by
  refine ⟨fun _ _ hp => isFrameOf_row (o := .tmrg) (.inl rfl) hp, fun s p =>
    ⟨_, rfl, memRead_memOrBytes_take s.table p, ?_⟩⟩
  rw [responseFlags_lenMismatch, clampLength_eq]
  rfl

/-- Settles O34: TGET reads the bytes TMRG left. -/
theorem mergeThenReadIsTheUnion : Obligations.MergeThenReadIsTheUnion := by
  intro s p hp
  obtain ⟨-, htmrg⟩ := tmrgUnitesTheRawImage
  obtain ⟨t, hmerge, htable, -⟩ := htmrg s p
  obtain ⟨-, r, hget, -, -, -, hlen, hbyte⟩ := tgetAnswersTheRawImage t 512#16
  refine ⟨t, _, r, hmerge, hget, rfl, hlen, fun i hi => ?_⟩
  rw [hbyte i hi, htable, if_pos (by omega)]

/-! ## ADD and CHECK of a name (R111, R112) -/

/-- A run, then one command more. -/
theorem runCommands_concat {is : List Instr} {i : Instr} {s u t : State} (h : runCommands is s = some u)
    (he : exec i u = .next t) : runCommands (is ++ [i]) s = some t := by
  rw [runCommands_append, h, Option.bind_some, runCommands, he]
  rfl

/-- HABSN of one piece after another absorbs the whole (R83, R94). -/
theorem runCommands_map_habsn {s : State} (hs : s.hstate = .absorb) (pieces : List (List Byte)) :
    ∃ os, runCommands (pieces.map .habsn) s = some { absorbInto s pieces.flatten with outbox := os } := by
  induction pieces generalizing s with
  | nil => exact ⟨s.outbox, rfl⟩
  | cons p pieces ih =>
    obtain ⟨os, hrun⟩ := ih (s := (absorbInto s p).emit (okResponse 0#32 0#8 [])) hs
    refine ⟨os, ?_⟩
    rw [List.map_cons, runCommands, exec, execHabsn_of_absorb hs]
    refine Eq.trans hrun ?_
    rw [absorbInto_emit_absorbInto]
    rfl

/-- HASH leaves the state of the whole-buffer hash, whatever the length of the buffer (R83). -/
theorem runCommands_hashProgram {bc : Fin 5} (hbc : 1 ≤ bc.val) (buf : List Byte) (s : State) :
    ∃ os, runCommands (hashProgram (BitVec.ofNat 16 bc.val) buf) s =
      some { hashBuffer bc buf s with outbox := os } := by
  obtain ⟨pieces, hpieces, rfl, -⟩ := absorbCommands_pieces (buf.length + 1) buf (Nat.lt_succ_self _)
  obtain ⟨os, hrun⟩ := runCommands_map_habsn
    (s := (startHash bc.val s).emit (okResponse (BitVec.ofNat 32 bc.val) 0#8 [])) rfl pieces
  refine ⟨os ++ [okResponse 0#32 0#8 []], ?_⟩
  rw [hashProgram, hpieces, runCommands, exec, execHinit_of_bucketCount hbc]
  exact runCommands_concat hrun (execHfin_of_absorb rfl)

theorem hashBuffer_table (bc : Fin 5) (buf : List Byte) (s : State) :
    (hashBuffer bc buf s).table = s.table := by
  simp [hashBuffer, finishHash, startHash]

/-- The hash of a buffer depends on the buffer and not on the state it is begun in (R97). -/
theorem hashBuffer_acc_congr {bc : Fin 5} (hbc : 1 ≤ bc.val) (buf : List Byte) (s t : State) :
    (hashBuffer bc buf s).acc = (hashBuffer bc buf t).acc :=
  acc_ext fun a => by rw [accGet_hashBuffer hbc, accGet_hashBuffer hbc]

/-- The index registers after the fold of a name's hash, begun in the reset state. -/
def coordinate (name : List Byte) : State := foldInto (hashBuffer 4 name State.reset)

/-- COORD leaves the table and a valid coordinate, which depends on the name and not on the state. -/
theorem runCommands_coordProgram (name : List Byte) (s : State) :
    ∃ t, runCommands (coordProgram name) s = some t ∧ t.table = s.table ∧ t.ivalid = true ∧
      t.widx = (coordinate name).widx ∧ t.bmask = bitMask (coordinate name).n2 := by
  obtain ⟨os, hrun⟩ := runCommands_hashProgram (bc := 4) (by decide) name s
  have hacc := hashBuffer_acc_congr (bc := 4) (by decide) name s State.reset
  refine ⟨_, runCommands_concat hrun (execFold_of_final rfl (congrArg Fin.val (hashBuffer_bc 4 name s))),
    ?table, rfl, ?widx, ?bmask⟩
  case table => simp [hashBuffer_table]
  case widx => simp [coordinate, hacc]
  case bmask => simp [coordinate, hacc]

theorem getLsbD_bitMask_self (n2 : BitVec 4) : (bitMask n2).getLsbD n2.toNat = true := by
  revert n2; decide

theorem and_bitMask_ne_zero {v : Half} {n2 : BitVec 4} (h : v.getLsbD n2.toNat = true) :
    v &&& bitMask n2 ≠ 0#16 := by
  intro h0
  have hbit : (v &&& bitMask n2).getLsbD n2.toNat = true := by
    rw [BitVec.getLsbD_and, h, getLsbD_bitMask_self, Bool.and_self]
  rw [h0, BitVec.getLsbD_zero] at hbit
  exact absurd hbit (by decide)

/-- The table bit of a name is set: bit N2 of word WIDX of its coordinate (R103). -/
def NameBitSet (name : List Byte) (s : State) : Prop :=
  (tableWord s.table (coordinate name).widx.toNat).getLsbD (coordinate name).n2.toNat = true

/-- After ADD of a name its bit is set. -/
theorem nameBitSet_of_addProgram {name : List Byte} {s t : State}
    (h : runCommands (addProgram name) s = some t) : NameBitSet name t := by
  obtain ⟨u, hrun, -, hv, hwidx, hbmask⟩ := runCommands_coordProgram name s
  obtain ⟨-, htadd, -⟩ := taddSetsTheCoordinateBit u
  obtain ⟨t', he, hword, -⟩ := htadd hv
  obtain rfl : t' = t := Option.some.inj ((runCommands_concat hrun he).symm.trans h)
  rw [NameBitSet, ← hwidx, hword, hbmask, BitVec.getLsbD_or, getLsbD_bitMask_self, Bool.or_true]

/-- CHECK of a name whose bit is set hits. -/
theorem NameBitSet.checkProgram_hits {name : List Byte} {s : State} (h : NameBitSet name s) :
    ∃ t, runCommands (checkProgram name) s = some t ∧ t.hit = true ∧
      t.outbox.getLast? = some ⟨0#8, 0x01#8, 1#32, []⟩ := by
  obtain ⟨u, hrun, htable, hv, hwidx, hbmask⟩ := runCommands_coordProgram name s
  obtain ⟨-, htchk, -⟩ := tchkTestsTheCoordinateBit u
  have hmask : tableWord u.table u.widx.toNat &&& u.bmask ≠ 0#16 := by
    rw [htable, hwidx, hbmask]
    exact and_bitMask_ne_zero h
  exact ⟨_, runCommands_concat hrun (htchk hv hmask), rfl, List.getLast?_concat⟩

/-- Settles O37: ADD sets the name's bit, which stays set, and CHECK tests the same bit. -/
theorem noFalseNegatives : Obligations.NoFalseNegatives := by
  intro x is s t u hc hadd hrun
  have hstays : NameBitSet x u := setTableBitsStaySet is t u hc hrun _ _ (nameBitSet_of_addProgram hadd)
  exact hstays.checkProgram_hits

end Sys2Proof.Machine
end

section
/-!
PROOFS. The pack unit (`43_pack_unpack.md`), command by command: the width (R120), the running maximum (R121,
R122), and what PBEGIN, PPUT, PGET, UBEGIN and UGET write, answer and leave unchanged (R123 to R127).
-/

namespace Sys2Proof.Machine

open Sys2Proof.Statements

/-! ## The width (R120) -/

theorem bitlen_eq_size (m : Nat) : bitlen m = Nat.size m :=
  eq_of_forall_ge_iff fun w => (bitlen_le_iff m w).trans Nat.size_le.symm

theorem codeWidth_eq_max_size (m : Nat) : codeWidth m = max 1 (Nat.size m) := by
  rw [codeWidth, bitlen_eq_size]

/-- One bit less than the width does not hold the code. -/
theorem two_pow_codeWidth_sub_one_le {m : Nat} (hm : 1 ≤ m) : 2 ^ (codeWidth m - 1) ≤ m := by
  have hpos : 1 ≤ Nat.size m := Nat.size_pos.mpr hm
  rw [codeWidth_eq_max_size, Nat.max_eq_right hpos, ← Nat.lt_size]
  exact Nat.sub_one_lt_of_lt hpos

/-- Settles O39: the bit length is `Nat.size`, the least number of bits that hold `m`. -/
theorem widthIsTheBitLength : Obligations.WidthIsTheBitLength :=
  ⟨codeWidth_eq_max_size, fun m hm => ⟨two_pow_codeWidth_sub_one_le hm, lt_two_pow_codeWidth m⟩, rfl, rfl⟩

/-! ## WRST (R121) and WOBS (R122) -/

theorem maxCode_eq_ofNat (m c : Half) : maxCode m c = BitVec.ofNat 16 (max m.toNat c.toNat) := by
  rw [← maxCode_toNat, BitVec.ofNat_toNat, BitVec.setWidth_eq]

theorem execWobs_eq (c : Half) (s : State) : execWobs c s =
    respond { s with maxc := BitVec.ofNat 16 (max s.maxc.toNat c.toNat) }
      (BitVec.ofNat 32 (max s.maxc.toNat c.toNat)) := by
  rw [execWobs, ← BitVec.ofNat_toNat, maxCode_toNat, maxCode_eq_ofNat]

/-- Settles O40: the maximum of two codes, and by the WOBS pass that of a sequence. -/
theorem wobsKeepsTheRunningMaximum : Obligations.WobsKeepsTheRunningMaximum := by
  refine fun s => ⟨isFrameOf_row (o := .wrst) (.inr rfl) rfl,
    fun imm => isFrameOf_row (o := .wobs) (.inl rfl) rfl, rfl, fun c => execWobs_eq c s, fun codes => ?run⟩
  case run =>
    obtain ⟨t, _, ⟨hrun, -⟩, hmax⟩ := safeRun_map_wobs codes
      (({ s with maxc := 0#16 } : State).emit (okResponse 0#32 0#8 []))
    exact ⟨t, hrun, hmax⟩

/-! ## PBEGIN (R123) -/

theorem beginWidth_eq (imm maxc : Half) : beginWidth imm maxc =
    if imm.toNat = 0 then max 1 (Nat.size maxc.toNat) else imm.toNat := by
  rw [beginWidth, codeWidth_eq_max_size]
  exact if_congr BitVec.toNat_eq rfl rfl

theorem execPbegin_of_le {imm : Half} (h : imm.toNat ≤ 16) (s : State) : execPbegin imm s =
    respond (beginPack (beginWidth imm s.maxc) s) (BitVec.ofNat 32 (beginWidth imm s.maxc)) :=
  if_neg (by rw [Config.cw_eq]; omega)

/-- An empty packed buffer holds its header byte alone. -/
theorem memRead_beginPack (w : Nat) (s : State) (j : Nat) :
    memRead (beginPack w s).pbuf j = if j = 0 then BitVec.ofNat 8 w else 0#8 :=
  memRead_memWrite [] 0 j _

/-- Settles O41: the width selected, and the buffer of one byte. -/
theorem pbeginStartsAPackedBuffer : Obligations.PbeginStartsAPackedBuffer :=
  fun s imm => ⟨isFrameOf_row (o := .pbegin) (.inl rfl) rfl,
    fun h => ⟨_, _, beginWidth_eq imm s.maxc, execPbegin_of_le h s, memRead_beginPack _ s, rfl⟩,
    fun h => (if_pos (by rwa [Config.cw_eq])).trans (raise_eq_afterError .operand s)⟩

/-! ## PPUT (R124) -/

theorem execPput_of_not_pack {s : State} (hm : s.pmode ≠ .pack) (c : Half) :
    execPput c s = raise .seq s :=
  if_pos hm

theorem execPput_of_wide {s : State} {c : Half} (hm : s.pmode = .pack) (hc : 2 ^ s.pw.toNat ≤ c.toNat) :
    execPput c s = raise .range s := by
  rw [execPput, if_neg (not_not.mpr hm), if_pos hc]

theorem execPput_of_full {s : State} {c : Half} (hm : s.pmode = .pack) (hc : c.toNat < 2 ^ s.pw.toNat)
    (hfull : 1024 < packedLength (s.pcur.toNat + s.pw.toNat)) : execPput c s = raise .overflow s := by
  rw [execPput, if_neg (not_not.mpr hm), if_neg (Nat.not_le.mpr hc),
    if_pos (by rwa [Config.pbufBytes_eq])]

/-- Settles O42: the payload's bits after the code is put, and the three checks in order. -/
theorem pputAppendsACode : Obligations.PputAppendsACode := by
  refine fun s c => ⟨isFrameOf_row (o := .pput) (.inl rfl) rfl, fun hm hc hfit => ?put,
    fun hm => (execPput_of_not_pack hm c).trans (raise_eq_afterError .seq s),
    fun hm hc => (execPput_of_wide hm hc).trans (raise_eq_afterError .range s),
    fun hm hc hfull => (execPput_of_full hm hc hfull).trans (raise_eq_afterError .overflow s)⟩
  case put =>
    exact ⟨_, execPput_of_fits hm hc hfit, payloadBit_putCodeBits s.pbuf s.pcur.toNat c s.pw.toNat,
      memRead_putCodeBits_header s.pbuf _ c _, putCode_pcur_toNat (c := c) hfit,
      putCode_plen_val (c := c) hfit, rfl⟩

/-! ## PGET (R125) -/

/-- PLEN is at most 1024, so it is a 32-bit value whole (R35). -/
theorem plen_toNat (s : State) : (BitVec.ofNat 32 s.plen.val).toNat = s.plen.val :=
  Nat.mod_eq_of_lt (by omega)

/-- Settles O43: the payload is the block read from byte 0. -/
theorem pgetAnswersThePackedBuffer : Obligations.PgetAnswersThePackedBuffer := by
  refine fun s => ⟨isFrameOf_row (o := .pget) (.inr rfl) rfl, fun hm => ?get,
    fun hm => (if_pos hm).trans (raise_eq_afterError .seq s)⟩
  case get =>
    refine ⟨_, execPget_of_not_idle hm, rfl, rfl, plen_toNat s, memReadBytes_length _ _ _,
      fun j hj => ?_⟩
    rw [okResponse_rpayload, memReadBytes_getElem?, if_pos hj, Nat.zero_add]

/-! ## UBEGIN (R126) -/

/-- `P[0]`, the header width of a packed buffer, 0 if the buffer has no byte. -/
def headerWidth (p : List Byte) : Nat := (p.getD 0 0#8).toNat

@[simp] theorem headerWidth_cons (b : Byte) (bs : List Byte) : headerWidth (b :: bs) = b.toNat := rfl

/-- `(8*(L-1)) div P[0]`, the number of whole codes in a packed buffer (R126). -/
def wholeCodes (p : List Byte) : Nat := 8 * (p.length - 1) / headerWidth p

/-- A packed buffer UBEGIN loads: 1 to 1024 bytes whose header width is 1 to 16 (R126). -/
structure Loadable (p : List Byte) : Prop where
  /-- At most `PBUF_BYTES`. -/
  length_le : p.length ≤ 1024
  /-- Byte 0 is there and is not 0. -/
  one_le_width : 1 ≤ headerWidth p
  /-- At most `CW`. -/
  width_le : headerWidth p ≤ 16

variable {p : List Byte}

theorem execUbegin_of_loadable (h : Loadable p) (s : State) : execUbegin p s =
    respond (loadPacked p s) (BitVec.ofNat 32 (wholeCodes p)) := by
  obtain ⟨hlen, h1, h16⟩ := h
  refine (if_neg (by rw [Config.pbufBytes_eq]; omega)).trans ?_
  cases p with
  | nil => exact absurd h1 (by decide)
  | cons header codes =>
    rw [headerWidth_cons] at h1 h16
    exact if_neg (by rw [Config.cw_eq]; omega)

theorem execUbegin_of_long (h : 1024 < p.length) (s : State) : execUbegin p s = raise .overflow s :=
  if_pos (by rwa [Config.pbufBytes_eq])

theorem execUbegin_of_bad_header (hlen : p.length ≤ 1024)
    (h : headerWidth p = 0 ∨ 16 < headerWidth p) (s : State) :
    execUbegin p s = raise .decodeHdr s := by
  refine (if_neg (by rw [Config.pbufBytes_eq]; omega)).trans ?_
  cases p with
  | nil => rfl
  | cons header codes =>
    rw [headerWidth_cons] at h
    exact if_pos (by rwa [Config.cw_eq])

theorem memRead_loadPacked (p : List Byte) (s : State) (j : Nat) :
    memRead (loadPacked p s).pbuf j = p.getD j 0#8 := by
  rw [loadPacked, memRead_memWriteBytes]
  split
  · rfl
  · rw [memRead_nil, List.getD_eq_default _ _ (by omega)]

theorem Loadable.loadPacked_plen_val (h : Loadable p) (s : State) :
    (loadPacked p s).plen.val = p.length :=
  Nat.mod_eq_of_lt (Nat.lt_succ_of_le h.length_le)

theorem Loadable.loadPacked_pw_toNat (h : Loadable p) (s : State) :
    (loadPacked p s).pw.toNat = headerWidth p := by
  rw [loadPacked, BitVec.toNat_setWidth]
  exact Nat.mod_eq_of_lt (Nat.lt_of_le_of_lt h.width_le (by decide))

/-- Settles O44: the whole buffer is written over an empty one; the three checks in order. -/
theorem ubeginLoadsAPackedBuffer : Obligations.UbeginLoadsAPackedBuffer := by
  refine fun s p => ⟨fun imm hp => isFrameOf_row (o := .ubegin) (.inl rfl) hp,
    fun _ hlen h1 h16 => ?load,
    fun hlen => (execUbegin_of_long hlen s).trans (raise_eq_afterError .overflow s), fun hp => ?empty,
    fun _ hlen hw => (execUbegin_of_bad_header hlen hw s).trans (raise_eq_afterError .decodeHdr s)⟩
  case load =>
    have h : Loadable p := ⟨hlen, h1, h16⟩
    exact ⟨_, execUbegin_of_loadable h s, memRead_loadPacked p s, h.loadPacked_plen_val s,
      h.loadPacked_pw_toNat s, rfl⟩
  case empty =>
    subst hp
    exact raise_eq_afterError .decodeHdr s

/-! ## UGET (R127) -/

theorem execUget_of_fits {s : State} (hm : s.pmode = .unpack)
    (hfit : s.pcur.toNat + s.pw.toNat ≤ 8 * (s.plen.val - 1)) : execUget s =
    respond { s with pcur := BitVec.ofNat 14 (s.pcur.toNat + s.pw.toNat) }
      (getCodeBits s.pbuf s.pcur.toNat s.pw.toNat) := by
  rw [execUget, if_neg (not_not.mpr hm), if_neg (Nat.not_lt.mpr hfit)]

theorem execUget_of_end {s : State} (hm : s.pmode = .unpack)
    (hend : 8 * (s.plen.val - 1) < s.pcur.toNat + s.pw.toNat) : execUget s = raise .eos s := by
  rw [execUget, if_neg (not_not.mpr hm), if_pos hend]

/-- The bits of the code UGET reads, as the statements write them. -/
theorem getLsbD_getCodeBits_eq_ite (m : Mem) (cur b : Nat) {n : Nat} (hn : n ≤ 16) :
    (getCodeBits m cur n).getLsbD b = if b < n then payloadBit m (cur + b) else false := by
  rw [getLsbD_getCodeBits m cur n b (by omega)]
  by_cases hb : b < n <;> simp [hb]

/-- Settles O45: the code's bits, the cursor, and the two checks in order. -/
theorem ugetTakesTheNextCode : Obligations.UgetTakesTheNextCode := by
  refine fun s => ⟨isFrameOf_row (o := .uget) (.inr rfl) rfl, fun hm hpw hfit => ?take,
    fun hm => (if_pos hm).trans (raise_eq_afterError .seq s),
    fun hm hend => (execUget_of_end hm hend).trans (raise_eq_afterError .eos s)⟩
  case take =>
    exact ⟨_, _, execUget_of_fits hm hfit, rfl, rfl, rfl,
      fun b => getLsbD_getCodeBits_eq_ite s.pbuf s.pcur.toNat b hpw, advance_pcur_toNat hfit, rfl⟩

end Sys2Proof.Machine
end

section
/-!
PROOFS. The pack contract (`43_pack_unpack.md` R128): after PBEGIN and some PPUTs the pack buffer holds the packed
form of the codes put so far, which one PPUT more carries on to the next code. And determinism (R130): what the
PPUT pass and PGET do depends on the pack unit's registers and buffer alone.
-/

namespace Sys2Proof.Machine

open Sys2Proof.Statements

/-! ## The payload bits of a packed form (R80, R128) -/

/-- Payload bit `p` of the packed form of the codes at width `w`, 0 beyond the last code. -/
def codesBit (w : Nat) (codes : List Half) (p : Nat) : Bool :=
  if p < w * codes.length then (codes.getD (p / w) 0#16).getLsbD (p % w) else false

/-- Bit `b` of code `j`, beyond the last code too. -/
theorem codesBit_mul_add {w b : Nat} (hb : b < w) (codes : List Half) (j : Nat) :
    codesBit w codes (w * j + b) = (codes.getD j 0#16).getLsbD b := by
  rw [codesBit, Nat.mul_add_div (by omega), Nat.div_eq_of_lt hb, Nat.add_zero, Nat.mul_add_mod,
    Nat.mod_eq_of_lt hb]
  split
  · rfl
  · next hp =>
    have hj : codes.length ≤ j := by
      by_contra hj
      have := Nat.mul_le_mul_left w (Nat.succ_le_of_lt (Nat.not_le.mp hj))
      rw [Nat.mul_succ] at this
      omega
    rw [List.getD_eq_default _ _ hj, BitVec.getLsbD_zero]

/-- One code more has its bits behind those of the codes before. -/
theorem codesBit_concat (w : Nat) (codes : List Half) (c : Half) (p : Nat) :
    codesBit w (codes ++ [c]) p =
      if w * codes.length ≤ p ∧ p < w * codes.length + w then c.getLsbD (p - w * codes.length)
      else codesBit w codes p := by
  by_cases hnew : w * codes.length ≤ p ∧ p < w * codes.length + w
  · obtain ⟨b, rfl⟩ := Nat.exists_eq_add_of_le hnew.1
    rw [if_pos hnew, codesBit_mul_add (by omega), Nat.add_sub_cancel_left,
      List.getD_append_right _ _ _ _ (Nat.le_refl _), Nat.sub_self, List.getD_cons_zero]
  · rw [if_neg hnew, codesBit, codesBit, List.length_append, List.length_singleton, Nat.mul_succ]
    by_cases hold : p < w * codes.length
    · rw [if_pos hold, if_pos (by omega), List.getD_append _ _ _ _ (Nat.div_lt_of_lt_mul hold)]
    · rw [if_neg hold, if_neg (by omega)]

/-! ## The PPUT pass fills the buffer code by code -/

/-- The pack unit is packing, and its buffer holds the packed form of the codes at width `w`. -/
structure HoldsPacked (w : Nat) (codes : List Half) (s : State) : Prop where
  mode : s.pmode = .pack
  width : s.pw.toNat = w
  cursor : s.pcur.toNat = w * codes.length
  length : s.plen.val = packedLength (w * codes.length)
  header : memRead s.pbuf 0 = BitVec.ofNat 8 w
  bits : ∀ p, payloadBit s.pbuf p = codesBit w codes p

theorem holdsPacked_beginPack {w : Nat} (hw : w ≤ 16) (s : State) : HoldsPacked w [] (beginPack w s) where
  mode := rfl
  width := beginPack_pw_toNat hw s
  cursor := rfl
  length := by rw [List.length_nil, Nat.mul_zero]; rfl
  header := memRead_beginPack w s 0
  bits := fun p => by
    rw [payloadBit, memRead_beginPack, if_neg (by omega), BitVec.getLsbD_zero, codesBit, if_neg (by simp)]

variable {w : Nat} {codes cs : List Half} {c : Half} {s : State}

theorem HoldsPacked.emit (h : HoldsPacked w codes s) (r : Response) : HoldsPacked w codes (s.emit r) :=
  { h with }

theorem HoldsPacked.putCode (h : HoldsPacked w codes s)
    (hfit : packedLength (s.pcur.toNat + s.pw.toNat) ≤ 1024) : HoldsPacked w (codes ++ [c]) (putCode c s) :=
  have hbits : s.pcur.toNat + s.pw.toNat = w * (codes ++ [c]).length := by
    rw [h.cursor, h.width, List.length_append, List.length_singleton, Nat.mul_succ]
  { h with
    cursor := (putCode_pcur_toNat hfit).trans hbits
    length := (putCode_plen_val hfit).trans (congrArg packedLength hbits)
    header := (memRead_putCodeBits_header ..).trans h.header
    bits := fun p => by
      rw [codesBit_concat, ← h.bits, ← h.cursor, ← h.width]
      exact payloadBit_putCodeBits .. }

/-- The PPUT pass succeeds while the packed form fits, and leaves the packed form of all codes. -/
theorem HoldsPacked.safeRun_map_pput (h : HoldsPacked w codes s) (hc : ∀ c ∈ cs, c.toNat < 2 ^ w)
    (hfit : packedLength (w * (codes ++ cs).length) ≤ 1024) :
    ∃ t rs, SafeRun (cs.map .pput) s t rs ∧ HoldsPacked w (codes ++ cs) t := by
  induction cs generalizing codes s with
  | nil => exact ⟨s, [], .nil s, by rwa [List.append_nil]⟩
  | cons c cs ih =>
    obtain ⟨hcc, hcs⟩ := List.forall_mem_cons.mp hc
    have hone : packedLength (s.pcur.toNat + s.pw.toNat) ≤ 1024 := by
      have hle : w * codes.length + w ≤ w * (codes ++ c :: cs).length := by
        rw [← Nat.mul_succ]
        exact Nat.mul_le_mul_left w (by simp)
      rw [h.cursor, h.width]
      rw [packedLength_eq] at hfit ⊢
      omega
    rw [List.append_cons] at hfit ⊢
    obtain ⟨t, rs, hrun, ht⟩ := ih ((h.putCode hone).emit _) hcs hfit
    exact ⟨t, _, .cons_of_respondWith (execPput_of_fits h.mode (h.width ▸ hcc) hone) rfl hrun, ht⟩

/-- PGET's payload is the packed form of the codes the buffer holds. -/
theorem HoldsPacked.isPackedForm (h : HoldsPacked w codes s) :
    IsPackedForm w codes (memReadBytes s.pbuf 0 s.plen.val) := by
  have hlen := h.length
  rw [packedLength_eq] at hlen
  refine ⟨?length, ?header, fun p hp => ?bit⟩
  case length => rw [memReadBytes_length, hlen]
  case header => rw [memReadBytes_getElem?, if_pos (by omega), Nat.zero_add, h.header]
  case bit =>
    rw [memReadBytes_length] at hp
    rw [packedBit, List.getD_eq_getElem?_getD, memReadBytes_getElem?, if_pos (by omega), Nat.zero_add,
      Option.getD_some]
    exact h.bits p

/-- The responses carry, last of all, the packed form of the codes. -/
def AnswersPacked (w : Nat) (codes : List Half) (rs : List Response) : Prop :=
  ∃ packed, lastPayload rs = some packed ∧ IsPackedForm w codes packed

theorem AnswersPacked.append {qs : List Response} (h : AnswersPacked w codes qs) (rs : List Response) :
    AnswersPacked w codes (rs ++ qs) :=
  h.imp fun _ ⟨hlast, hform⟩ => ⟨lastPayload_append hlast, hform⟩

/-- From an empty packed buffer, the PPUT pass and PGET answer the packed form of the codes. -/
theorem safeRun_pputs_pget_packed (hw : w ≤ 16) (hc : ∀ c ∈ codes, c.toNat < 2 ^ w)
    (hfit : packedLength (w * codes.length) ≤ 1024) (s : State) (r : Response) :
    ∃ t rs, SafeRun (codes.map .pput ++ [.pget]) ((beginPack w s).emit r) t rs ∧
      AnswersPacked w codes rs := by
  obtain ⟨u, rs, hrun, hu⟩ := ((holdsPacked_beginPack hw s).emit r).safeRun_map_pput hc hfit
  have hpget := execPget_of_not_idle (s := u) (by simp [hu.mode])
  refine ⟨_, _, hrun.append (.cons_of_respondWith hpget rfl (.nil _)), .append ?_ rs⟩
  exact ⟨_, rfl, hu.isPackedForm⟩

/-! ## The two forms of PACK (R128) -/

/-- PBEGIN of a given width, the PPUT pass and PGET. -/
theorem safeRun_pack (h1 : 1 ≤ w) (h16 : w ≤ 16) (hc : ∀ c ∈ codes, c.toNat < 2 ^ w)
    (hfit : packedLength (w * codes.length) ≤ 1024) (s : State) :
    ∃ t rs, SafeRun (.pbegin (BitVec.ofNat 16 w) :: (codes.map .pput ++ [.pget])) s t rs ∧
      AnswersPacked w codes rs := by
  have himm : (BitVec.ofNat 16 w).toNat = w := Nat.mod_eq_of_lt (by omega)
  have hwidth : beginWidth (BitVec.ofNat 16 w) s.maxc = w := by
    rw [beginWidth_eq, himm, if_neg (by omega)]
  have hbegin := execPbegin_of_le (imm := BitVec.ofNat 16 w) (by omega) s
  rw [hwidth] at hbegin
  obtain ⟨t, rs, hrun, hpacked⟩ := safeRun_pputs_pget_packed h16 hc hfit s _
  exact ⟨t, _, .cons_of_respondWith hbegin rfl hrun, hpacked.append [_]⟩

/-- The part of PACK that selects the width and begins the buffer. -/
def selectWidthProgram (codes : List Half) : List Instr :=
  .wrst :: (codes.map .wobs ++ [.pbegin 0#16])

/-- PACK is the selection of the width, then the PPUT pass and PGET. -/
theorem packProgram_eq_append (codes : List Half) :
    packProgram codes = selectWidthProgram codes ++ (codes.map .pput ++ [.pget]) := by
  simp [packProgram, selectWidthProgram]

/-- Selecting the width succeeds and begins a packed buffer at the width of the largest code. -/
theorem safeRun_selectWidth (codes : List Half) (s : State) :
    ∃ u r rs, SafeRun (selectWidthProgram codes) s
      ((beginPack (codeWidth (largestCode codes)) u).emit r) rs := by
  obtain ⟨u, rs, hwobs, hmax⟩ := safeRun_map_wobs codes
    (({ s with maxc := 0#16 } : State).emit (okResponse 0#32 0#8 []))
  have hwidth : codeWidth u.maxc.toNat = codeWidth (largestCode codes) := congrArg codeWidth hmax
  rw [← hwidth]
  exact ⟨u, _, _, .cons_of_respondWith rfl rfl
    (hwobs.append (.cons_of_respondWith (execPbegin_auto u) rfl (.nil _)))⟩

theorem codeWidth_largestCode_le_sixteen (codes : List Half) : codeWidth (largestCode codes) ≤ 16 :=
  (codeWidth_le_iff (by decide)).mpr ((largestCode_lt_iff codes _).mpr ⟨by decide, fun c _ => c.isLt⟩)

/-- PACK answers the packed form of the codes at the width of the largest. -/
theorem safeRun_packProgram_packed
    (hfit : packedLength (codeWidth (largestCode codes) * codes.length) ≤ 1024) (s : State) :
    ∃ t rs, SafeRun (packProgram codes) s t rs ∧
      AnswersPacked (codeWidth (largestCode codes)) codes rs := by
  obtain ⟨u, r, rs, hselect⟩ := safeRun_selectWidth codes s
  obtain ⟨t, qs, hrun, hpacked⟩ := safeRun_pputs_pget_packed (codeWidth_largestCode_le_sixteen codes)
    (fun _ => lt_two_pow_codeWidth_largestCode) hfit u r
  rw [packProgram_eq_append]
  exact ⟨t, _, hselect.append hrun, hpacked.append rs⟩

/-- Settles O46: the buffer PGET reads holds the packed form, at the given and at the automatic width. -/
theorem packContract : Obligations.PackContract := by
  refine ⟨fun s w codes h1 h16 hc hfit => ?given, fun s codes => ?automatic⟩
  case given =>
    obtain ⟨t, rs, hrun, packed, hlast, hform⟩ := safeRun_pack h1 h16 hc hfit s
    exact ⟨t, rs, packed, hrun, hlast, hform⟩
  case automatic =>
    rw [← codeWidth_eq_max_size]
    intro w hfit
    obtain ⟨t, rs, hrun, packed, hlast, hform⟩ := safeRun_packProgram_packed hfit s
    exact ⟨t, rs, packed, hrun, hlast, hform⟩

/-! ## What packing depends on (R130) -/

/-- The registers and the buffer of the pack unit but for MAXC. -/
def packUnit (s : State) : BitVec 5 × PMode × Mem × Fin 1025 × BitVec 14 :=
  (s.pw, s.pmode, s.pbuf, s.plen, s.pcur)

/-- Equal pack units stay equal over the same PPUT, whether it succeeds or not. -/
theorem packUnit_eq_of_pput {s s' t t' : State} (h : packUnit s = packUnit s')
    (he : exec (.pput c) s = .next t) (he' : exec (.pput c) s' = .next t') : packUnit t = packUnit t' := by
  have hfields := h
  simp only [packUnit, Prod.mk.injEq] at hfields
  obtain ⟨hpw, hmode, hbuf, hlen, hcur⟩ := hfields
  have haccepts : Accepts s (.pput c) ↔ Accepts s' (.pput c) := by
    simp only [Accepts, hpw, hmode, hcur]
  rcases exec_answers he with ⟨_, hn⟩ | ⟨_, _, _, ha⟩ <;>
    rcases exec_answers he' with ⟨_, hn'⟩ | ⟨_, _, _, ha'⟩
  · exact h
  · exact absurd (haccepts.mpr ha') hn
  · exact absurd (haccepts.mp ha) hn'
  · simp only [packUnit, effect, putCode, State.emit_pw, State.emit_pmode, State.emit_pbuf,
      State.emit_plen, State.emit_pcur, hpw, hmode, hbuf, hcur]

/-- Equal pack units give PGET the same response. -/
theorem getLast?_outbox_eq_of_pget {s s' t t' : State} (h : packUnit s = packUnit s')
    (he : exec .pget s = .next t) (he' : exec .pget s' = .next t') :
    t.outbox.getLast? = t'.outbox.getLast? := by
  simp only [packUnit, Prod.mk.injEq] at h
  obtain ⟨-, hmode, hbuf, hlen, -⟩ := h
  rcases execPget_next he with ⟨hm, rfl⟩ | ⟨hm, rfl⟩ <;>
    rcases execPget_next he' with ⟨hm', rfl⟩ | ⟨hm', rfl⟩
  · rw [State.withError_outbox, State.withError_outbox, List.getLast?_concat, List.getLast?_concat]
  · exact absurd (hmode.symm.trans hm) hm'
  · exact absurd (hmode.trans hm') hm
  · rw [State.emit_outbox, State.emit_outbox, List.getLast?_concat, List.getLast?_concat, hbuf, hlen]

/-- A run that completes executes its first command and then the rest. -/
theorem runCommands_cons_eq_some {i : Instr} {is : List Instr} {s u : State}
    (h : runCommands (i :: is) s = some u) : ∃ t, exec i s = .next t ∧ runCommands is t = some u := by
  obtain ⟨t, _, he, -, -⟩ := exec_completes i s
  rw [runCommands, he] at h
  exact ⟨t, he, h⟩

/-- Equal pack units give the PPUT pass and PGET the same last response, even if a PPUT fails. -/
theorem getLast?_outbox_eq_of_pputs_pget {s s' t t' : State} (h : packUnit s = packUnit s')
    (hrun : runCommands (codes.map .pput ++ [.pget]) s = some t)
    (hrun' : runCommands (codes.map .pput ++ [.pget]) s' = some t') :
    t.outbox.getLast? = t'.outbox.getLast? := by
  induction codes generalizing s s' with
  | nil =>
    obtain ⟨_, he, ⟨⟩⟩ := runCommands_cons_eq_some hrun
    obtain ⟨_, he', ⟨⟩⟩ := runCommands_cons_eq_some hrun'
    exact getLast?_outbox_eq_of_pget h he he'
  | cons c cs ih =>
    obtain ⟨_, he, hrest⟩ := runCommands_cons_eq_some hrun
    obtain ⟨_, he', hrest'⟩ := runCommands_cons_eq_some hrun'
    exact ih (packUnit_eq_of_pput h he he') hrest hrest'

/-- PACK comes to its PPUT pass with a buffer just begun, at a width that depends on the codes alone. -/
theorem runCommands_packProgram (codes : List Half) (s : State) :
    ∃ u r, runCommands (packProgram codes) s = runCommands (codes.map .pput ++ [.pget])
      ((beginPack (codeWidth (largestCode codes)) u).emit r) := by
  obtain ⟨u, r, _, hselect, -⟩ := safeRun_selectWidth codes s
  exact ⟨u, r, by rw [packProgram_eq_append, runCommands_append, hselect, Option.bind_some]⟩

/-- The document's fixture: the codes of twenty "A" (V5.4). -/
theorem lastPayload_packProgram_twenty_0x41 :
    (runCommands (packProgram [65#16, 256#16, 257#16, 258#16, 259#16, 259#16]) State.reset).bind
      (fun t => t.outbox.getLast?.map (fun r => r.rpayload)) =
    some [0x09#8, 0x41#8, 0x00#8, 0x06#8, 0x14#8, 0x38#8, 0x70#8, 0x20#8] := by
  decide +kernel

/-- Settles O49: the states agree on the pack unit before the first PPUT; the bytes of V5.4 by evaluation. -/
theorem packedBytesDependOnTheCodesAlone : Obligations.PackedBytesDependOnTheCodesAlone := by
  refine ⟨fun codes s s' t t' hrun hrun' => ?alone,
    Option.bind_eq_some_iff.mp lastPayload_packProgram_twenty_0x41⟩
  case alone =>
    obtain ⟨u, r, hu⟩ := runCommands_packProgram codes s
    obtain ⟨u', r', hu'⟩ := runCommands_packProgram codes s'
    have hsame : packUnit ((beginPack (codeWidth (largestCode codes)) u).emit r) =
        packUnit ((beginPack (codeWidth (largestCode codes)) u').emit r') := rfl
    exact getLast?_outbox_eq_of_pputs_pget hsame (hu.symm.trans hrun) (hu'.symm.trans hrun')

end Sys2Proof.Machine
end

section
/-!
PROOFS. The unpack contract (`43_pack_unpack.md` R129): after UBEGIN each UGET takes the next code of the buffer, and
of a packed form these are its codes. So what was packed in one state is unpacked in any other.
-/

namespace Sys2Proof.Machine

open Sys2Proof.Statements

variable {w n j : Nat} {codes : List Half} {p : List Byte} {s : State}

/-! ## The UGET pass (R127) -/

/-- The code that the UGET after `j` others answers. -/
def deliveredCode (s : State) (j : Nat) : Word :=
  getCodeBits s.pbuf (s.pcur.toNat + j * s.pw.toNat) s.pw.toNat

/-- The responses of `n` successful UGETs. -/
def ugetResponses (n : Nat) (s : State) : List Response :=
  (List.range n).map fun j => okResponse (deliveredCode s j) 0#8 []

/-- The state after `n` successful UGETs. -/
def takeCodes (n : Nat) (s : State) : State :=
  { s with pcur := BitVec.ofNat 14 (s.pcur.toNat + n * s.pw.toNat), outbox := s.outbox ++ ugetResponses n s }

theorem ugetResponses_succ (n : Nat) (s : State) :
    ugetResponses (n + 1) s = ugetResponses n s ++ [okResponse (deliveredCode s n) 0#8 []] := by
  rw [ugetResponses, List.range_succ, List.map_append]
  rfl

theorem ugetResponses_getElem? (hj : j < n) (s : State) :
    (ugetResponses n s)[j]? = some (okResponse (deliveredCode s j) 0#8 []) := by
  rw [ugetResponses, List.getElem?_map, List.getElem?_range hj, Option.map_some]

theorem ugetResponses_map_data (n : Nat) (s : State) :
    (ugetResponses n s).map (fun q => q.data) = (List.range n).map (deliveredCode s) := by
  rw [ugetResponses, List.map_map]
  rfl

theorem takeCodes_zero (s : State) : takeCodes 0 s = s := by
  simp [takeCodes, ugetResponses]

theorem takeCodes_pcur_toNat (hfit : s.pcur.toNat + n * s.pw.toNat ≤ 8 * (s.plen.val - 1)) :
    (takeCodes n s).pcur.toNat = s.pcur.toNat + n * s.pw.toNat := by
  have := s.plen.isLt
  rw [takeCodes, BitVec.toNat_ofNat]
  omega

/-- One UGET after `n` others. -/
theorem execUget_takeCodes (hm : s.pmode = .unpack)
    (hfit : s.pcur.toNat + (n + 1) * s.pw.toNat ≤ 8 * (s.plen.val - 1)) :
    execUget (takeCodes n s) = .next (takeCodes (n + 1) s) := by
  rw [Nat.succ_mul, ← Nat.add_assoc] at hfit
  have hcur := takeCodes_pcur_toNat (n := n) (s := s) (by omega)
  rw [execUget_of_fits (by exact hm) (by rw [hcur]; exact hfit), hcur]
  simp only [takeCodes, ugetResponses_succ, Nat.succ_mul, Nat.add_assoc, ← List.append_assoc]
  rfl

/-- The UGET pass succeeds while whole codes are left (R127). -/
theorem safeRun_replicate_uget (hm : s.pmode = .unpack)
    (hfit : s.pcur.toNat + n * s.pw.toNat ≤ 8 * (s.plen.val - 1)) :
    SafeRun (List.replicate n .uget) s (takeCodes n s) (ugetResponses n s) := by
  induction n with
  | zero => rw [takeCodes_zero]; exact .nil s
  | succ n ih =>
    have hone : SafeRun [.uget] (takeCodes n s) (takeCodes (n + 1) s)
        [okResponse (deliveredCode s n) 0#8 []] :=
      .cons (execUget_takeCodes hm hfit)
        (by simp only [takeCodes, ugetResponses_succ, List.append_assoc]) rfl (.nil _)
    rw [List.replicate_succ', ugetResponses_succ]
    rw [Nat.succ_mul] at hfit
    exact (ih (by omega)).append hone

/-! ## UNPACK (R126, R129) -/

/-- The state that UBEGIN of the packed buffer leaves. -/
def unpackStart (p : List Byte) (s : State) : State :=
  (loadPacked p s).emit
    (okResponse (BitVec.ofNat 32 (wholeCodes p)) 0#8 [])

/-- Whole codes lie within the payload. -/
theorem mul_headerWidth_le (hn : n ≤ wholeCodes p) : n * headerWidth p ≤ 8 * (p.length - 1) :=
  Nat.mul_le_of_le_div _ _ _ hn

theorem Loadable.unpackStart_pw_toNat (h : Loadable p) (s : State) :
    (unpackStart p s).pw.toNat = headerWidth p :=
  h.loadPacked_pw_toNat s

theorem Loadable.unpackStart_plen_val (h : Loadable p) (s : State) : (unpackStart p s).plen.val = p.length :=
  h.loadPacked_plen_val s

theorem unpackStart_pcur_toNat (p : List Byte) (s : State) : (unpackStart p s).pcur.toNat = 0 := rfl

theorem Loadable.unpackStart_fits (h : Loadable p) (hn : n ≤ wholeCodes p) (s : State) :
    (unpackStart p s).pcur.toNat + n * (unpackStart p s).pw.toNat ≤
      8 * ((unpackStart p s).plen.val - 1) := by
  rw [unpackStart_pcur_toNat, h.unpackStart_pw_toNat, h.unpackStart_plen_val, Nat.zero_add]
  exact mul_headerWidth_le hn

/-- UNPACK of no more codes than the buffer holds whole succeeds. -/
theorem safeRun_unpackProgram (h : Loadable p) (hn : n ≤ wholeCodes p) (s : State) :
    ∃ r, SafeRun (unpackProgram p n) s (takeCodes n (unpackStart p s))
      (r :: ugetResponses n (unpackStart p s)) :=
  ⟨_, .cons_of_respondWith (execUbegin_of_loadable h s) rfl
    (safeRun_replicate_uget rfl (h.unpackStart_fits hn s))⟩

/-- After as many UGETs as the buffer holds whole codes, the next one fails (R127). -/
theorem execUget_takeCodes_wholeCodes (h : Loadable p) (s : State) :
    execUget (takeCodes (wholeCodes p) (unpackStart p s)) =
      raise .eos (takeCodes (wholeCodes p) (unpackStart p s)) := by
  refine execUget_of_end rfl ?_
  rw [takeCodes_pcur_toNat (h.unpackStart_fits (Nat.le_refl _) s), unpackStart_pcur_toNat, Nat.zero_add]
  simp only [takeCodes, h.unpackStart_pw_toNat, h.unpackStart_plen_val]
  exact Nat.lt_div_mul_add h.one_le_width

/-- Bit `b` of the code delivered after `j` others is payload bit `j*P[0] + b` (R129). -/
theorem getLsbD_deliveredCode_unpackStart (h : Loadable p) (s : State) (j b : Nat) :
    (deliveredCode (unpackStart p s) j).getLsbD b =
      if b < headerWidth p then packedBit p (j * headerWidth p + b) else false := by
  rw [deliveredCode, h.unpackStart_pw_toNat, unpackStart_pcur_toNat, Nat.zero_add,
    getLsbD_getCodeBits_eq_ite _ _ _ h.width_le, payloadBit, unpackStart, State.emit_pbuf,
    memRead_loadPacked, packedBit]

/-! ## Unpacking a packed form (R129) -/

theorem headerWidth_of_isPackedForm (h16 : w ≤ 16) (hf : IsPackedForm w codes p) : headerWidth p = w := by
  obtain ⟨-, hheader, -⟩ := hf
  rw [headerWidth, List.getD_eq_getElem?_getD, hheader, Option.getD_some, BitVec.toNat_ofNat]
  omega

theorem loadable_of_isPackedForm (h1 : 1 ≤ w) (h16 : w ≤ 16) (hf : IsPackedForm w codes p)
    (hlen : p.length ≤ 1024) : Loadable p := by
  have hw := headerWidth_of_isPackedForm h16 hf
  exact ⟨hlen, by rwa [hw], by rwa [hw]⟩

/-- A packed form holds at least its codes whole: `m >= n` (R129). -/
theorem length_le_wholeCodes (hf : IsPackedForm w codes p) (hw : headerWidth p = w) (h1 : 1 ≤ w) :
    codes.length ≤ wholeCodes p := by
  obtain ⟨hlen, -, -⟩ := hf
  rw [wholeCodes, hw, Nat.le_div_iff_mul_le h1, Nat.mul_comm codes.length]
  omega

/-- From 8 bits a code on, the padding is shorter than a code: `m = n` (R129). -/
theorem wholeCodes_le_length (hf : IsPackedForm w codes p) (hw : headerWidth p = w) (h8 : 8 ≤ w) :
    wholeCodes p ≤ codes.length := by
  obtain ⟨hlen, -, -⟩ := hf
  rw [wholeCodes, hw, ← Nat.lt_succ_iff, Nat.div_lt_iff_lt_mul (by omega),
    Nat.succ_mul codes.length, Nat.mul_comm codes.length]
  omega

/-- Every code fits the width, and so does the 0 read beyond the last. -/
theorem getD_toNat_lt (hc : ∀ c ∈ codes, c.toNat < 2 ^ w) (j : Nat) :
    (codes.getD j 0#16).toNat < 2 ^ w := by
  by_cases hj : j < codes.length
  · rw [List.getD_eq_getElem _ _ hj]
    exact hc _ (List.getElem_mem hj)
  · rw [List.getD_eq_default _ _ (Nat.not_lt.mp hj)]
    exact Nat.two_pow_pos w

/-- The codes delivered of a packed form are its codes, and 0 in the padding (R129). -/
theorem deliveredCode_of_isPackedForm (h : Loadable p) (hf : IsPackedForm w codes p)
    (hw : headerWidth p = w) (hc : ∀ c ∈ codes, c.toNat < 2 ^ w) (hj : j < wholeCodes p) (s : State) :
    deliveredCode (unpackStart p s) j = BitVec.ofNat 32 (codes.getD j 0#16).toNat := by
  obtain ⟨-, -, hbits⟩ := hf
  apply BitVec.eq_of_getLsbD_eq
  intro b hb
  rw [getLsbD_deliveredCode_unpackStart h, hw, BitVec.getLsbD_ofNat, decide_eq_true hb, Bool.true_and]
  split
  · next hbw =>
    have hend := mul_headerWidth_le (Nat.succ_le_of_lt hj)
    rw [hw, Nat.succ_mul] at hend
    rw [hbits _ (by omega), Nat.mul_comm]
    exact codesBit_mul_add hbw codes j
  · next hbw =>
    have hlt := (getD_toNat_lt hc j).trans_le (Nat.pow_le_pow_right (by decide) (Nat.not_lt.mp hbw))
    exact (Nat.testBit_lt_two_pow hlt).symm

/-- Settles O47: the UGET pass over the loaded buffer, its end, and the codes of a packed form. -/
theorem unpackContract : Obligations.UnpackContract := by
  rintro s p w m - hlen hw h1 h16 rfl
  obtain rfl : headerWidth p = w := hw.symm
  have h : Loadable p := ⟨hlen, h1, h16⟩
  obtain ⟨r, hrun⟩ := safeRun_unpackProgram h (Nat.le_refl _) s
  have hdata {j : Nat} (hj : j < wholeCodes p) := ugetResponses_getElem? hj (unpackStart p s)
  refine ⟨_, r, _, hrun, fun j hj => ⟨_, hdata hj, getLsbD_deliveredCode_unpackStart h s j⟩,
    (execUget_takeCodes_wholeCodes h s).trans (raise_eq_afterError .eos _), fun codes hf hc => ?codes⟩
  case codes =>
    have hle := length_le_wholeCodes hf rfl h1
    have hcode {j : Nat} (hj : j < wholeCodes p) := deliveredCode_of_isPackedForm h hf rfl hc hj s
    refine ⟨hle, fun h8 => Nat.le_antisymm (wholeCodes_le_length hf rfl h8) hle, fun j hj => ?code,
      fun j hj hjm => ?padding⟩
    case code =>
      rw [hdata (by omega), Option.map_some, okResponse_data, hcode (by omega),
        List.getElem?_eq_getElem hj, Option.map_some, List.getD_eq_getElem _ _ hj]
    case padding =>
      rw [hdata hjm, Option.map_some, okResponse_data, hcode hjm, List.getD_eq_default _ _ hj]
      rfl

/-- Settles O48: the packed form PACK answered is loaded, and as many codes taken as were packed. -/
theorem unpackOfPackIsTheCodes : Obligations.UnpackOfPackIsTheCodes := by
  intro s u w codes h1 h16 hc hfit
  obtain ⟨t, rs, hpack, packed, hlast, hf⟩ := safeRun_pack h1 h16 hc hfit s
  have hlen : packed.length = 1 + (w * codes.length + 7) / 8 := hf.1
  have h := loadable_of_isPackedForm h1 h16 hf (hlen.trans_le hfit)
  have hw := headerWidth_of_isPackedForm h16 hf
  have hle := length_le_wholeCodes hf hw h1
  obtain ⟨r, hunpack⟩ := safeRun_unpackProgram h hle u
  refine ⟨t, rs, packed, _, r, _, hpack, hlast, hunpack, ?_⟩
  rw [ugetResponses_map_data]
  refine List.ext_getElem (by simp) fun j hj _ => ?_
  rw [List.length_map, List.length_range] at hj
  simp only [List.getElem_map, List.getElem_range]
  rw [deliveredCode_of_isPackedForm h hf hw hc (by omega) u, List.getD_eq_getElem _ _ hj]

end Sys2Proof.Machine
end

section
/-!
PROOFS. The system commands (`44_system_commands.md`): the register map as the table of R39, and RDREG, CLRERR
and SRST on any state (R140 to R142).
-/

namespace Sys2Proof.Machine

open Sys2Proof.Statements

/-! ## The views of R39, as numbers -/

/-- A concatenation as a number: the upper part above the bits of the lower. -/
theorem toNat_append_eq_add {m n : Nat} (x : BitVec m) (y : BitVec n) :
    (x ++ y).toNat = 2 ^ n * x.toNat + y.toNat := by
  rw [BitVec.toNat_append, ← Nat.shiftLeft_add_eq_or_of_lt y.isLt, Nat.shiftLeft_eq, Nat.mul_comm]

theorem statusView_eq_ofNat (s : State) : statusView s =
    BitVec.ofNat 32 ((hstateBits s.hstate).toNat + 4 * s.ivalid.toNat + 8 * s.hit.toNat +
      16 * (pmodeBits s.pmode).toNat) := by
  apply BitVec.eq_of_toNat_eq
  have hh := (hstateBits s.hstate).isLt
  have hp := (pmodeBits s.pmode).isLt
  have hi := s.ivalid.toNat_lt
  have ht := s.hit.toNat_lt
  simp only [statusView, toNat_append_eq_add, BitVec.toNat_ofNat, BitVec.toNat_ofBool]
  omega

theorem hcfgView_eq_ofNat (s : State) :
    hcfgView s = BitVec.ofNat 32 (s.bc.val + 16 * s.lane.val) := by
  apply BitVec.eq_of_toNat_eq
  have hb := s.bc.isLt
  have hl := s.lane.isLt
  simp only [hcfgView, toNat_append_eq_add, BitVec.toNat_ofNat]
  omega

theorem nibView_eq_ofNat (s : State) :
    nibView s = BitVec.ofNat 32 (s.n0.toNat + 16 * s.n1.toNat + 256 * s.n2.toNat) := by
  apply BitVec.eq_of_toNat_eq
  have h0 := s.n0.isLt
  have h1 := s.n1.isLt
  have h2 := s.n2.isLt
  simp only [nibView, toNat_append_eq_add, BitVec.toNat_ofNat]
  omega

theorem paramView_eq : paramView = 0x0410040C#32 := by decide

theorem unpackRemaining_eq_ite (s : State) : unpackRemaining s =
    if s.pmode = .unpack then (8 * (s.plen.val - 1) - s.pcur.toNat) / s.pw.toNat else 0 := by
  cases hm : s.pmode with
  | unpack => exact unpackRemaining_of_unpack hm
  | idle | pack => simp only [unpackRemaining, hm, reduceCtorEq, if_false]

/-! ## The register map (R39) -/

/-- The number of a register in the table of R39. -/
def Reg.number : Reg → Nat
  | .id => 0x00
  | .param => 0x01
  | .status => 0x02
  | .err => 0x03
  | .hcfg => 0x04
  | .acc i => 0x08 + i.val
  | .h0 => 0x10
  | .h1 => 0x11
  | .nib => 0x12
  | .coord => 0x13
  | .pw => 0x18
  | .pcur => 0x19
  | .plen => 0x1A
  | .maxc => 0x1B
  | .wauto => 0x1C
  | .urem => 0x1D

/-- The registers in the order of the table of R39. -/
def allRegs : List Reg :=
  [.id, .param, .status, .err, .hcfg, .acc 0, .acc 1, .acc 2, .acc 3, .h0, .h1, .nib, .coord, .pw,
   .pcur, .plen, .maxc, .wauto, .urem]

theorem mem_allRegs (r : Reg) : r ∈ allRegs := by
  cases r with
  | acc i => revert i; decide
  | _ => decide

theorem regOfNumber_number (r : Reg) : regOfNumber r.number = some r := by
  cases r with
  | acc i => revert i; decide
  | _ => rfl

/-- No register has a number above the last of the table. -/
theorem regOfNumber_eq_none_of_lt {n : Nat} (h : 0x1D < n) : regOfNumber n = none := by
  have hne {k : Nat} (hk : k ≤ 0x1D) : n ≠ k := by omega
  simp only [regOfNumber, hne, reduceIte, Nat.reduceLeDiff]

theorem number_of_regOfNumber {n : Nat} {r : Reg} (h : regOfNumber n = some r) : r.number = n := by
  have hsmall : ∀ k ≤ 0x1D, ∀ r ∈ regOfNumber k, r.number = k := by decide
  refine hsmall n (Nat.le_of_not_lt fun hn => ?_) r h
  rw [regOfNumber_eq_none_of_lt hn] at h
  cases h

theorem regOfNumber_eq_some_iff {n : Nat} {r : Reg} : regOfNumber n = some r ↔ r.number = n :=
  ⟨number_of_regOfNumber, fun h => h ▸ regOfNumber_number r⟩

/-- The table of R39 holds each register's number and the value read from it. The two modes, which R39 packs
into STATUS as numbers, are taken apart last. -/
theorem registerTable_eq_map (s : State) :
    registerTable s = allRegs.map fun r => (r.number, readReg s r) := by
  simp only [allRegs, List.map_cons, List.map_nil, readReg, paramView_eq, statusView_eq_ofNat,
    hcfgView_eq_ofNat, nibView_eq_ofNat, coordView_eq_ofNat, codeWidth_eq_max_size,
    unpackRemaining_eq_ite, ← BitVec.ofNat_toNat, Nat.add_comm (65536 * _)]
  rw [registerTable]
  cases s.hstate <;> cases s.pmode <;> rfl

theorem mem_registerTable {s : State} {n : Nat} {v : Word} :
    (n, v) ∈ registerTable s ↔ ∃ r, regOfNumber n = some r ∧ readReg s r = v := by
  simp only [registerTable_eq_map, List.mem_map, mem_allRegs, true_and, Prod.mk.injEq,
    regOfNumber_eq_some_iff]

/-! ## RDREG (R140) -/

theorem execRdreg_of_some {imm : Half} {r : Reg} (h : regOfNumber imm.toNat = some r) (s : State) :
    execRdreg imm s = respond s (readReg s r) := by
  rw [execRdreg, h]

theorem execRdreg_of_none {imm : Half} (h : regOfNumber imm.toNat = none) (s : State) :
    execRdreg imm s = raise .operand s := by
  rw [execRdreg, h]

/-- Settles O16: the table of R39 lists the registers RDREG knows, with the values it reads. -/
theorem rdregReadsEveryRegister : Obligations.RdregReadsEveryRegister := by
  refine fun s => ⟨fun imm => isFrameOf_row (o := .rdreg) (.inl rfl) rfl, fun imm v h => ?register,
    fun imm h => ?other⟩
  case register =>
    obtain ⟨r, hr, rfl⟩ := mem_registerTable.mp h
    exact execRdreg_of_some hr s
  case other =>
    have hr : regOfNumber imm.toNat = none := Option.eq_none_iff_forall_ne_some.mpr fun r hr =>
      h (readReg s r) (mem_registerTable.mpr ⟨r, hr, rfl⟩)
    exact (execRdreg_of_none hr s).trans (raise_eq_afterError .operand s)

/-! ## CLRERR (R141) and SRST (R142) -/

theorem execClrerr_eq (s : State) :
    execClrerr s = respond { s with err := 0#8 } (BitVec.ofNat 32 s.err.toNat) := by
  rw [execClrerr, BitVec.ofNat_toNat]

/-- Settles O17: the mask is answered as it was before it is cleared. -/
theorem clrerrAnswersAndClearsTheMask : Obligations.ClrerrAnswersAndClearsTheMask :=
  ⟨isFrameOf_row (o := .clrerr) (.inr rfl) rfl, execClrerr_eq⟩

/-- Settles O18: the state of `execSrst` is the reset state but for the two lists of the host. -/
theorem srstRestoresEveryElement : Obligations.SrstRestoresEveryElement :=
  ⟨isFrameOf_row (o := .srst) (.inr rfl) rfl, fun _ => rfl⟩

end Sys2Proof.Machine
end

section
/-!
PROOFS. Dictionary decoding (`45_host_dictionary_coder.md` R152, R156, R158): the decoder rebuilds the encoder's
dictionary one entry behind, so it gives back the input over any source of codes that delivers the encoder's.
And what it keeps over any source: the length of what it returns (R157 g), and every property of the source
that taking a code keeps.
-/

namespace Sys2Proof.Machine

variable {σ : Type} {nextCode : σ → Option Nat × σ} {src src' : σ} {expected passes k : Nat}
  {added : List (List Byte)} {w p out entry : List Byte}

/-! ## Sources of codes -/

/-- The source answers these codes, one after another. -/
inductive Delivers (nextCode : σ → Option Nat × σ) : σ → List Nat → Prop
  | nil (src : σ) : Delivers nextCode src []
  | cons {src src' : σ} {k : Nat} {ks : List Nat} (hnext : nextCode src = (some k, src'))
      (hrest : Delivers nextCode src' ks) : Delivers nextCode src (k :: ks)

/-- A list delivers its codes, whatever codes follow them. -/
theorem delivers_nextListed_append (codes more : List Nat) :
    Delivers nextListed (codes ++ more) codes := by
  induction codes with
  | nil => exact .nil _
  | cons k ks ih => exact .cons rfl ih

/-- A source that passes through the states `f n`, `f (n + 1)`, ... with a code at each step delivers
these codes. -/
theorem delivers_of_steps {f : Nat → σ} {codes : List Nat} {n : Nat}
    (h : ∀ j (hj : j < codes.length), nextCode (f (n + j)) = (some codes[j], f (n + j + 1))) :
    Delivers nextCode (f n) codes := by
  induction codes generalizing n with
  | nil => exact .nil _
  | cons k ks ih =>
    refine .cons (h 0 (Nat.succ_pos _)) (ih fun j hj => ?_)
    have hstep := h (j + 1) (Nat.succ_lt_succ hj)
    rwa [List.getElem_cons_succ, Nat.add_comm j 1, ← Nat.add_assoc] at hstep

/-! ## The loop's passes (R156) -/

theorem decodeLoop_of_done (hpasses : 0 < passes) (hout : out.length = expected) :
    decodeLoop nextCode expected passes added w out src = (.ok out, src) := by
  obtain ⟨passes, rfl⟩ := Nat.exists_eq_succ_of_ne_zero (Nat.ne_of_gt hpasses)
  rw [decodeLoop, if_pos hout.ge, if_pos hout]

theorem decodeLoop_of_next (hout : out.length < expected) (hnext : nextCode src = (some k, src'))
    (hentry : decodeEntry added w k = some entry) :
    decodeLoop nextCode expected (passes + 1) added w out src =
      decodeLoop nextCode expected passes (added ++ [w ++ entry.take 1]) entry (out ++ entry) src' := by
  rw [decodeLoop, if_neg (Nat.not_le.mpr hout)]
  simp only [hnext, hentry]

theorem decodeFrom_of_next (hexpected : expected ≠ 0) (hnext : nextCode src = (some k, src'))
    (hk : k < 256) : decodeFrom nextCode expected src =
      decodeLoop nextCode expected expected [] [BitVec.ofNat 8 k] [BitVec.ofNat 8 k] src' := by
  rw [decodeFrom, if_neg hexpected]
  simp only [hnext]
  rw [if_neg (Nat.not_le.mpr hk)]

/-! ## What the decoder finds for a code (R150, R156) -/

/-- The dictionary's string of a string's code is that string. -/
theorem dictEntry_of_dictCode (h : dictCode added w = some k) : dictEntry added k = some w := by
  unfold dictCode at h
  split at h
  · next b => cases h; rw [dictEntry, if_pos b.isLt, BitVec.ofNat_toNat, BitVec.setWidth_eq]
  · obtain ⟨j, hj, rfl⟩ := Option.map_eq_some_iff.mp h
    obtain ⟨hlt, heq, -⟩ := List.findIdx?_eq_some_iff_getElem.mp hj
    rw [dictEntry, if_neg (by omega), Nat.add_sub_cancel_left, List.getElem?_eq_getElem hlt,
      beq_iff_eq.mp heq]

theorem dictEntry_concat_of_ne {e : List Byte} (h : k ≠ 256 + added.length) :
    dictEntry (added ++ [e]) k = dictEntry added k := by
  unfold dictEntry
  split
  · rfl
  · rcases Nat.lt_or_gt_of_ne h with hlt | hgt
    · exact List.getElem?_append_left (by omega)
    · rw [List.getElem?_eq_none (by rw [List.length_append, List.length_singleton]; omega),
        List.getElem?_eq_none (by omega)]

/-- The decoder's dictionary lacks the encoder's last entry, `p` and the first byte of the string it is about
to read; it finds every string's code all the same, since the missing entry begins with `p`. -/
theorem decodeEntry_of_dictCode_concat (hp : p ≠ [])
    (h : dictCode (added ++ [p ++ w.take 1]) w = some k) : decodeEntry added p k = some w := by
  have hentry := dictEntry_of_dictCode h
  unfold decodeEntry
  split
  · next hk =>
    have hw : p ++ w.take 1 = w := by
      rw [hk, dictEntry, if_neg (by omega), Nat.add_sub_cancel_left, List.getElem?_concat_length] at hentry
      exact Option.some.inj hentry
    have hfirst : w.take 1 = p.take 1 := by
      conv_lhs => rw [← hw]
      exact List.take_append_of_le_length (List.length_pos_iff.mpr hp)
    rw [← hfirst, hw]
  · next hk => rwa [dictEntry_concat_of_ne hk] at hentry

/-! ## Decoding what was encoded (R158) -/

theorem emitCode_of_dictCode (hw : w ≠ []) (h : dictCode added w = some k) : emitCode added w = [k] := by
  rw [emitCode, if_neg hw, h, Option.toList_some]

/-- While the encoder, with `w` matched, has the decoder's dictionary and one entry more, the loop gives `w`
and the bytes still to be scanned. -/
theorem decodeLoop_encodeFrom {rest : List Byte} (hp : p ≠ []) (hw : w ≠ [])
    (hcode : dictCode (added ++ [p ++ w.take 1]) w = some k) (hpasses : w.length + rest.length < passes)
    (hsrc : Delivers nextCode src (encodeFrom (added ++ [p ++ w.take 1]) w rest)) :
    (decodeLoop nextCode (out ++ w ++ rest).length passes added p out src).1 = .ok (out ++ w ++ rest) := by
  induction rest generalizing added w p out src passes k with
  | nil =>
    rw [List.append_nil, List.length_append]
    rw [encodeFrom, emitCode_of_dictCode hw hcode] at hsrc
    have hpos := List.length_pos_iff.mpr hw
    obtain ⟨passes, rfl⟩ := Nat.exists_eq_add_of_lt hpasses
    cases hsrc with
    | cons hnext _ =>
      rw [decodeLoop_of_next (by omega) hnext (decodeEntry_of_dictCode_concat hp hcode),
        decodeLoop_of_done (by omega) List.length_append]
  | cons c rest ih =>
    rw [List.length_cons] at hpasses
    rw [List.append_cons]
    have hpos := List.length_pos_iff.mpr hw
    rw [encodeFrom] at hsrc
    split at hsrc
    · next hlonger =>
      -- The match goes on: no code is emitted, and the first byte of the match stays.
      obtain ⟨k', hk'⟩ := Option.isSome_iff_exists.mp hlonger
      have hfirst : w.take 1 = (w ++ [c]).take 1 := (List.take_append_of_le_length hpos).symm
      rw [hfirst] at hk' hsrc
      rw [List.append_assoc out]
      exact ih hp (by simp) hk' (by rw [List.length_append, List.length_singleton]; omega) hsrc
    · -- The match ends: both sides add an entry, the encoder's one ahead of the decoder's.
      rw [emitCode_of_dictCode hw hcode, List.singleton_append] at hsrc
      obtain ⟨passes, rfl⟩ := Nat.exists_eq_add_of_lt hpasses
      cases hsrc with
      | cons hnext hrest =>
        rw [decodeLoop_of_next (by simp) hnext (decodeEntry_of_dictCode_concat hp hcode)]
        exact ih hw (List.cons_ne_nil c []) rfl (by rw [List.length_singleton]; omega) hrest

theorem dictionaryCodes_singleton (b : Byte) : dictionaryCodes [b] = [b.toNat] := rfl

/-- The first code is that of the first byte, since no entry is there to match a second. -/
theorem dictionaryCodes_cons_cons (b c : Byte) (rest : List Byte) :
    dictionaryCodes (b :: c :: rest) = b.toNat :: encodeFrom [[b, c]] [c] rest := rfl

/-- Over any source that delivers the codes of `x`, the decoder gives `x`. -/
theorem decodeFrom_of_delivers {x : List Byte} (h : Delivers nextCode src (dictionaryCodes x)) :
    (decodeFrom nextCode x.length src).1 = .ok x := by
  cases x with
  | nil => rfl
  | cons b rest =>
    have hlen : (b :: rest).length ≠ 0 := Nat.succ_ne_zero _
    have hb : BitVec.ofNat 8 b.toNat = b := BitVec.ofNat_toNat .. |>.trans (BitVec.setWidth_eq b)
    cases rest with
    | nil =>
      rw [dictionaryCodes_singleton] at h
      cases h with
      | cons hnext _ =>
        rw [decodeFrom_of_next hlen hnext b.isLt, hb, decodeLoop_of_done (Nat.pos_of_ne_zero hlen) rfl]
    | cons c rest =>
      rw [dictionaryCodes_cons_cons] at h
      cases h with
      | cons hnext hrest =>
        rw [decodeFrom_of_next hlen hnext b.isLt, hb]
        refine decodeLoop_encodeFrom (out := [b]) (w := [c]) (List.cons_ne_nil b []) (List.cons_ne_nil c [])
          rfl ?_ hrest
        rw [List.length_singleton, List.length_cons, List.length_cons]
        omega

/-- Settles O56: the list of codes is a source that delivers those of `x` first. -/
theorem dictionaryDecodeOfEncode : Obligations.DictionaryDecodeOfEncode :=
  fun x more => decodeFrom_of_delivers (delivers_nextListed_append (dictionaryCodes x) more)

/-! ## What the decoder returns and keeps, whatever the source (R157) -/

theorem length_of_decodeLoop {x : List Byte}
    (h : (decodeLoop nextCode expected passes added w out src).1 = .ok x) : x.length = expected := by
  induction passes generalizing added w out src with
  | zero => cases h
  | succ passes ih =>
    unfold decodeLoop at h
    split at h
    · split at h
      · next hlen => cases h; exact hlen
      · cases h
    · split at h
      · cases h
      · split at h
        · cases h
        · exact ih h

/-- A decoder that succeeds returns as many bytes as expected. -/
theorem length_of_decodeFrom {x : List Byte} (h : (decodeFrom nextCode expected src).1 = .ok x) :
    x.length = expected := by
  unfold decodeFrom at h
  split at h
  · next h0 => cases h; exact h0.symm
  · split at h
    · cases h
    · split at h
      · cases h
      · exact length_of_decodeLoop h

variable {P : σ → Prop}

theorem decodeLoop_keeps (hnext : ∀ src, P src → P (nextCode src).2) (h : P src) :
    P (decodeLoop nextCode expected passes added w out src).2 := by
  induction passes generalizing added w out src with
  | zero => exact h
  | succ passes ih =>
    have hsrc := hnext src h
    unfold decodeLoop
    split
    · exact h
    · split
      · next heq => rwa [heq] at hsrc
      · next heq =>
        rw [heq] at hsrc
        split
        · exact hsrc
        · exact ih hsrc

/-- What each code taken keeps of the source, the decoder keeps. -/
theorem decodeFrom_keeps (hnext : ∀ src, P src → P (nextCode src).2) (h : P src) :
    P (decodeFrom nextCode expected src).2 := by
  have hsrc := hnext src h
  unfold decodeFrom
  split
  · exact h
  · split
    · next heq => rwa [heq] at hsrc
    · next heq =>
      rw [heq] at hsrc
      split
      · exact hsrc
      · exact decodeLoop_keeps hnext hsrc

/-- Settles O59: a decompress that returns bytes comes to its decoder. -/
theorem decompressReturnsTheExpectedLength : Obligations.DecompressReturnsTheExpectedLength := by
  intro s packed out n h
  unfold decompress at h
  split at h
  · cases h
  · split at h
    · cases h
    · split at h
      · exact length_of_decodeFrom h
      · split at h <;> cases h

end Sys2Proof.Machine
end

section
/-!
PROOFS. A failed import or merge (`45_host_dictionary_coder.md` R160): UBEGIN and UGET write no table byte, so
neither does a decompress, whatever it ends in.
-/

namespace Sys2Proof.Machine

variable {s t u : State} {packed : List Byte} {e : DecodeFailure} {n : Nat}

/-- No frame is outstanding in `t`, and its table is that of `s`. -/
structure KeepsTable (s t : State) : Prop where
  pending : t.pending = []
  table : t.table = s.table

/-- A transaction of a command without an effect on the table or on the frames presented. -/
theorem KeepsTable.transact {i : Instr} {r : Response} (h : KeepsTable s t)
    (hi : (effect t i).table = t.table) (hw : i.wellFormed = true)
    (ht : transact t (encode i) = some (u, r)) : KeepsTable s u := by
  obtain ⟨v, q, he, hpending, hout⟩ := exec_completes i t
  rw [transact_encode hw h.pending he hout] at ht
  cases ht
  refine ⟨hpending.trans h.pending, Eq.trans ?_ h.table⟩
  cases exec_answers he with
  | failed => rfl
  | succeeded => exact hi

theorem KeepsTable.nextByUget (h : KeepsTable s t) : KeepsTable s (nextByUget t).2 := by
  unfold Machine.nextByUget
  split
  · exact h
  · next ht =>
    have hu := h.transact rfl rfl ht
    split <;> exact hu

/-- A decompress keeps the table, whether it succeeds or fails. -/
theorem keepsTable_decompress (hs : s.pending = []) (packed : List Byte) (n : Nat) :
    KeepsTable s (decompress s packed n).2 := by
  have h : KeepsTable s s := ⟨hs, rfl⟩
  unfold decompress
  split
  · exact h
  · next hlen =>
    have hw : (Instr.ubegin packed).wellFormed = true := decide_eq_true (by omega)
    split
    · exact h
    · next ht =>
      have hu := h.transact rfl hw ht
      split
      · exact decodeFrom_keeps (fun _ => KeepsTable.nextByUget) hu
      · split <;> exact hu

/-- An import that fails ends where its decompress did. -/
theorem importTable_of_error (h : (importTable s packed).1 = .error e) :
    (importTable s packed).2 = (decompress s packed Config.tableBytes).2 := by
  unfold importTable at h ⊢
  split at h
  · next hd => rw [hd]
  · split at h <;> cases h

/-- A merge that fails ends where its decompress did. -/
theorem mergeTable_of_error (h : (mergeTable s packed).1 = .error e) :
    (mergeTable s packed).2 = (decompress s packed Config.tableBytes).2 := by
  unfold mergeTable at h ⊢
  split at h
  · next hd => rw [hd]
  · split at h <;> cases h

/-- Settles O60: both end where their decompress did, which keeps the table. -/
theorem failedImportLeavesTheTable : Obligations.FailedImportLeavesTheTable := by
  intro s packed e hs
  have hkeeps := keepsTable_decompress hs packed Config.tableBytes
  exact ⟨fun h => importTable_of_error h ▸ hkeeps.table, fun h => mergeTable_of_error h ▸ hkeeps.table⟩

end Sys2Proof.Machine
end

section
/-!
PROOFS. The round trip over frames (`45_host_dictionary_coder.md` R158). A PACK program that succeeds has had its
every PPUT accepted, so its packed form fits the pack buffer; PGET answered that form, of which the UGETs of
`decompress` then deliver the codes.
-/

namespace Sys2Proof.Machine

open Sys2Proof.Statements

variable {s t u : State} {i : Instr} {is js : List Instr} {rs : List Response} {w n : Nat}
  {codes cs : List Half} {x p : List Byte}

/-! ## The parts of a run of successful commands -/

/-- A run adds one response per command. -/
theorem runCommands_responses (h : runCommands is s = some t) :
    ∃ rs, t.outbox = s.outbox ++ rs ∧ rs.length = is.length := by
  induction is generalizing s with
  | nil => cases h; exact ⟨[], (List.append_nil _).symm, rfl⟩
  | cons i is ih =>
    obtain ⟨u, r, he, -, hout⟩ := exec_completes i s
    rw [runCommands, he] at h
    obtain ⟨rs, hrs, hlen⟩ := ih h
    exact ⟨r :: rs, by rw [hrs, hout, List.append_assoc, List.singleton_append], congrArg (· + 1) hlen⟩

/-- A run of successful commands is one over the first of them, then one over the rest. -/
theorem SafeRun.split (h : SafeRun (is ++ js) s t rs) :
    ∃ u ps qs, SafeRun is s u ps ∧ SafeRun js u t qs := by
  obtain ⟨hrun, hout, -, hok⟩ := h
  rw [runCommands_append, Option.bind_eq_some_iff] at hrun
  obtain ⟨u, hu, ht⟩ := hrun
  obtain ⟨ps, hps, hplen⟩ := runCommands_responses hu
  obtain ⟨qs, hqs, hqlen⟩ := runCommands_responses ht
  obtain rfl : rs = ps ++ qs := by
    rw [hqs, hps, List.append_assoc] at hout
    exact (List.append_cancel_left hout).symm
  obtain ⟨hpok, hqok⟩ := List.forall_mem_append.mp hok
  exact ⟨u, ps, qs, ⟨hu, hps, hplen, hpok⟩, ht, hqs, hqlen, hqok⟩

/-- The first command of such a run has passed its checks, and the run goes on from its effect. -/
theorem SafeRun.accepts_head (h : SafeRun (i :: is) s t rs) :
    Accepts s i ∧ ∃ r qs, SafeRun is ((effect s i).emit r) t qs := by
  obtain ⟨u, ps, qs, ⟨hrun, hout, -, hok⟩, hrest⟩ := SafeRun.split (is := [i]) h
  obtain ⟨u', he, hu⟩ := runCommands_cons_eq_some hrun
  cases hu
  cases exec_answers he with
  | failed e hn =>
    obtain rfl := List.append_cancel_left hout
    exact absurd (hok _ (List.mem_singleton_self _)) (errorResponse_err_ne_zero e)
  | succeeded d f p ha => exact ⟨ha, _, _, hrest⟩

theorem SafeRun.unique {t' : State} {rs' : List Response} (h : SafeRun is s t rs)
    (h' : SafeRun is s t' rs') : t = t' ∧ rs = rs' := by
  obtain ⟨hrun, hout, -, -⟩ := h
  obtain ⟨hrun', hout', -, -⟩ := h'
  obtain rfl : t = t' := Option.some.inj (hrun.symm.trans hrun')
  exact ⟨rfl, List.append_cancel_left (hout.symm.trans hout')⟩

/-- Transactions that all answer `err = 0` perform a run of successful commands. -/
theorem safeRun_of_transactAll (hw : ∀ i ∈ is, i.wellFormed = true) (hs : s.pending = [])
    (h : transactAll is s = some (t, rs)) (hok : allOk rs = true) : SafeRun is s t rs := by
  obtain ⟨t', rs', hall, hrun, hout⟩ := transactAll_completes hw hs
  cases hall.symm.trans h
  obtain ⟨qs, hqs, hlen⟩ := runCommands_responses hrun
  obtain rfl := List.append_cancel_left (hout.symm.trans hqs)
  exact ⟨hrun, hout, hlen, by simpa [allOk] using hok⟩

/-! ## A PACK program that succeeds fits the pack buffer (R124, R128) -/

/-- PPUTs that all succeed leave a packed form within the pack buffer. -/
theorem HoldsPacked.fits_of_safeRun (h : HoldsPacked w codes s) (hrun : SafeRun (cs.map .pput ++ js) s t rs) :
    packedLength (w * (codes ++ cs).length) ≤ 1024 := by
  induction cs generalizing codes s rs with
  | nil =>
    rw [List.append_nil, ← h.length]
    exact Nat.le_of_lt_succ s.plen.isLt
  | cons c cs ih =>
    obtain ⟨⟨-, -, hfit⟩, r, qs, hrest⟩ := hrun.accepts_head
    rw [List.append_cons]
    exact ih ((h.putCode hfit).emit r) hrest

theorem fits_of_safeRun_packProgram (h : SafeRun (packProgram codes) s t rs) :
    packedLength (codeWidth (largestCode codes) * codes.length) ≤ 1024 := by
  rw [packProgram_eq_append] at h
  obtain ⟨u, ps, qs, hselect, hputs⟩ := h.split
  obtain ⟨v, r, ps', hselect'⟩ := safeRun_selectWidth codes s
  obtain ⟨rfl, -⟩ := hselect.unique hselect'
  exact ((holdsPacked_beginPack (codeWidth_largestCode_le_sixteen codes) v).emit r).fits_of_safeRun hputs

/-- A packed buffer that PACK answers is the packed form of the codes, and UBEGIN loads it. -/
theorem packed_of_safeRun_packProgram (h : SafeRun (packProgram codes) s t rs) (hp : lastPayload rs = some p) :
    IsPackedForm (codeWidth (largestCode codes)) codes p ∧ Loadable p := by
  have hfit := fits_of_safeRun_packProgram h
  obtain ⟨t', rs', hrun, p', hlast, hform⟩ := safeRun_packProgram_packed hfit s
  obtain ⟨-, rfl⟩ := h.unique hrun
  obtain rfl := Option.some.inj (hp.symm.trans hlast)
  exact ⟨hform, loadable_of_isPackedForm (one_le_codeWidth _) (codeWidth_largestCode_le_sixteen codes) hform
    (hform.1.trans_le hfit)⟩

/-! ## compress, read backwards (R153) -/

/-- A compress that returns packed bytes had codes of at most 16 bits, and its PACK succeeded. -/
theorem safeRun_of_compress (hs : s.pending = []) (h : compress s x = some (t, p)) :
    (∀ k ∈ dictionaryCodes x, k ≤ 65535) ∧
    ∃ rs, SafeRun (packProgram (operandCodes x)) s t rs ∧ lastPayload rs = some p := by
  unfold compress at h
  dsimp only at h
  split at h
  · cases h
  · next h16 =>
    split at h
    · cases h
    · next hall =>
      split at h
      · next hok =>
        obtain ⟨r, hr, heq⟩ := Option.map_eq_some_iff.mp h
        cases heq
        refine ⟨by simpa using h16, _,
          safeRun_of_transactAll (fun _ => wellFormed_of_mem_packProgram) hs hall hok, ?_⟩
        rw [lastPayload, hr, Option.map_some]
      · cases h

/-! ## decompress of a loadable buffer (R154, R155) -/

theorem decompress_of_loadable (h : Loadable p) (hs : s.pending = []) (n : Nat) :
    decompress s p n = decodeFrom nextByUget n (unpackStart p s) := by
  have hlen := h.length_le
  have hbegin := transact_encode (i := .ubegin p) (decide_eq_true (by omega)) hs
    (execUbegin_of_loadable h s) (State.emit_outbox _ _)
  rw [decompress, if_neg (by omega), hbegin]
  exact if_pos rfl

/-- One UGET of the host after `n` others. -/
theorem nextByUget_takeCodes (hs : s.pending = []) (hm : s.pmode = .unpack)
    (hfit : s.pcur.toNat + (n + 1) * s.pw.toNat ≤ 8 * (s.plen.val - 1)) :
    nextByUget (takeCodes n s) = (some (deliveredCode s n).toNat, takeCodes (n + 1) s) := by
  have hget := transact_encode (i := .uget) rfl (show (takeCodes n s).pending = [] from hs)
    (execUget_takeCodes hm hfit) (r := okResponse (deliveredCode s n) 0#8 [])
    (by simp only [takeCodes, ugetResponses_succ, List.append_assoc])
  rw [nextByUget, hget]
  exact if_pos rfl

/-- The UGETs over a packed form deliver its codes. -/
theorem delivers_nextByUget (h : Loadable p) (hf : IsPackedForm w codes p) (hw : headerWidth p = w)
    (hc : ∀ c ∈ codes, c.toNat < 2 ^ w) (hs : s.pending = []) :
    Delivers nextByUget (unpackStart p s) (codes.map (·.toNat)) := by
  have hle := length_le_wholeCodes hf hw (hw ▸ h.one_le_width)
  rw [← takeCodes_zero (unpackStart p s)]
  refine delivers_of_steps (f := (takeCodes · (unpackStart p s))) fun j hj => ?_
  rw [List.length_map] at hj
  rw [Nat.zero_add, nextByUget_takeCodes (by exact hs) rfl (h.unpackStart_fits (by omega) s),
    deliveredCode_of_isPackedForm h hf hw hc (by omega), List.getD_eq_getElem _ _ hj, List.getElem_map,
    BitVec.toNat_ofNat, Nat.mod_eq_of_lt (codes[j].isLt.trans (by decide))]

/-- The operands stand for the codes they were made from. -/
theorem operandCodes_map_toNat (h16 : ∀ k ∈ dictionaryCodes x, k ≤ 65535) :
    (operandCodes x).map (·.toNat) = dictionaryCodes x := by
  rw [operandCodes, List.map_map]
  refine (List.map_congr_left fun k hk => ?_).trans (List.map_id _)
  exact Nat.mod_eq_of_lt (Nat.lt_succ_of_le (h16 k hk))

/-- Settles O57: the UGETs deliver the codes of `x`, and the decoder gives `x` over any such source. -/
theorem decompressOfCompress : Obligations.DecompressOfCompress := by
  intro s t u x packed hs hu hcompress
  obtain ⟨h16, rs, hrun, hlast⟩ := safeRun_of_compress hs hcompress
  obtain ⟨hform, hload⟩ := packed_of_safeRun_packProgram hrun hlast
  have hdelivers := delivers_nextByUget hload hform
    (headerWidth_of_isPackedForm (codeWidth_largestCode_le_sixteen _) hform)
    (fun _ => lt_two_pow_codeWidth_largestCode) hu
  rw [operandCodes_map_toNat h16] at hdelivers
  rw [decompress_of_loadable hload hu]
  exact decodeFrom_of_delivers hdelivers

end Sys2Proof.Machine
end

section
/-!
PROOFS. Errors (`60_exceptions.md`): what taking one leaves alone (R183), and that ADD and CHECK never take
one (R180), because each of their commands establishes what the next one checks.
-/

namespace Sys2Proof.Machine

open Sys2Proof.Statements

/-! ## What an error does, and who else writes ERR (R183) -/

/-- Of the effects, those of CLRERR and SRST alone write ERR. -/
theorem effect_err {i : Instr} (s : State) (hc : i ≠ .clrerr) (hs : i ≠ .srst) :
    (effect s i).err = s.err := by
  cases i with
  | clrerr => exact absurd rfl hc
  | srst => exact absurd rfl hs
  | _ => rfl

/-- Settles O11: a command either takes an error or has its effect, and an illegal frame takes E_ILLEGAL. -/
theorem errorSetsItsStickyBitAndNothingElse : Obligations.ErrorSetsItsStickyBitAndNothingElse := by
  refine ⟨fun i s t h => ?command, fun s f rest e hp hd => ?frame⟩
  case command =>
    cases exec_answers h with
    | failed e _ =>
      obtain ⟨hlow, hhigh⟩ := errorCodeNumber_range e
      refine ⟨errorResponse e, rfl, fun _ => ?_, fun h0 => absurd h0 (errorResponse_err_ne_zero e)⟩
      rw [errorResponse_err_toNat]
      exact ⟨hlow, hhigh, withError_eq_afterError s e⟩
    | succeeded d f p _ =>
      exact ⟨okResponse d f p, by rw [State.emit_outbox, effect_outbox], fun h0 => absurd rfl h0,
        fun _ => effect_err s⟩
  case frame => exact (step_of_decode_error hp hd).trans (raise_eq_afterError .illegal _)

/-! ## ADD and CHECK take no error (R180) -/

/-- Every one of the commands, run in order from `s`, answers `err = 0`. -/
def Succeeds (is : List Instr) (s : State) : Prop := ∃ t rs, SafeRun is s t rs

theorem Succeeds.nil (s : State) : Succeeds [] s := ⟨s, [], .nil s⟩

/-- A command that its checks accept, then commands that succeed after its effect, whatever it responds. -/
theorem Succeeds.cons {i : Instr} {is : List Instr} {s : State} (ha : Accepts s i)
    (h : ∀ r, Succeeds is ((effect s i).emit r)) : Succeeds (i :: is) s := by
  obtain ⟨d, he⟩ := exec_of_accepts ha
  obtain ⟨t, rs, hrun⟩ := h (okResponse d (answerFlags s i) (answerPayload s i))
  exact ⟨t, _, .cons_of_respondWith he (effect_outbox s i) hrun⟩

/-- HABSN keeps an open hash open and its bucket count, so any number of them succeed in a row. -/
theorem Succeeds.map_habsn_append {is : List Instr} {bc : Fin 5}
    (h : ∀ u : State, u.hstate = .absorb → u.bc = bc → Succeeds is u) (pieces : List (List Byte))
    {s : State} (hs : s.hstate = .absorb) (hbc : s.bc = bc) :
    Succeeds (pieces.map .habsn ++ is) s := by
  induction pieces generalizing s with
  | nil => exact h s hs hbc
  | cons p pieces ih => exact .cons hs fun _ => ih hs hbc

/-- HFIN ends an open hash, FOLD takes it at four buckets and gives a valid coordinate, which is all that the
command after it checks. -/
theorem succeeds_hfin_fold {i : Instr} (hi : ∀ u : State, u.ivalid = true → Accepts u i) {s : State}
    (hs : s.hstate = .absorb) (hbc : s.bc = 4) : Succeeds [.hfin, .fold, i] s :=
  .cons hs fun _ => .cons ⟨rfl, congrArg Fin.val hbc⟩ fun _ => .cons (hi _ rfl) fun _ => .nil _

/-- COORD of a name, then a command that checks the coordinate alone, succeed from any state. -/
theorem succeeds_coordProgram_append {i : Instr} (hi : ∀ u : State, u.ivalid = true → Accepts u i)
    (name : List Byte) (s : State) : Succeeds (coordProgram name ++ [i]) s := by
  obtain ⟨pieces, hpieces, -, -⟩ := absorbCommands_pieces (name.length + 1) name (Nat.lt_succ_self _)
  have hprogram : coordProgram name ++ [i] =
      .hinit 4#16 :: (pieces.map .habsn ++ [.hfin, .fold, i]) := by
    simp [coordProgram, hashProgram, hpieces]
  rw [hprogram]
  exact .cons (by decide : 1 ≤ (4#16).toNat ∧ (4#16).toNat ≤ 4) fun _ =>
    .map_habsn_append (fun _ => succeeds_hfin_fold hi) pieces rfl rfl

/-- Settles O38: TADD and TCHK check that the coordinate is valid, and COORD before them leaves it so. -/
theorem addAndCheckNeverFail : Obligations.AddAndCheckNeverFail :=
  fun x s => ⟨succeeds_coordProgram_append (i := .tadd) (fun _ => id) x s,
    succeeds_coordProgram_append (i := .tchk) (fun _ => id) x s⟩

end Sys2Proof.Machine
end
